-- ==== Sys2Proof/Word.lean ====
section
/-! DEFINITION. The 32-bit word and its three readings (spec 00_scope.md R9), and the named constants of R10. -/

namespace Sys2Proof

/-- A word: a string of 32 bits (R9). A Fix16 is a word read as Q16.16. -/
abbrev Word := BitVec 32

/-- `s32(w)` of R9: the word as a two's-complement integer, in raw units. -/
abbrev s32 (w : Word) : Int := w.toInt

/-- `u32(w)` of R9: the word as an unsigned integer. -/
abbrev u32 (w : Word) : Nat := w.toNat

/-- `w32(v)` of R9: the word whose unsigned value is `v mod 2^32`. -/
abbrev w32 (v : Int) : Word := BitVec.ofInt 32 v

/-- The overflow sentinel `OVF`, the same word as `MIN` (R10). -/
abbrev OVF : Word := 0x80000000#32

/-- `MAX` of R10. -/
abbrev MAX : Word := 0x7FFFFFFF#32

/-- `ONE` of R10: 1.0. -/
abbrev ONE : Word := 0x00010000#32

/-- `K256` of R10: 256.0, the prescaling constant of the QR engine. -/
abbrev K256 : Word := 0x01000000#32

end Sys2Proof
end

