-- ==== Sys2Proof/Config.lean ====
section
/-! DEFINITION. What is fixed for the machine: the constant of the `ID` register (10_state.md R33) and the
free values that stand for what reset leaves unspecified (10_state.md R41). The parameters of 00_scope.md R5
and R8 (8, 16, 4, 1024, 12, 255) are the sizes of the types in Syntax.lean and Machine/State.lean. -/

namespace Sys2Proof

/-- The word `ID` reads as (R33): ASCII "FX", revision 1, NMAT 4, MAX_SIZE 8. -/
def Config.idWord : Word := 0x46580148#32

/-- DESIGN CHOICE (log entry 3), safe. The arbitrary word that data cell number `n` (= 8·r + c) of matrix
register `k` holds after reset number `epoch` until something writes it (R41: any value). It has no body:
nothing can be proved of which word it is. -/
opaque Config.unspecifiedCell (epoch k n : Nat) : Word

/-- DESIGN CHOICE (log entry 3), safe. The arbitrary word that `AMEM[i]` holds after reset number `epoch`
until something writes it (R41: any value). It has no body. -/
opaque Config.unspecifiedAmem (epoch i : Nat) : Word

end Sys2Proof
end

