-- ==== Sys2Proof/Machine/State.lean ====
section
/-! DEFINITION. The state of FXM16 (spec 10_state.md R20), the inputs of the machine (20_memory.md R60,
70_reset_and_hazards.md R250), the state after reset (10_state.md R40), and the reasons a step may stop. -/

namespace Sys2Proof.Machine

/-- The index of a word on the host port: 12 bits (20_memory.md R60). -/
abbrev Index := BitVec 12

/-- The five error flags of a matrix register (R27), bit 0 `OVERFLOW` to bit 4 `NEGATIVE`. -/
abbrev Errors := BitVec 5

/-- The 64 data cells of a matrix register, row-major with pitch 8: cell `(r, c)` is word `8·r + c` (R25). -/
abbrev Cells := Vector Word 64

/-- One matrix register, an `MF16` record (R23 to R27). `rows` and `cols` are legal in 1..8 (R24). -/
structure MatReg where
  rows   : BitVec 4
  cols   : BitVec 4
  errors : Errors
  data   : Cells
deriving DecidableEq, Repr

/-- `CFG` (R32): rounding and overflow detection. -/
structure Cfg where
  round : Bool
  ovf   : Bool
deriving DecidableEq, Repr

/-- `STATUS` (R31): a rejection is recorded, and its cause code. -/
structure Status where
  err   : Bool
  cause : BitVec 4
deriving DecidableEq, Repr

/-- `DOTA` and `DOTB` (R35, R36): the descriptor of an array in `AMEM`. -/
structure DotDesc where
  base   : BitVec 10
  stride : BitVec 10
deriving DecidableEq, Repr

/-- The array memory (R37), word by word: `(i, w)` is listed when `AMEM[i]` was written since reset and holds
`w`. FXM16 has no bytes (20_memory.md R66), so the cells are words (log entry 4). -/
abbrev Memory := List (Nat × Word)

/-- The canonical form: indices strictly rising and inside `AMEM`, so that equal contents are equal lists.
A listed word is never equal to what an unlisted index looks up as, which is `none`. -/
def Memory.wf : Memory → Bool
  | [] => true
  | (i, _) :: rest => decide (i < 1024) && rest.all (fun cell => decide (i < cell.1)) && Memory.wf rest

/-- What the outside world does to the block: the two transactions of R60 and the reset input of R250. -/
inductive HostInput where
  /-- `HostWrite(a, v)`. -/
  | write (a : Index) (v : Word)
  /-- `HostRead(a)`. -/
  | read (a : Index)
  /-- The reset input is asserted (log entry 5). -/
  | reset
deriving DecidableEq, Repr

/-- The whole state (R20), then the model's own three fields. -/
structure State where
  x        : Vector Word 16
  mats     : Vector MatReg 4
  amem     : Memory
  cfg      : Cfg
  status   : Status
  errinfo  : Word
  dota     : DotDesc
  dotb     : DotDesc
  /-- DESIGN CHOICE (log entry 1): the inputs the host has still to perform, the next one first. -/
  pending  : List HostInput
  /-- DESIGN CHOICE (log entry 2): the word the last transaction returned, `none` if it returned nothing. -/
  response : Option Word
  /-- DESIGN CHOICE (log entry 3): how many resets were asserted; the free values depend on it. -/
  resets   : Nat
deriving DecidableEq, Repr

/-- A matrix register after reset number `epoch` (R40): shape 1 × 1, no flag, every cell unspecified (R41). -/
def MatReg.powerOn (epoch k : Nat) : MatReg :=
  { rows := 1, cols := 1, errors := 0,
    data := Vector.ofFn fun n => Config.unspecifiedCell epoch k n.val }

/-- The state after reset number `epoch` with the given inputs to come: the table of R40. -/
def State.powerOn (epoch : Nat) (inputs : List HostInput) : State :=
  { x := Vector.replicate 16 0
    mats := Vector.ofFn fun k => MatReg.powerOn epoch k.val
    amem := []
    cfg := { round := true, ovf := true }
    status := { err := false, cause := 0 }
    errinfo := 0
    dota := { base := 0, stride := 0 }
    dotb := { base := 0, stride := 0 }
    pending := inputs
    response := none
    resets := epoch }

/-- The machine right after reset (R40), idle: the host has nothing to perform (log entries 1, 2, 3). -/
def State.reset : State := State.powerOn 0 []

/-- No step of FXM16 faults: every transaction completes (20_memory.md R69) and the block "cannot halt itself
and cannot refuse further transactions" (60_exceptions.md R234), so there is no constructor (log entry 8). -/
inductive Fault
deriving DecidableEq, Repr

/-- Why an instruction is given no meaning. -/
inductive Refusal where
  /-- Raised by an arm of `exec` whose instruction has no meaning yet, and by nothing else; safe, since the
  machine stops where the hardware goes on. No arm raises it now. -/
  | notModelled (mnemonic : String)
deriving DecidableEq, Repr

end Sys2Proof.Machine
end

