-- ==== Sys2Proof/Machine/Arith.lean ====
section
/-! DEFINITION. The numeric functions that every unit uses (spec 40_scalar.md R120 to R132, 41_dot.md R160). All
are total and depend on their operands and on `CFG` only (R138). Arithmetic is on unbounded integers; `/` on
`Int` with a positive divisor is the `floor` of 00_scope.md R9. -/

namespace Sys2Proof.Machine

/-- The integer that `narrow` rounds a value on the product scale to (R120): nearest, ties away from zero, on
the magnitude; or toward minus infinity. -/
def roundProduct (round : Bool) (p : Int) : Int :=
  if round then
    let m : Int := ((p.natAbs : Int) + 2 ^ 15) / 2 ^ 16
    if 0 ≤ p then m else -m
  else p / 2 ^ 16

/-- `narrow(p)` (R120): one overflow test, on `p` before rounding, and one rounding. -/
def narrow (cfg : Cfg) (p : Int) : Word :=
  if cfg.ovf && (decide (p < -2 ^ 47) || decide (2 ^ 47 ≤ p)) then OVF
  else w32 (roundProduct cfg.round p)

/-- `mul(a, b)` (R122). -/
def mul (cfg : Cfg) (a b : Word) : Word := narrow cfg (s32 a * s32 b)

/-- The magnitude of the quotient (R124): `floor((floor(na·2^17 / nb) + 1) / 2)`, or truncated. -/
def divMagnitude (round : Bool) (na nb : Nat) : Nat :=
  if round then (na * 2 ^ 17 / nb + 1) / 2 else na * 2 ^ 16 / nb

/-- `div(a, b)` (R124): on magnitudes, then re-signed; a zero divisor gives the sentinel whatever `CFG` is. -/
def div (cfg : Cfg) (a b : Word) : Word :=
  if s32 b = 0 then OVF
  else
    let q := divMagnitude cfg.round (s32 a).natAbs (s32 b).natAbs
    if cfg.ovf && decide (2 ^ 31 ≤ q) then OVF
    else w32 (if decide (s32 a < 0) != decide (s32 b < 0) then -(q : Int) else (q : Int))

/-- The search for the integer square root, one bit of the root a step: `s` has its bits from `n` up right. -/
def isqrtFrom (N : Nat) : Nat → Nat → Nat
  | 0, s => s
  | n + 1, s => isqrtFrom N n (if (s + 2 ^ n) * (s + 2 ^ n) ≤ N then s + 2 ^ n else s)

/-- `isqrt(N)` (00_scope.md R9): the greatest integer `s` with `s·s ≤ N`. -/
def isqrt (N : Nat) : Nat := isqrtFrom N (N.log2 / 2 + 1) 0

/-- `sqrt(a)` (R126): nearest, or the floor; a negative word gives the sentinel whatever `CFG` is. -/
def sqrt (cfg : Cfg) (a : Word) : Word :=
  if s32 a < 0 then OVF
  else
    let N := (s32 a).toNat * 2 ^ 16
    let s := isqrt N
    w32 (if cfg.round && decide (s < N - s * s) then (s : Int) + 1 else (s : Int))

/-- The main loop of the digit-by-digit square root of R127, from `bit = 4^(n-1)` down. It is the reference
that R127 lists beside R126; no command uses it. Answers `(s, rem)`. -/
def digitLoop : Nat → Nat → Nat → Nat × Nat
  | 0, rem, s => (s, rem)
  | n + 1, rem, s =>
    let bit := 4 ^ n
    if s + bit ≤ rem then digitLoop n (rem - (s + bit)) (s / 2 + bit) else digitLoop n rem (s / 2)

/-- The first loop of R127: from `bit = 4^(n-1)`, drop `bit` while it is above `rem`; how many powers stay. -/
def digitSkip (rem : Nat) : Nat → Nat
  | 0 => 0
  | n + 1 => if rem < 4 ^ n then digitSkip rem n else n + 1

/-- The reference square root of R127: `bit` starts at 2^46 = 4^23. Answers `(s, rem)`. -/
def digitSqrt (N : Nat) : Nat × Nat := digitLoop (digitSkip N 24) N 0

/-- `add_overflow(a, b)` (R131). -/
def addOverflow (cfg : Cfg) (a b : Word) : Word :=
  let v := s32 a + s32 b
  if cfg.ovf && (decide (v < -2 ^ 31) || decide (2 ^ 31 - 1 < v)) then OVF else w32 v

/-- `sub_overflow(a, b)` (R132): with overflow detection, subtracting `MIN` always reports overflow. -/
def subOverflow (cfg : Cfg) (a b : Word) : Word :=
  let v := s32 a - s32 b
  if cfg.ovf && b == OVF then OVF
  else if cfg.ovf && (decide (v < -2 ^ 31) || decide (2 ^ 31 - 1 < v)) then OVF
  else w32 v

/-- The exact sum of products of two lists of words (R160). -/
def dotAcc : List Word → List Word → Int
  | a :: u, b :: v => s32 a * s32 b + dotAcc u v
  | _, _ => 0

/-- `dotsum(u, v)` (R160): exact products, one sum, one overflow test, one rounding. -/
def dotsum (cfg : Cfg) (u v : List Word) : Word := narrow cfg (dotAcc u v)

end Sys2Proof.Machine
end

