-- ==== Sys2Proof/Machine/Flags.lean ====
section
/-! DEFINITION. The error flags of the matrix registers (spec 10_state.md R27, 60_exceptions.md R230) and the
overflow check `chk` (42_matrix_multiply.md R171). -/

namespace Sys2Proof.Machine

/-- `OVERFLOW`, mask 0x01 (R27). -/
def Errors.overflow : Errors := 0x01

/-- `DIMERR`, mask 0x02 (R27). -/
def Errors.dimerr : Errors := 0x02

/-- `USEERR`, mask 0x04 (R27). -/
def Errors.useerr : Errors := 0x04

/-- `SINGULAR`, mask 0x08 (R27). -/
def Errors.singular : Errors := 0x08

/-- `NEGATIVE`, mask 0x10 (R27). -/
def Errors.negative : Errors := 0x10

/-- A flag raised when a condition holds. -/
def Errors.raiseIf (cond : Bool) (flag : Errors) : Errors := if cond then flag else 0

/-- The flag `chk(v)` raises (R171): `OVERFLOW` exactly when the result word is the sentinel. The word itself is
used as it is. -/
def chk (v : Word) : Errors := Errors.raiseIf (v == OVF) Errors.overflow

/-- The flags that a list of words passed through `chk` one after another raises. -/
def chkAll (vs : List Word) : Errors := Errors.raiseIf (vs.any (· == OVF)) Errors.overflow

end Sys2Proof.Machine
end

