-- ==== Sys2Proof/Syntax.lean ====
section
/-! DEFINITION. The nine commands as a type (spec 30_encoding.md R94), and the fields of the one command
format `C` (R92) that the decoder reads and the encoder writes. -/

namespace Sys2Proof

/-- A scalar register number, 0..15 (R93). -/
abbrev XReg := Fin 16

/-- A matrix register number, 0..3 (R93, R96). -/
abbrev MReg := Fin 4

/-- The 8-bit immediate, a count 0..255 (R93). -/
abbrev Count := Fin 256

/-- The commands of R94, one constructor for each row of the opcode table, operands in the order of the
assembler of R100 (destination first). -/
inductive Instr where
  /-- `MUL xd, xa, xb` (R134). -/
  | mul (d a b : XReg)
  /-- `DIV xd, xa, xb` (R135). -/
  | div (d a b : XReg)
  /-- `SQRT xd, xa` (R136). -/
  | sqrt (d a : XReg)
  /-- `DOT xd, n` (R163). -/
  | dot (d : XReg) (n : Count)
  /-- `MMUL md, ma, mb` (R176). -/
  | mmul (d a b : MReg)
  /-- `MMULAT md, ma, mb` (R177). -/
  | mmulat (d a b : MReg)
  /-- `MMULBT md, ma, mb` (R178). -/
  | mmulbt (d a b : MReg)
  /-- `QR mq, mr, mm, reorth` (R197). -/
  | qr (q r m : MReg) (reorth : Count)
  /-- `CHOL md, mm` (R213). -/
  | chol (d m : MReg)
deriving DecidableEq, Repr

/-- The six fields of format `C` (R92), whatever they hold: what a command word says before it is checked. -/
structure Fields where
  op  : BitVec 8
  d   : BitVec 4
  a   : BitVec 4
  b   : BitVec 4
  e   : BitVec 4
  imm : BitVec 8
deriving DecidableEq, Repr

end Sys2Proof
end

