-- ==== Sys2Proof/Machine/Ops.lean ====
section
/-! DEFINITION. The named operations over registers and memory (spec 10_state.md), the rejection, which is
FXM16's only exception, and its acknowledgement (60_exceptions.md R222, R223). -/

namespace Sys2Proof.Machine

/-! ### Matrix cells -/

/-- Cell `(r, c)` of a store: word `8·r + c` (10_state.md R25). Outside 8 × 8 there is no cell; no command
forms such a place from a legal shape (log entry 7). -/
def Cells.cell (m : Cells) (r c : Nat) : Word :=
  if h : r < 8 ∧ c < 8 then m[8 * r + c]'(by omega) else 0

/-- Cell `(r, c)` written with `v`; nothing outside 8 × 8 (log entry 7). -/
def Cells.setCell (m : Cells) (r c : Nat) (v : Word) : Cells :=
  if h : r < 8 ∧ c < 8 then m.set (8 * r + c) v (by omega) else m

/-- The store whose cell `(r, c)` is `f r c`. -/
def Cells.tabulate (f : Nat → Nat → Word) : Cells := Vector.ofFn fun n => f (n.val / 8) (n.val % 8)

/-- The store that holds `f r c` in the cells of a shape `rows × cols` and keeps every other cell
(10_state.md R26 (b), 42_matrix_multiply.md R175). -/
def Cells.overlay (m : Cells) (rows cols : Nat) (f : Nat → Nat → Word) : Cells :=
  Cells.tabulate fun r c => if r < rows ∧ c < cols then f r c else m.cell r c

/-- `M[k].data[r][c]`. -/
def MatReg.cell (m : MatReg) (r c : Nat) : Word := Cells.cell m.data r c

/-- The record a matrix command leaves in its destination (R175): new shape, new flags, the cells of the new
shape; every other cell keeps its word. -/
def MatReg.store (m : MatReg) (rows cols : BitVec 4) (errors : Errors) (f : Nat → Nat → Word) : MatReg :=
  { rows := rows, cols := cols, errors := errors,
    data := Cells.overlay m.data rows.toNat cols.toNat f }

/-! ### Registers -/

/-- `x[i]` (10_state.md R21). -/
def State.getX (s : State) (i : XReg) : Word := s.x[i]

/-- `x[i] <- v`. -/
def State.setX (s : State) (i : XReg) (v : Word) : State := { s with x := s.x.set i.val v }

/-- `M[k]` as a whole record. -/
def State.mat (s : State) (k : MReg) : MatReg := s.mats[k]

/-- `M[k]` replaced. -/
def State.setMat (s : State) (k : MReg) (m : MatReg) : State := { s with mats := s.mats.set k.val m }

/-! ### Array memory -/

/-- The word listed at an index, `none` where nothing was written since reset. -/
def Memory.lookup : Memory → Nat → Option Word
  | [], _ => none
  | (j, w) :: rest, i => if i = j then some w else Memory.lookup rest i

/-- The memory with the word at an index written, in canonical form. -/
def Memory.write : Memory → Nat → Word → Memory
  | [], i, v => [(i, v)]
  | (j, w) :: rest, i, v =>
    if i < j then (i, v) :: (j, w) :: rest
    else if i = j then (i, v) :: rest
    else (j, w) :: Memory.write rest i v

/-- `AMEM[i]`, `MemRead(i, 1)` of 00_scope.md R11. What a word that nothing has written since reset reads as
is the one definition here: an arbitrary word, the same at every read (10_state.md R41; log entries 3, 4). -/
def State.amemWord (s : State) (i : Nat) : Word :=
  (Memory.lookup s.amem i).getD (Config.unspecifiedAmem s.resets i)

/-- `AMEM[i] <- v`, `MemWrite(i, 1, v)` of 00_scope.md R11. Only the host does it (10_state.md R37). -/
def State.writeAmem (s : State) (i : Nat) (v : Word) : State := { s with amem := Memory.write s.amem i v }

/-! ### Rejection and acknowledgement -/

/-- The causes of a rejection (60_exceptions.md R221). -/
inductive Cause where
  | illegalCmd
  | addrRange
  | badAddr
  | badValue
deriving DecidableEq, Repr

/-- The cause codes of R221. -/
def Cause.code : Cause → BitVec 4
  | .illegalCmd => 1
  | .addrRange => 2
  | .badAddr => 3
  | .badValue => 4

/-- `raise Reject(cause, info)` (R222): FXM16's taking of an exception. The first rejection since `ERR` was
last 0 is captured; while `ERR` = 1 nothing changes. Nothing else ever changes, and no control is transferred. -/
def State.reject (s : State) (cause : Cause) (info : Word) : State :=
  if s.status.err then s
  else { s with status := { err := true, cause := cause.code }, errinfo := info }

/-- The acknowledgement (R223), the return from an exception: a write to `STATUS` with bit 0 = 1. Nothing is
restored because nothing was saved. -/
def State.acknowledge (s : State) : State :=
  { s with status := { err := false, cause := 0 }, errinfo := 0 }

/-- The reset input asserted (70_reset_and_hazards.md R250): the values of R40, and what comes after it. -/
def State.assertReset (s : State) : State := State.powerOn (s.resets + 1) s.pending

end Sys2Proof.Machine
end

