-- ==== Sys2Proof/Machine/Operands.lean ====
section
/-! DEFINITION. The operand forms of the commands: elements of the arrays of `DOT` (spec 41_dot.md R161, R162),
rows and columns of a matrix store (42_matrix_multiply.md R179, 43_qr.md R193). -/

namespace Sys2Proof.Machine

/-- The index of element `i` of an array: `BASE + i·STRIDE`, without wrap-around (R161). -/
def DotDesc.element (d : DotDesc) (i : Nat) : Nat := d.base.toNat + i * d.stride.toNat

/-- The elements `0 .. n-1` of an array of `AMEM` (R161). -/
def State.dotArray (s : State) (d : DotDesc) (n : Nat) : List Word :=
  (List.range n).map fun i => s.amemWord (d.element i)

/-- The last of `n ≥ 1` elements lies outside `AMEM` (R162). -/
def DotDesc.leavesAmem (d : DotDesc) (n : Nat) : Bool := decide (1023 < d.element (n - 1))

/-- `[m[r][k] for k in 0 .. n-1]`: the first `n` cells of row `r`. -/
def Cells.rowCells (m : Cells) (r n : Nat) : List Word := (List.range n).map fun k => m.cell r k

/-- `[m[k][c] for k in 0 .. n-1]`: the first `n` cells of column `c`. -/
def Cells.colCells (m : Cells) (c n : Nat) : List Word := (List.range n).map fun k => m.cell k c

/-- The cells of a shape `rows × cols`, in row order. -/
def Cells.inShape (m : Cells) (rows cols : Nat) : List Word :=
  (List.range rows).flatMap fun r => m.rowCells r cols

end Sys2Proof.Machine
end

