-- ==== Sys2Proof/Machine/Chol.lean ====
section
/-! DEFINITION. The command `CHOL` (spec 44_cholesky.md R210 to R215), by the loops of R213 over a working array
`L` and a running flag set `E`, which are values inside the step, not state (log entry 13). -/

namespace Sys2Proof.Machine

/-- The working storage of R213: `L` and `E`. -/
structure CholWork where
  l : Cells
  e : Errors
deriving DecidableEq, Repr

/-- The order of the block that is factored (R211): the lesser of rows and columns. -/
def cholOrder (S : MatReg) : BitVec 4 := if S.rows.toNat ≤ S.cols.toNat then S.rows else S.cols

/-- The flags before the first step (R213): the source's, and `DIMERR` when it is not square (R211). -/
def cholInit (S : MatReg) : CholWork :=
  { l := Vector.replicate 64 0, e := S.errors ||| Errors.raiseIf (S.rows != S.cols) Errors.dimerr }

/-- The flag of a radicand (R212): below -65 raw units. -/
def cholNegative (v : Word) : Errors := Errors.raiseIf (decide (s32 v < -65)) Errors.negative

/-- The value whose root is taken (R212): a negative radicand becomes 0. -/
def cholClamp (v : Word) : Word := if s32 v < 0 then 0 else v

/-- The step of R212 on the diagonal, `j = i`. -/
def CholWork.diagonal (cfg : Cfg) (S : MatReg) (i : Nat) (w : CholWork) : CholWork :=
  let s := dotsum cfg (w.l.rowCells i i) (w.l.rowCells i i)
  let v := subOverflow cfg (S.cell i i) s
  let u := sqrt cfg (cholClamp v)
  { l := w.l.setCell i i u, e := w.e ||| chk s ||| chk v ||| cholNegative v ||| chk u }

/-- The step of R212 below the diagonal, `j < i`. -/
def CholWork.below (cfg : Cfg) (S : MatReg) (i j : Nat) (w : CholWork) : CholWork :=
  let s := dotsum cfg (w.l.rowCells i j) (w.l.rowCells j j)
  let v := subOverflow cfg (S.cell i j) s
  let u := div cfg v (w.l.cell j j)
  { l := w.l.setCell i j u, e := w.e ||| chk s ||| chk v ||| chk u }

/-- The step of R212 for `(i, j)`. -/
def CholWork.step (cfg : Cfg) (S : MatReg) (i : Nat) (w : CholWork) (j : Nat) : CholWork :=
  if i < j then { w with l := w.l.setCell i j 0 }
  else if j = i then w.diagonal cfg S i
  else w.below cfg S i j

/-- One row `i` of `L`, column by column (R212). -/
def CholWork.row (cfg : Cfg) (S : MatReg) (n : Nat) (w : CholWork) (i : Nat) : CholWork :=
  (List.range n).foldl (CholWork.step cfg S i) w

/-- The whole factorisation of a source record (R213). -/
def cholFactor (cfg : Cfg) (S : MatReg) : CholWork :=
  (List.range (cholOrder S).toNat).foldl (CholWork.row cfg S (cholOrder S).toNat) (cholInit S)

/-- The record of `M[d]` after the command (R213). -/
def cholStore (cfg : Cfg) (S D : MatReg) : MatReg :=
  D.store (cholOrder S) (cholOrder S) (cholFactor cfg S).e (cholFactor cfg S).l.cell

/-- `CHOL md, mm` (R213), from the record the source holds before the command (R174). -/
def execChol (d m : MReg) (s : State) : Host.Outcome State Fault Refusal :=
  .next (s.setMat d (cholStore s.cfg (s.mat m) (s.mat d)))

end Sys2Proof.Machine
end

