-- ==== Sys2Proof/WellFormed.lean ====
section
/-! DEFINITION. Which field contents are a command (spec 30_encoding.md R94 to R97): the opcode is assigned,
the fields the row does not use are zero, the matrix register numbers are 0..3. The typed `Instr` holds only
legal operands, so this is where the checks of the encoding stand. -/

namespace Sys2Proof

/-- What a row of R94 does with a field. -/
inductive FieldUse where
  /-- The field must be zero (R95). -/
  | zero
  /-- The field names a scalar register or is a count: every value is legal (R93). -/
  | any
  /-- The field names a matrix register: only 0..3 are legal (R96). -/
  | mreg
deriving DecidableEq, Repr

/-- The columns `d`, `a`, `b`, `e`, `imm` of one row of R94. -/
structure RowUse where
  d   : FieldUse
  a   : FieldUse
  b   : FieldUse
  e   : FieldUse
  imm : FieldUse
deriving DecidableEq, Repr

/-- The row of R94 that an opcode selects; `none` for a reserved opcode (R97). -/
def rowUse (op : BitVec 8) : Option RowUse :=
  if op = 0x01 then some ⟨.any, .any, .any, .zero, .zero⟩
  else if op = 0x02 then some ⟨.any, .any, .any, .zero, .zero⟩
  else if op = 0x03 then some ⟨.any, .any, .zero, .zero, .zero⟩
  else if op = 0x04 then some ⟨.any, .zero, .zero, .zero, .any⟩
  else if op = 0x10 then some ⟨.mreg, .mreg, .mreg, .zero, .zero⟩
  else if op = 0x11 then some ⟨.mreg, .mreg, .mreg, .zero, .zero⟩
  else if op = 0x12 then some ⟨.mreg, .mreg, .mreg, .zero, .zero⟩
  else if op = 0x18 then some ⟨.mreg, .mreg, .zero, .mreg, .any⟩
  else if op = 0x19 then some ⟨.mreg, .mreg, .zero, .zero, .zero⟩
  else none

/-- A field that must be zero and is not (R95). -/
def FieldUse.badZero (u : FieldUse) (v : Nat) : Bool := u == .zero && v != 0

/-- A matrix register number above 3 (R96). -/
def FieldUse.badMReg (u : FieldUse) (v : Nat) : Bool := u == .mreg && 4 ≤ v

/-- Why a word is no command: the three cases of 60_exceptions.md R224. The names are the model's (log entry
10); every one of them is the rejection `ILLEGAL_CMD`. -/
inductive IllegalCmd where
  /-- The opcode is reserved (R97). -/
  | reservedOpcode
  /-- A must-be-zero field is not zero (R95). -/
  | nonzeroField
  /-- A matrix register number is 4..15 (R96). -/
  | matrixRegister
deriving DecidableEq, Repr

/-- The checks of R95, R96, R97 on the fields: the first that fails, or `none` for a legal command. -/
def Fields.illegal (f : Fields) : Option IllegalCmd :=
  match rowUse f.op with
  | none => some .reservedOpcode
  | some u =>
    if u.d.badZero f.d.toNat || u.a.badZero f.a.toNat || u.b.badZero f.b.toNat || u.e.badZero f.e.toNat
        || u.imm.badZero f.imm.toNat then some .nonzeroField
    else if u.d.badMReg f.d.toNat || u.a.badMReg f.a.toNat || u.b.badMReg f.b.toNat
        || u.e.badMReg f.e.toNat then some .matrixRegister
    else none

/-- The fields are those of a command. -/
abbrev Fields.WellFormed (f : Fields) : Prop := f.illegal = none

end Sys2Proof
end

