-- ==== Sys2Proof/Decode.lean ====
section
/-! DEFINITION. The decoder (spec 30_encoding.md R99), total on all 2^32 words and rejecting by name; the
encoder, written from the same rows of R94; the opcode map itself as match and mask (R94); and the host's
view of the decoder, `decodeTableWord`. -/

namespace Sys2Proof

/-- The fields of a word (R92): `op = w[31:24]`, `d = w[23:20]`, `a = w[19:16]`, `b = w[15:12]`,
`e = w[11:8]`, `imm = w[7:0]`. -/
def Fields.ofWord (w : Word) : Fields :=
  { op := w.extractLsb' 24 8, d := w.extractLsb' 20 4, a := w.extractLsb' 16 4,
    b := w.extractLsb' 12 4, e := w.extractLsb' 8 4, imm := w.extractLsb' 0 8 }

/-- The word with the given fields (R92). -/
def Fields.word (f : Fields) : Word := f.op ++ f.d ++ f.a ++ f.b ++ f.e ++ f.imm

/-- A field as a scalar register number (R93). -/
def xregOf (v : BitVec 4) : XReg := v.toFin

/-- A field as a matrix register number (R93); used on legal fields, 0..3, only (R96). -/
def mregOf (v : BitVec 4) : MReg := Fin.ofNat 4 v.toNat

/-- The immediate as a count (R93). -/
def countOf (v : BitVec 8) : Count := v.toFin

/-- The command that legal fields stand for, by the rows of R94. -/
def Fields.instr (f : Fields) : Except IllegalCmd Instr :=
  if f.op = 0x01 then .ok (.mul (xregOf f.d) (xregOf f.a) (xregOf f.b))
  else if f.op = 0x02 then .ok (.div (xregOf f.d) (xregOf f.a) (xregOf f.b))
  else if f.op = 0x03 then .ok (.sqrt (xregOf f.d) (xregOf f.a))
  else if f.op = 0x04 then .ok (.dot (xregOf f.d) (countOf f.imm))
  else if f.op = 0x10 then .ok (.mmul (mregOf f.d) (mregOf f.a) (mregOf f.b))
  else if f.op = 0x11 then .ok (.mmulat (mregOf f.d) (mregOf f.a) (mregOf f.b))
  else if f.op = 0x12 then .ok (.mmulbt (mregOf f.d) (mregOf f.a) (mregOf f.b))
  else if f.op = 0x18 then .ok (.qr (mregOf f.d) (mregOf f.e) (mregOf f.a) (countOf f.imm))
  else if f.op = 0x19 then .ok (.chol (mregOf f.d) (mregOf f.a))
  else .error .reservedOpcode

/-- The decoder of R99: the command a word selects, or why it selects none. -/
def decode (w : Word) : Except IllegalCmd Instr :=
  match (Fields.ofWord w).illegal with
  | some why => .error why
  | none => (Fields.ofWord w).instr

/-- A scalar register number as a field. -/
def xfield (i : XReg) : BitVec 4 := BitVec.ofNat 4 i.val

/-- A matrix register number as a 4-bit field, its two upper bits 0 (R96). -/
def mfield (k : MReg) : BitVec 4 := BitVec.ofNat 4 k.val

/-- A count as the immediate field. -/
def ifield (n : Count) : BitVec 8 := BitVec.ofNat 8 n.val

/-- The fields of a command, by the rows of R94; for `QR` the register `q` stands in `d`, `m` in `a`, `r` in
`e` (R100). -/
def Instr.fields : Instr → Fields
  | .mul d a b => ⟨0x01, xfield d, xfield a, xfield b, 0, 0⟩
  | .div d a b => ⟨0x02, xfield d, xfield a, xfield b, 0, 0⟩
  | .sqrt d a => ⟨0x03, xfield d, xfield a, 0, 0, 0⟩
  | .dot d n => ⟨0x04, xfield d, 0, 0, 0, ifield n⟩
  | .mmul d a b => ⟨0x10, mfield d, mfield a, mfield b, 0, 0⟩
  | .mmulat d a b => ⟨0x11, mfield d, mfield a, mfield b, 0, 0⟩
  | .mmulbt d a b => ⟨0x12, mfield d, mfield a, mfield b, 0, 0⟩
  | .qr q r m n => ⟨0x18, mfield q, mfield m, 0, mfield r, ifield n⟩
  | .chol d m => ⟨0x19, mfield d, mfield m, 0, 0, 0⟩

/-- The word of a command. -/
def encode (i : Instr) : Word := i.fields.word

/-- One row of the opcode map of R94: its match and its mask. -/
structure OpcodeRow where
  pattern : Word
  mask    : Word
deriving DecidableEq, Repr

/-- A word selects the row for which `(w AND mask) = match` (R94). -/
def OpcodeRow.selects (row : OpcodeRow) (w : Word) : Bool := w &&& row.mask == row.pattern

/-- The match and mask columns of R94, in the table's order. -/
def opcodeMap : List OpcodeRow :=
  [ ⟨0x01000000, 0xFF000FFF⟩, ⟨0x02000000, 0xFF000FFF⟩, ⟨0x03000000, 0xFF00FFFF⟩,
    ⟨0x04000000, 0xFF0FFF00⟩, ⟨0x10000000, 0xFFCCCFFF⟩, ⟨0x11000000, 0xFFCCCFFF⟩,
    ⟨0x12000000, 0xFFCCCFFF⟩, ⟨0x18000000, 0xFFCCFC00⟩, ⟨0x19000000, 0xFFCCFFFF⟩ ]

/-- The place of a command's row in `opcodeMap`. -/
def Instr.rowIndex : Instr → Nat
  | .mul .. => 0
  | .div .. => 1
  | .sqrt .. => 2
  | .dot .. => 3
  | .mmul .. => 4
  | .mmulat .. => 5
  | .mmulbt .. => 6
  | .qr .. => 7
  | .chol .. => 8

/-- What the decoder reads from an instruction of `nbits` bits `w`: a command is one 32-bit word (R91), its
bits above `nbits` are 0. -/
def decodeTableWord (nbits w : Nat) : Option Instr :=
  match decode (BitVec.ofNat 32 (w % 2 ^ nbits)) with
  | .ok i => some i
  | .error _ => none

end Sys2Proof
end

