-- ==== Sys2Proof/Machine/Dot.lean ====
section
/-! DEFINITION. The command `DOT` (spec 41_dot.md R160 to R163). -/

namespace Sys2Proof.Machine

/-- The range check of R162: with `n ≥ 1`, an array leaves `AMEM`. With `n` = 0 there is no check. -/
def State.dotOutOfRange (s : State) (n : Nat) : Bool :=
  decide (1 ≤ n) && (s.dota.leavesAmem n || s.dotb.leavesAmem n)

/-- The result of R163: `dotsum` of the two arrays. -/
def State.dotResult (s : State) (n : Nat) : Word :=
  dotsum s.cfg (s.dotArray s.dota n) (s.dotArray s.dotb n)

/-- `DOT xd, n` (R163). The rejection reports the command word, which is the one word of this command (log
entry 9). -/
def execDot (d : XReg) (n : Count) (s : State) : Host.Outcome State Fault Refusal :=
  if s.dotOutOfRange n.val then .next (s.reject .addrRange (encode (.dot d n)))
  else .next (s.setX d (s.dotResult n.val))

end Sys2Proof.Machine
end

