-- ==== Sys2Proof/Machine/MatMul.lean ====
section
/-! DEFINITION. The multiply commands (spec 42_matrix_multiply.md R170 to R179). -/

namespace Sys2Proof.Machine

/-- The mode of the common function of R179. -/
inductive MulMode where
  /-- `A · B`. -/
  | n
  /-- `Aᵀ · B`. -/
  | at
  /-- `A · Bᵀ`. -/
  | bt
deriving DecidableEq, Repr

/-- `ia`, the inner dimension of the first operand (R179). -/
def MulMode.innerA (mode : MulMode) (A : MatReg) : BitVec 4 :=
  match mode with
  | .n => A.cols
  | .at => A.rows
  | .bt => A.cols

/-- `ib`, the inner dimension of the second operand (R179). -/
def MulMode.innerB (mode : MulMode) (B : MatReg) : BitVec 4 :=
  match mode with
  | .n => B.rows
  | .at => B.rows
  | .bt => B.cols

/-- `R`, the rows of the result (R179). -/
def MulMode.resRows (mode : MulMode) (A : MatReg) : BitVec 4 :=
  match mode with
  | .n => A.rows
  | .at => A.cols
  | .bt => A.rows

/-- `C`, the columns of the result (R179). -/
def MulMode.resCols (mode : MulMode) (B : MatReg) : BitVec 4 :=
  match mode with
  | .n => B.cols
  | .at => B.cols
  | .bt => B.rows

/-- The inner length: the lesser of the two, so that no cell outside a shape is read (R173, R179). -/
def MulMode.inner (mode : MulMode) (A B : MatReg) : Nat :=
  min (mode.innerA A).toNat (mode.innerB B).toNat

/-- `[U(r,k) for k in 0..n-1]` of R179. -/
def MulMode.left (mode : MulMode) (A : MatReg) (r n : Nat) : List Word :=
  match mode with
  | .n => Cells.rowCells A.data r n
  | .at => Cells.colCells A.data r n
  | .bt => Cells.rowCells A.data r n

/-- `[V(k,c) for k in 0..n-1]` of R179. -/
def MulMode.right (mode : MulMode) (B : MatReg) (c n : Nat) : List Word :=
  match mode with
  | .n => Cells.colCells B.data c n
  | .at => Cells.colCells B.data c n
  | .bt => Cells.rowCells B.data c n

/-- The cell `(r, c)` of the product: one `dotsum` (R179). -/
def MulMode.productCell (mode : MulMode) (cfg : Cfg) (A B : MatReg) (r c : Nat) : Word :=
  dotsum cfg (mode.left A r (mode.inner A B)) (mode.right B c (mode.inner A B))

/-- The flags of the product (R172, R179): those of the sources, `DIMERR` when the inner dimensions differ, and
what `chk` raises on every cell of the result. -/
def MulMode.productErrors (mode : MulMode) (cfg : Cfg) (A B : MatReg) : Errors :=
  A.errors ||| B.errors ||| Errors.raiseIf (mode.innerA A != mode.innerB B) Errors.dimerr
    ||| chkAll ((List.range (mode.resRows A).toNat).flatMap fun r =>
          (List.range (mode.resCols B).toNat).map fun c => mode.productCell cfg A B r c)

/-- The record the destination `D` becomes (R175, R179). -/
def MulMode.product (mode : MulMode) (cfg : Cfg) (A B D : MatReg) : MatReg :=
  D.store (mode.resRows A) (mode.resCols B) (mode.productErrors cfg A B) (mode.productCell cfg A B)

/-- `matmul(mode, d, a, b)` of R179, from the records the sources hold before the command (R174). -/
def State.matmul (s : State) (mode : MulMode) (d a b : MReg) : State :=
  s.setMat d (mode.product s.cfg (s.mat a) (s.mat b) (s.mat d))

/-- `MMUL md, ma, mb` (R176). -/
def execMmul (d a b : MReg) (s : State) : Host.Outcome State Fault Refusal :=
  .next (s.matmul .n d a b)

/-- `MMULAT md, ma, mb` (R177). -/
def execMmulat (d a b : MReg) (s : State) : Host.Outcome State Fault Refusal :=
  .next (s.matmul .at d a b)

/-- `MMULBT md, ma, mb` (R178). -/
def execMmulbt (d a b : MReg) (s : State) : Host.Outcome State Fault Refusal :=
  .next (s.matmul .bt d a b)

end Sys2Proof.Machine
end

