-- ==== Sys2Proof/Machine/Qr.lean ====
section
/-! DEFINITION. The command `QR` (spec 43_qr.md R190 to R198), by the loops of R197 over working copies of `Q`
and `R` and a running flag set `E`. The working copies are values inside the step, not state (10_state.md R38;
log entry 13). -/

namespace Sys2Proof.Machine

/-- The working storage of R197: `Q`, `R` and `E`. -/
structure QrWork where
  q : Cells
  r : Cells
  e : Errors
deriving DecidableEq, Repr

/-- The initialisation of R192: `Q` a copy of the source, `R` zero, `E` the source's flags. -/
def QrWork.init (S : MatReg) : QrWork :=
  { q := S.data, r := Vector.replicate 64 0, e := S.errors }

/-- The inner loop of step (a) (R193) for one `k`: `Q[k][j]` minus `d · Q[k][i]`. -/
def QrWork.subtract (cfg : Cfg) (d : Word) (i j : Nat) (w : QrWork) (k : Nat) : QrWork :=
  let p := mul cfg d (w.q.cell k i)
  let v := subOverflow cfg (w.q.cell k j) p
  { q := w.q.setCell k j v, r := w.r, e := w.e ||| chk p ||| chk v }

/-- Step (a) (R193) on the columns `j` and `i`, with `n` rows. -/
def QrWork.project (cfg : Cfg) (n j : Nat) (w : QrWork) (i : Nat) : QrWork :=
  let d := dotsum cfg (w.q.colCells j n) (w.q.colCells i n)
  let w1 := (List.range n).foldl (QrWork.subtract cfg d i j) { w with e := w.e ||| chk d }
  let v := addOverflow cfg (w1.r.cell i j) d
  { q := w1.q, r := w1.r.setCell i j v, e := w1.e ||| chk v }

/-- One pass of step (a): every earlier column `i < j`, ascending (R193). -/
def QrWork.pass (cfg : Cfg) (n j : Nat) (w : QrWork) : QrWork :=
  (List.range j).foldl (QrWork.project cfg n j) w

/-- What the scaling guard gives: the column and the norm in one scale, the norm in the original scale, and the
flags raised (R194). -/
structure QrNorm where
  colp : List Word
  nrm  : Word
  rjj  : Word
  e    : Errors
deriving DecidableEq, Repr

/-- Steps (b) and (c) on a column (R194). The first `dotsum` is not passed through `chk`. -/
def qrNorm (cfg : Cfg) (col : List Word) : QrNorm :=
  let d0 := dotsum cfg col col
  if d0 = OVF then
    let colp := col.map fun v => div cfg v K256
    let d1 := dotsum cfg colp colp
    let nrm := sqrt cfg d1
    let rjj := mul cfg nrm K256
    { colp := colp, nrm := nrm, rjj := rjj, e := chkAll colp ||| chk d1 ||| chk nrm ||| chk rjj }
  else
    let nrm0 := sqrt cfg d0
    if -256 < s32 nrm0 ∧ s32 nrm0 < 256 then
      let colp := col.map fun v => mul cfg v K256
      let d1 := dotsum cfg colp colp
      let nrm := sqrt cfg d1
      let rjj := div cfg nrm K256
      { colp := colp, nrm := nrm, rjj := rjj,
        e := chk nrm0 ||| chkAll colp ||| chk d1 ||| chk nrm ||| chk rjj }
    else { colp := col, nrm := nrm0, rjj := nrm0, e := chk nrm0 }

/-- The test of step (d) (R195): the norm in the original scale is below 5 raw units in magnitude. -/
def qrSingular (rjj : Word) : Bool := decide (-5 < s32 rjj) && decide (s32 rjj < 5)

/-- Step (e) (R196) for one row `k`: the entry `v` of the column divided by its norm. -/
def QrWork.divide (cfg : Cfg) (nrm : Word) (j : Nat) (w : QrWork) (entry : Nat × Word) : QrWork :=
  let v := div cfg entry.2 nrm
  { q := w.q.setCell entry.1 j v, r := w.r, e := w.e ||| chk v }

/-- Steps (b) to (e) for column `j` (R194 to R196). -/
def QrWork.normalise (cfg : Cfg) (n j : Nat) (w : QrWork) : QrWork :=
  let g := qrNorm cfg (w.q.colCells j n)
  let w1 : QrWork := { q := w.q, r := w.r.setCell j j g.rjj, e := w.e ||| g.e }
  if qrSingular g.rjj then { w1 with e := w1.e ||| Errors.singular }
  else ((List.range n).zip g.colp).foldl (QrWork.divide cfg g.nrm j) w1

/-- The body of the loop over the columns (R197): `reorth + 1` passes of step (a), then steps (b) to (e). -/
def QrWork.column (cfg : Cfg) (n reorth : Nat) (w : QrWork) (j : Nat) : QrWork :=
  ((List.range (reorth + 1)).foldl (fun w1 _ => w1.pass cfg n j) w).normalise cfg n j

/-- The whole factorisation of a source record (R197). -/
def qrFactor (cfg : Cfg) (S : MatReg) (reorth : Nat) : QrWork :=
  (List.range S.cols.toNat).foldl (QrWork.column cfg S.rows.toNat reorth) (QrWork.init S)

/-- The record of `M[q]` after the command: shape of the source (R197). -/
def qrStoreQ (D S : MatReg) (w : QrWork) : MatReg := D.store S.rows S.cols w.e w.q.cell

/-- The record of `M[r]` after the command: square of order `S.cols` (R197). -/
def qrStoreR (D S : MatReg) (w : QrWork) : MatReg := D.store S.cols S.cols w.e w.r.cell

/-- `q = r` (R191): the only effect is on the flags. -/
def State.qrUseErr (s : State) (q m : MReg) : State :=
  s.setMat q { s.mat q with errors := (s.mat q).errors ||| (s.mat m).errors ||| Errors.useerr }

/-- `q ≠ r` (R197): factor the source as it was, then write `M[q]` and `M[r]`. -/
def State.qrRun (s : State) (q r m : MReg) (reorth : Nat) : State :=
  let w := qrFactor s.cfg (s.mat m) reorth
  (s.setMat q (qrStoreQ (s.mat q) (s.mat m) w)).setMat r (qrStoreR (s.mat r) (s.mat m) w)

/-- `QR mq, mr, mm, reorth` (R197). -/
def execQr (q r m : MReg) (reorth : Count) (s : State) : Host.Outcome State Fault Refusal :=
  if q = r then .next (s.qrUseErr q m) else .next (s.qrRun q r m reorth.val)

end Sys2Proof.Machine
end

