-- ==== Sys2Proof/Machine/Scalar.lean ====
section
/-! DEFINITION. The scalar commands (spec 40_scalar.md R133 to R136). They read `x` and `CFG`, write `x[d]` only,
and raise no flag and no rejection: failure is the word `0x8000_0000` in `x[d]` (R128). -/

namespace Sys2Proof.Machine

/-- `MUL xd, xa, xb` (R134). -/
def execMul (d a b : XReg) (s : State) : Host.Outcome State Fault Refusal :=
  .next (s.setX d (mul s.cfg (s.getX a) (s.getX b)))

/-- `DIV xd, xa, xb` (R135). -/
def execDiv (d a b : XReg) (s : State) : Host.Outcome State Fault Refusal :=
  .next (s.setX d (div s.cfg (s.getX a) (s.getX b)))

/-- `SQRT xd, xa` (R136). -/
def execSqrt (d a : XReg) (s : State) : Host.Outcome State Fault Refusal :=
  .next (s.setX d (sqrt s.cfg (s.getX a)))

end Sys2Proof.Machine
end

