-- ==== Sys2Proof/Machine/Dispatch.lean ====
section
/-! DEFINITION. The execution of a decoded command: one arm for each row of the opcode map (spec 30_encoding.md
R94). -/

namespace Sys2Proof.Machine

def exec (i : Instr) (s : State) : Host.Outcome State Fault Refusal :=
  match i with
  | .mul d a b => Sys2Proof.Machine.execMul d a b s
  | .div d a b => Sys2Proof.Machine.execDiv d a b s
  | .sqrt d a => Sys2Proof.Machine.execSqrt d a s
  | .dot d n => Sys2Proof.Machine.execDot d n s
  | .mmul d a b => Sys2Proof.Machine.execMmul d a b s
  | .mmulat d a b => Sys2Proof.Machine.execMmulat d a b s
  | .mmulbt d a b => Sys2Proof.Machine.execMmulbt d a b s
  | .qr q r m reorth => Sys2Proof.Machine.execQr q r m reorth s
  | .chol d m => Sys2Proof.Machine.execChol d m s

end Sys2Proof.Machine
end

