-- ==== Sys2Proof/Machine/Port.lean ====
section
/-! DEFINITION. The host port (spec 20_memory.md R60 to R67): the address map, the value of a read, the effect of
a write, and the input that is taken next. Issuing a command is in Step.lean, which calls the decoder and
`exec`. -/

namespace Sys2Proof.Machine

/-- The locations of the address map (R61). -/
inductive Loc where
  | x (i : XReg)
  | cmd
  | status
  | cfg
  | id
  | errinfo
  | dota
  | dotb
  | rows (k : MReg)
  | cols (k : MReg)
  | errors (k : MReg)
  | cell (k : MReg) (r c : Fin 8)
  | amem (i : Fin 1024)
  | reserved
deriving DecidableEq, Repr

/-- The location inside the window of matrix register `k` at offset `off` (R61). -/
def locateMat (k : MReg) (off : Nat) : Loc :=
  if off = 0 then .rows k
  else if off = 1 then .cols k
  else if off = 2 then .errors k
  else if off < 0x40 then .reserved
  else .cell k (Fin.ofNat 8 ((off - 0x40) / 8)) (Fin.ofNat 8 ((off - 0x40) % 8))

/-- The location at a word index: the table of R61, total, everything not listed reserved. -/
def locate (a : Index) : Loc :=
  let n := a.toNat
  if n < 0x010 then .x (Fin.ofNat 16 n)
  else if n = 0x010 then .cmd
  else if n = 0x011 then .status
  else if n = 0x012 then .cfg
  else if n = 0x013 then .id
  else if n = 0x014 then .errinfo
  else if n = 0x015 then .dota
  else if n = 0x016 then .dotb
  else if n < 0x200 then .reserved
  else if n < 0x400 then locateMat (Fin.ofNat 4 ((n - 0x200) / 0x80)) ((n - 0x200) % 0x80)
  else if n < 0x800 then .amem (Fin.ofNat 1024 (n - 0x400))
  else .reserved

/-- The word index of a location (R61); for `reserved`, which has many, the first. -/
def Loc.index : Loc → Index
  | .x i => BitVec.ofNat 12 i.val
  | .cmd => 0x010
  | .status => 0x011
  | .cfg => 0x012
  | .id => 0x013
  | .errinfo => 0x014
  | .dota => 0x015
  | .dotb => 0x016
  | .rows k => BitVec.ofNat 12 (0x200 + 0x80 * k.val)
  | .cols k => BitVec.ofNat 12 (0x201 + 0x80 * k.val)
  | .errors k => BitVec.ofNat 12 (0x202 + 0x80 * k.val)
  | .cell k r c => BitVec.ofNat 12 (0x240 + 0x80 * k.val + 8 * r.val + c.val)
  | .amem i => BitVec.ofNat 12 (0x400 + i.val)
  | .reserved => 0x017

/-- `zext(CAUSE) << 4 | zext(ERR)` (R62, 10_state.md R31). -/
def Status.word (t : Status) : Word := (t.cause.zeroExtend 32 <<< 4) ||| (BitVec.ofBool t.err).zeroExtend 32

/-- `zext(OVF) << 1 | zext(ROUND)` (R62, 10_state.md R32). -/
def Cfg.word (c : Cfg) : Word :=
  ((BitVec.ofBool c.ovf).zeroExtend 32 <<< 1) ||| (BitVec.ofBool c.round).zeroExtend 32

/-- `zext(STRIDE) << 16 | zext(BASE)` (R62, 10_state.md R35). -/
def DotDesc.word (d : DotDesc) : Word := (d.stride.zeroExtend 32 <<< 16) ||| d.base.zeroExtend 32

/-- What a write to `CFG` stores: bits 1:0 (R63). -/
def Cfg.ofWord (v : Word) : Cfg := { round := v.getLsbD 0, ovf := v.getLsbD 1 }

/-- What a write to `DOTA` or `DOTB` stores: bits 9:0 and 25:16 (R63). -/
def DotDesc.ofWord (v : Word) : DotDesc := { base := v.extractLsb' 0 10, stride := v.extractLsb' 16 10 }

/-- The value test of `ROWS` and `COLS`: the whole word is in 1..8 (R63, 60_exceptions.md R227). -/
def legalDim (v : Word) : Bool := decide (1 ≤ u32 v) && decide (u32 v ≤ 8)

/-- The `ERRINFO` of a rejected access (60_exceptions.md R221): bit 31 = 1 for a write, bits 11:0 the index. -/
def accessInfo (isWrite : Bool) (a : Index) : Word :=
  (if isWrite then 0x80000000#32 else 0#32) ||| a.zeroExtend 32

/-- The word a `HostRead(a)` returns (R62). -/
def State.portWord (s : State) (a : Index) : Word :=
  match locate a with
  | .x i => s.getX i
  | .cmd => 0
  | .status => s.status.word
  | .cfg => s.cfg.word
  | .id => Config.idWord
  | .errinfo => s.errinfo
  | .dota => s.dota.word
  | .dotb => s.dotb.word
  | .rows k => (s.mat k).rows.zeroExtend 32
  | .cols k => (s.mat k).cols.zeroExtend 32
  | .errors k => (s.mat k).errors.zeroExtend 32
  | .cell k r c => (s.mat k).cell r.val c.val
  | .amem i => s.amemWord i.val
  | .reserved => 0

/-- `HostRead(a)` (R62): the word is returned, and nothing changes but for a reserved index, where the access is
rejected. -/
def State.hostRead (s : State) (a : Index) : State :=
  let s1 : State := { s with response := some (s.portWord a) }
  match locate a with
  | .reserved => s1.reject .badAddr (accessInfo false a)
  | _ => s1

/-- `HostWrite(a, v)` at every index but `CMD` (R63). -/
def State.portWrite (s : State) (a : Index) (v : Word) : State :=
  match locate a with
  | .x i => s.setX i v
  | .cmd => s
  | .status => if v.getLsbD 0 then s.acknowledge else s
  | .cfg => { s with cfg := Cfg.ofWord v }
  | .id => s.reject .badAddr (accessInfo true a)
  | .errinfo => s.reject .badAddr (accessInfo true a)
  | .dota => { s with dota := DotDesc.ofWord v }
  | .dotb => { s with dotb := DotDesc.ofWord v }
  | .rows k =>
    if legalDim v then s.setMat k { s.mat k with rows := v.extractLsb' 0 4 }
    else s.reject .badValue (accessInfo true a)
  | .cols k =>
    if legalDim v then s.setMat k { s.mat k with cols := v.extractLsb' 0 4 }
    else s.reject .badValue (accessInfo true a)
  | .errors k => s.setMat k { s.mat k with errors := v.extractLsb' 0 5 }
  | .cell k r c => s.setMat k { s.mat k with data := Cells.setCell (s.mat k).data r.val c.val v }
  | .amem i => s.writeAmem i.val v
  | .reserved => s.reject .badAddr (accessInfo true a)

/-- The command word a transaction issues (10_state.md R30): the data of a write to `CMD`. This is FXM16's
fetch: a command word is the data of the write that issues it (R72). -/
def HostInput.command : HostInput → Option Word
  | .write a v => if locate a = .cmd then some v else none
  | .read _ => none
  | .reset => none

/-- The state in which the next input is carried out: that input is taken, and nothing is returned yet. -/
def State.takeInput (s : State) : State := { s with pending := s.pending.tail, response := none }

/-- The effect of an input that issues no command. -/
def State.plainInput (s : State) : HostInput → State
  | .write a v => s.portWrite a v
  | .read a => s.hostRead a
  | .reset => s.assertReset

/-- The rejection of a word that selects no command (30_encoding.md R90, 60_exceptions.md R224). -/
def State.rejectCommand (s : State) (w : Word) : State := s.reject .illegalCmd w

/-- The bits the host's table word stands for, as a command word (log entry 6). -/
def tableWord (nbits w : Nat) : Word := BitVec.ofNat 32 (w % 2 ^ nbits)

/-- The transaction that issues a command word. -/
def issueInput (w : Word) : HostInput := .write 0x010 w

end Sys2Proof.Machine
end

