-- ==== Sys2Proof/Machine/Step.lean ====
section
/-! DEFINITION. One step of FXM16: one transaction of the host, or one reset (spec 20_memory.md R60, R69). With
no transaction the block is idle, its state intact (60_exceptions.md R234). -/

namespace Sys2Proof.Machine

/-- Issuing a command word (30_encoding.md R90): decode it, and carry the command out or reject it. -/
def State.issue (s : State) (w : Word) : Host.Outcome State Fault Refusal :=
  match decode w with
  | .ok i => exec i s
  | .error _ => .next (s.rejectCommand w)

/-- One step. -/
def step (s : State) : Host.Outcome State Fault Refusal :=
  match s.pending.head? with
  | none => .next s
  | some input =>
    match input.command with
    | some w => s.takeInput.issue w
    | none => .next (s.takeInput.plainInput input)

/-- The state whose next transaction issues the table word: the host writes it to `CMD` next, and goes on with
its other transactions afterwards (log entry 6). -/
def State.withFetchWord (s : State) (nbits w : Nat) : State :=
  { s with pending := issueInput (tableWord nbits w) :: s.pending }

end Sys2Proof.Machine
end

