-- ==== Sys2Proof/Machine/Assembler.lean ====
section
/-! DEFINITION. The assembler lines and pseudo-instructions of spec 30_encoding.md R100 and R101, as data: each
stands for a fixed sequence of host transactions. Their text is read by AsmText.lean. -/

namespace Sys2Proof.Machine

/-- One line of a program: a transaction or a command (R100), or a pseudo-instruction (R101). An address is any word
index; a name stands for the index that `Loc.index` gives it (20_memory.md R61). -/
inductive AsmLine where
  | wr (a : Index) (v : Word)
  /-- The expected word is what a trailing `-> 0x....` states; the transaction does not depend on it. -/
  | rd (a : Index) (expected : Option Word)
  | command (i : Instr)
  | setx (n : XReg) (v : Word)
  | getx (n : XReg)
  | clrerr
  | cfg (round ovf : Word)
  | shape (k : MReg) (r c : Word)
  | dotdesc (ab as bb bs : Word)
  | msq (d a : MReg)
deriving DecidableEq, Repr

/-- The transactions of a line (R100, R101). R101 gives the operands of `cfg` and `dotdesc` no range and R9's integers
have no width; that they are words here, and that their shifts drop the bits that pass bit 31 (an `ovf` of 2^31 or
more, a stride of 2^16 or more), is the model's choice (DESIGN CHOICE, log entry 11). -/
def AsmLine.expand : AsmLine → List HostInput
  | .wr a v => [.write a v]
  | .rd a _ => [.read a]
  | .command i => [.write Loc.cmd.index (encode i)]
  | .setx n v => [.write (Loc.x n).index v]
  | .getx n => [.read (Loc.x n).index]
  | .clrerr => [.write Loc.status.index 0x00000001]
  | .cfg round ovf => [.write Loc.cfg.index ((ovf <<< 1) ||| round)]
  | .shape k r c =>
    [.write (Loc.rows k).index r, .write (Loc.cols k).index c, .write (Loc.errors k).index 0]
  | .dotdesc ab as bb bs =>
    [.write Loc.dota.index ((as <<< 16) ||| ab), .write Loc.dotb.index ((bs <<< 16) ||| bb)]
  | .msq d a => [.write Loc.cmd.index (encode (.mmul d a a))]

/-- A program of the host: its lines' transactions, one after another (10_state.md R22). -/
def assemble (lines : List AsmLine) : List HostInput := lines.flatMap AsmLine.expand

end Sys2Proof.Machine
end

