-- ==== Sys2Proof/Machine/AsmText.lean ====
section
/-! DEFINITION. The text of the assembler lines of spec 30_encoding.md R100 and R101, read character by character.
Where spaces may stand, and that letters are as R100 writes them, is the model's choice (log entry 11). -/

namespace Sys2Proof.Machine

/-- The characters of a line or of a part of it. -/
abbrev AsmText := List Char

/-! ### Parts of a line -/

/-- The text without the spaces at its two ends. -/
def AsmText.trim (t : AsmText) : AsmText :=
  ((t.dropWhile Char.isWhitespace).reverse.dropWhile Char.isWhitespace).reverse

/-- The parts of a text between the separators. -/
def AsmText.splitAtEach (sep : Char) : AsmText → List AsmText
  | [] => [[]]
  | c :: rest =>
    match AsmText.splitAtEach sep rest with
    | [] => [[c]]
    | part :: parts => if c = sep then [] :: part :: parts else (c :: part) :: parts

/-- The text before the first comment sign. -/
def AsmText.code (t : AsmText) : AsmText := t.takeWhile (· != ';')

/-! ### Numbers -/

/-- The value of a decimal or hexadecimal digit. -/
def digitValue (c : Char) : Option Nat :=
  if '0' ≤ c ∧ c ≤ '9' then some (c.toNat - '0'.toNat)
  else if 'a' ≤ c ∧ c ≤ 'f' then some (c.toNat - 'a'.toNat + 10)
  else if 'A' ≤ c ∧ c ≤ 'F' then some (c.toNat - 'A'.toNat + 10)
  else none

/-- The number that digits of a base stand for, after the number so far. -/
def digitsValue (base : Nat) : AsmText → Nat → Option Nat
  | [], n => some n
  | c :: rest, n =>
    match digitValue c with
    | some d => if d < base then digitsValue base rest (base * n + d) else none
    | none => none

/-- The number that one or more digits of a base stand for; underscores are spacing only (00_scope.md R9). -/
def digitsNumber (base : Nat) (t : AsmText) : Option Nat :=
  match t.filter (· != '_') with
  | [] => none
  | digits => digitsValue base digits 0

/-- A decimal number or a `0x` number (R100). -/
def AsmText.number (t : AsmText) : Option Nat :=
  match t with
  | '0' :: 'x' :: digits => digitsNumber 16 digits
  | digits => digitsNumber 10 digits

/-- A number below a bound. -/
def AsmText.below (n : Nat) [NeZero n] (t : AsmText) : Option (Fin n) :=
  match t.number with
  | some v => if v < n then some (Fin.ofNat n v) else none
  | none => none

/-- A number as a word. -/
def AsmText.word (t : AsmText) : Option Word := (t.below (2 ^ 32)).map BitVec.ofFin

/-- A scalar register `xN`. -/
def AsmText.xreg : AsmText → Option XReg
  | 'x' :: n => AsmText.below 16 n
  | _ => none

/-- A matrix register `mN`. -/
def AsmText.mreg : AsmText → Option MReg
  | 'm' :: n => AsmText.below 4 n
  | _ => none

/-! ### Addresses -/

/-- A number in brackets below a bound, and the text after it. -/
def AsmText.bracket (n : Nat) [NeZero n] : AsmText → Option (Fin n × AsmText)
  | '[' :: rest =>
    match rest.dropWhile (· != ']') with
    | _ :: after => (AsmText.below n (rest.takeWhile (· != ']'))).map fun i => (i, after)
    | [] => none
  | _ => none

/-- The name of a register that stands alone. -/
def AsmText.controlName (t : AsmText) : Option Loc :=
  if t = "CMD".toList then some .cmd
  else if t = "STATUS".toList then some .status
  else if t = "CFG".toList then some .cfg
  else if t = "ID".toList then some .id
  else if t = "ERRINFO".toList then some .errinfo
  else if t = "DOTA".toList then some .dota
  else if t = "DOTB".toList then some .dotb
  else none

/-- What follows `Mk.` in the name of a part of a matrix register. -/
def AsmText.matName (k : MReg) (t : AsmText) : Option Loc :=
  if t = "ROWS".toList then some (.rows k)
  else if t = "COLS".toList then some (.cols k)
  else if t = "ERRORS".toList then some (.errors k)
  else
    match t with
    | 'D' :: rest =>
      match AsmText.bracket 8 rest with
      | some (r, rest') =>
        match AsmText.bracket 8 rest' with
        | some (c, []) => some (.cell k r c)
        | _ => none
      | none => none
    | _ => none

/-- A name of R100: `X0`..`X15`, `CMD`, `STATUS`, `CFG`, `ID`, `ERRINFO`, `DOTA`, `DOTB`, `Mk.ROWS`, `Mk.COLS`,
`Mk.ERRORS`, `Mk.D[r][c]`, `AMEM[i]`. -/
def AsmText.name (t : AsmText) : Option Loc :=
  match t with
  | 'X' :: n => (AsmText.below 16 n).map .x
  | 'M' :: k :: '.' :: rest =>
    match AsmText.below 4 [k] with
    | some k => AsmText.matName k rest
    | none => none
  | 'A' :: 'M' :: 'E' :: 'M' :: rest =>
    match AsmText.bracket 1024 rest with
    | some (i, []) => some (.amem i)
    | _ => none
  | _ => t.controlName

/-- An address: a name, with its index by 20_memory.md R61, or a word index (R100). -/
def AsmText.addr (t : AsmText) : Option Index :=
  match t.name with
  | some l => some l.index
  | none => (t.below (2 ^ 12)).map BitVec.ofFin

/-! ### Lines -/

section operands
variable {α β γ δ ρ : Type}

/-- One operand. -/
def operands1 (p : AsmText → Option α) (f : α → ρ) : List AsmText → Option ρ
  | [a] => (p a).map f
  | _ => none

/-- Two operands. -/
def operands2 (p : AsmText → Option α) (q : AsmText → Option β) (f : α → β → ρ) : List AsmText → Option ρ
  | a :: rest => (p a).bind fun x => operands1 q (f x) rest
  | _ => none

/-- Three operands. -/
def operands3 (p : AsmText → Option α) (q : AsmText → Option β) (r : AsmText → Option γ) (f : α → β → γ → ρ) :
    List AsmText → Option ρ
  | a :: rest => (p a).bind fun x => operands2 q r (f x) rest
  | _ => none

/-- Four operands. -/
def operands4 (p : AsmText → Option α) (q : AsmText → Option β) (r : AsmText → Option γ) (u : AsmText → Option δ)
    (f : α → β → γ → δ → ρ) : List AsmText → Option ρ
  | a :: rest => (p a).bind fun x => operands3 q r u (f x) rest
  | _ => none
end operands

/-- The operand of `rd`: an address, and after `->` the expected word. -/
def AsmText.read (t : AsmText) : Option AsmLine :=
  match t.dropWhile (· != '-') with
  | [] => t.addr.map fun a => .rd a none
  | '-' :: '>' :: w =>
    (AsmText.addr (AsmText.trim (t.takeWhile (· != '-')))).bind fun a =>
      (AsmText.word (AsmText.trim w)).map fun v => .rd a (some v)
  | _ => none

/-- A line by its first word and the text after it (R100, R101). -/
def asmLine (op rest : AsmText) : Option AsmLine :=
  let ops : List AsmText := (AsmText.splitAtEach ',' rest).map AsmText.trim
  if op = "wr".toList then operands2 AsmText.addr AsmText.word .wr ops
  else if op = "rd".toList then AsmText.read rest
  else if op = "mul".toList then
    operands3 AsmText.xreg AsmText.xreg AsmText.xreg (fun d a b => .command (.mul d a b)) ops
  else if op = "div".toList then
    operands3 AsmText.xreg AsmText.xreg AsmText.xreg (fun d a b => .command (.div d a b)) ops
  else if op = "sqrt".toList then operands2 AsmText.xreg AsmText.xreg (fun d a => .command (.sqrt d a)) ops
  else if op = "dot".toList then
    operands2 AsmText.xreg (AsmText.below 256) (fun d n => .command (.dot d n)) ops
  else if op = "mmul".toList then
    operands3 AsmText.mreg AsmText.mreg AsmText.mreg (fun d a b => .command (.mmul d a b)) ops
  else if op = "mmulat".toList then
    operands3 AsmText.mreg AsmText.mreg AsmText.mreg (fun d a b => .command (.mmulat d a b)) ops
  else if op = "mmulbt".toList then
    operands3 AsmText.mreg AsmText.mreg AsmText.mreg (fun d a b => .command (.mmulbt d a b)) ops
  else if op = "qr".toList then
    operands4 AsmText.mreg AsmText.mreg AsmText.mreg (AsmText.below 256)
      (fun q r m n => .command (.qr q r m n)) ops
  else if op = "chol".toList then operands2 AsmText.mreg AsmText.mreg (fun d m => .command (.chol d m)) ops
  else if op = "setx".toList then operands2 AsmText.xreg AsmText.word .setx ops
  else if op = "getx".toList then operands1 AsmText.xreg .getx ops
  else if op = "clrerr".toList then (if rest = [] then some .clrerr else none)
  else if op = "cfg".toList then operands2 AsmText.word AsmText.word .cfg ops
  else if op = "shape".toList then operands3 AsmText.mreg AsmText.word AsmText.word .shape ops
  else if op = "dotdesc".toList then
    operands4 AsmText.word AsmText.word AsmText.word AsmText.word .dotdesc ops
  else if op = "msq".toList then operands2 AsmText.mreg AsmText.mreg .msq ops
  else none

/-- A line of text: nothing where it holds no code, `none` where it is not a line of R100 or R101. -/
def AsmText.line (t : AsmText) : Option (List AsmLine) :=
  match AsmText.trim t.code with
  | [] => some []
  | c :: rest =>
    (asmLine ((c :: rest).takeWhile fun x => !x.isWhitespace)
      (AsmText.trim ((c :: rest).dropWhile fun x => !x.isWhitespace))).map fun l => [l]

/-- The lines of several lines of text, in order. -/
def asmLines : List AsmText → Option (List AsmLine)
  | [] => some []
  | t :: rest => t.line.bind fun l => (asmLines rest).map (l ++ ·)

/-- The transactions of a program text (R100, R101). -/
def assembleText (program : String) : Option (List HostInput) :=
  (asmLines (AsmText.splitAtEach '\n' program.toList)).map assemble

end Sys2Proof.Machine
end

