-- ==== Sys2Proof/Safety.lean ====
section
/-! DEFINITION. The terms that claims about FXM16 use: the invariant of the state, the frames of the commands, and
the Gram-Schmidt steps of one column. -/

namespace Sys2Proof

/-! ### The matrix registers of a command -/

/-- The matrix registers a command writes. -/
def Instr.matDests : Instr → List MReg
  | .mul .. => []
  | .div .. => []
  | .sqrt .. => []
  | .dot .. => []
  | .mmul d _ _ => [d]
  | .mmulat d _ _ => [d]
  | .mmulbt d _ _ => [d]
  | .qr q r _ _ => if q = r then [q] else [q, r]
  | .chol d _ => [d]

/-- The matrix registers a command reads as sources. -/
def Instr.matSources : Instr → List MReg
  | .mul .. => []
  | .div .. => []
  | .sqrt .. => []
  | .dot .. => []
  | .mmul _ a b => [a, b]
  | .mmulat _ a b => [a, b]
  | .mmulbt _ a b => [a, b]
  | .qr _ _ m _ => [m]
  | .chol _ m => [m]

/-! ### The words that are no command -/

/-- The fields of a word that matches no row of the opcode map, as 60_exceptions.md R224 puts it: the opcode is none
of the nine; or a must-be-zero field of the command's row is not zero, or a matrix register field is 4..15. -/
def Fields.MatchNoRow (f : Fields) : Prop :=
  f.op ∉ ([0x01, 0x02, 0x03, 0x04, 0x10, 0x11, 0x12, 0x18, 0x19] : List (BitVec 8)) ∨
  (f.op ∈ ([0x01, 0x02] : List (BitVec 8)) ∧ ¬ (f.e = 0 ∧ f.imm = 0)) ∨
  (f.op = 0x03 ∧ ¬ (f.b = 0 ∧ f.e = 0 ∧ f.imm = 0)) ∨
  (f.op = 0x04 ∧ ¬ (f.a = 0 ∧ f.b = 0 ∧ f.e = 0)) ∨
  (f.op ∈ ([0x10, 0x11, 0x12] : List (BitVec 8)) ∧
    ¬ (f.e = 0 ∧ f.imm = 0 ∧ f.d.toNat ≤ 3 ∧ f.a.toNat ≤ 3 ∧ f.b.toNat ≤ 3)) ∨
  (f.op = 0x18 ∧ ¬ (f.b = 0 ∧ f.d.toNat ≤ 3 ∧ f.a.toNat ≤ 3 ∧ f.e.toNat ≤ 3)) ∨
  (f.op = 0x19 ∧ ¬ (f.b = 0 ∧ f.e = 0 ∧ f.imm = 0 ∧ f.d.toNat ≤ 3 ∧ f.a.toNat ≤ 3))

end Sys2Proof

namespace Sys2Proof.Machine

/-! ### The invariant -/

/-- The shape of a matrix register is legal: `rows` and `cols` are in 1..8 (10_state.md R24). -/
def MatReg.LegalShape (m : MatReg) : Prop :=
  1 ≤ m.rows.toNat ∧ m.rows.toNat ≤ 8 ∧ 1 ≤ m.cols.toNat ∧ m.cols.toNat ≤ 8

/-- The rejection record is consistent: with `ERR` = 0 the cause and `ERRINFO` are 0 (10_state.md R31, R34), with
`ERR` = 1 the cause is one of the four codes that are ever produced (60_exceptions.md R221). -/
def State.LegalRecord (s : State) : Prop :=
  (s.status.err = false → s.status.cause = 0 ∧ s.errinfo = 0) ∧
  (s.status.err = true → 1 ≤ s.status.cause.toNat ∧ s.status.cause.toNat ≤ 4)

/-- What holds of the state at all times: every shape is legal, the array memory is in canonical form, the
rejection record is consistent. -/
def State.Inv (s : State) : Prop :=
  (∀ k, (s.mat k).LegalShape) ∧ Memory.wf s.amem = true ∧ s.LegalRecord

/-! ### Frames -/

/-- `s` and `t` agree on all state but the scalar and the matrix registers, `STATUS` and `ERRINFO`; in
particular on every word of the array memory. -/
def State.SameRest (s t : State) : Prop :=
  t.amem = s.amem ∧ (∀ i, t.amemWord i = s.amemWord i) ∧ t.cfg = s.cfg ∧ t.dota = s.dota ∧ t.dotb = s.dotb ∧
  t.pending = s.pending ∧ t.response = s.response ∧ t.resets = s.resets

/-- Nothing changes from `s` to `t` but `x[d]`. -/
def State.OnlyXChanges (d : XReg) (s t : State) : Prop :=
  State.SameRest s t ∧ t.status = s.status ∧ t.errinfo = s.errinfo ∧ (∀ k, t.mat k = s.mat k) ∧
  ∀ j, j ≠ d → t.getX j = s.getX j

/-- Nothing changes from `s` to `t` but the matrix registers for which `dest` holds. -/
def State.OnlyMatsChange (dest : MReg → Prop) (s t : State) : Prop :=
  State.SameRest s t ∧ t.status = s.status ∧ t.errinfo = s.errinfo ∧ (∀ j, t.getX j = s.getX j) ∧
  ∀ k, ¬ dest k → t.mat k = s.mat k

/-- `t` is `s` after a rejection (60_exceptions.md R222): nothing changes but the record, and that only while
`ERR` was 0. -/
def State.Rejected (cause : Cause) (info : Word) (s t : State) : Prop :=
  State.SameRest s t ∧ (∀ j, t.getX j = s.getX j) ∧ (∀ k, t.mat k = s.mat k) ∧
  (s.status.err = true → t.status = s.status ∧ t.errinfo = s.errinfo) ∧
  (s.status.err = false → t.status = { err := true, cause := cause.code } ∧ t.errinfo = info)

/-- A matrix register from before (`m`) to after (`m'`) a command keeps every cell outside its new shape
(10_state.md R26 (b)). -/
def MatReg.KeepsOutside (m m' : MatReg) : Prop :=
  ∀ r c, ¬ (r < m'.rows.toNat ∧ c < m'.cols.toNat) → m'.cell r c = m.cell r c

/-- Two records look alike to a command: the same shape, the same flags, the same cells in shape. -/
def MatReg.SameInShape (m m' : MatReg) : Prop :=
  m.rows = m'.rows ∧ m.cols = m'.cols ∧ m.errors = m'.errors ∧
  ∀ r c, r < m.rows.toNat → c < m.cols.toNat → m.cell r c = m'.cell r c

/-- A flag set contains another. -/
def Errors.Contains (e f : Errors) : Prop := f ||| e = e

/-- The effect of a multiply command (42_matrix_multiply.md R172, R175, R179): `M[d]` becomes `R × C`, each cell
the rounded exact sum of the products of `u r k` and `v k c` over the lesser inner length; its flags are those of
the two sources, `DIMERR` when the inner lengths `ia` and `ib` differ, `OVERFLOW` when a cell is the sentinel;
nothing else changes. -/
def State.ProductIn (s t : State) (d a b : MReg) (ia ib R C : BitVec 4) (u v : Nat → Nat → Word) : Prop :=
  (t.mat d).rows = R ∧ (t.mat d).cols = C ∧
  (∀ r c, r < R.toNat → c < C.toNat →
    (t.mat d).cell r c =
      narrow s.cfg (((List.range (min ia.toNat ib.toNat)).map fun k => s32 (u r k) * s32 (v k c)).sum)) ∧
  ((∃ r c, r < R.toNat ∧ c < C.toNat ∧ (t.mat d).cell r c = OVF) →
    (t.mat d).errors =
      (s.mat a).errors ||| (s.mat b).errors ||| (if ia = ib then 0 else 0x02) ||| 0x01) ∧
  ((∀ r c, r < R.toNat → c < C.toNat → (t.mat d).cell r c ≠ OVF) →
    (t.mat d).errors = (s.mat a).errors ||| (s.mat b).errors ||| (if ia = ib then 0 else 0x02)) ∧
  MatReg.KeepsOutside (s.mat d) (t.mat d) ∧ State.OnlyMatsChange (· = d) s t

/-! ### The host port -/

/-- The reserved word indices, as 60_exceptions.md R226 lists them. -/
def ReservedIndex (a : Index) : Prop :=
  (0x017 ≤ a.toNat ∧ a.toNat ≤ 0x1FF) ∨ (0x203 ≤ a.toNat ∧ a.toNat ≤ 0x23F) ∨
  (0x283 ≤ a.toNat ∧ a.toNat ≤ 0x2BF) ∨ (0x303 ≤ a.toNat ∧ a.toNat ≤ 0x33F) ∨
  (0x383 ≤ a.toNat ∧ a.toNat ≤ 0x3BF) ∨ (0x800 ≤ a.toNat ∧ a.toNat ≤ 0xFFF)

/-- The indices of the shape fields, as 60_exceptions.md R227 lists them. -/
def ShapeIndex (a : Index) : Prop :=
  a = 0x200 ∨ a = 0x201 ∨ a = 0x280 ∨ a = 0x281 ∨ a = 0x300 ∨ a = 0x301 ∨ a = 0x380 ∨ a = 0x381

/-- What a location that holds data reads as (20_memory.md R62), in numbers. -/
def State.locValue (s : State) : Loc → Word
  | .x i => s.getX i
  | .cmd => 0
  | .status => BitVec.ofNat 32 (16 * s.status.cause.toNat + s.status.err.toNat)
  | .cfg => BitVec.ofNat 32 (2 * s.cfg.ovf.toNat + s.cfg.round.toNat)
  | .id => 0x46580148
  | .errinfo => s.errinfo
  | .dota => BitVec.ofNat 32 (0x10000 * s.dota.stride.toNat + s.dota.base.toNat)
  | .dotb => BitVec.ofNat 32 (0x10000 * s.dotb.stride.toNat + s.dotb.base.toNat)
  | .rows k => BitVec.ofNat 32 (s.mat k).rows.toNat
  | .cols k => BitVec.ofNat 32 (s.mat k).cols.toNat
  | .errors k => BitVec.ofNat 32 (s.mat k).errors.toNat
  | .cell k r c => (s.mat k).cell r.val c.val
  | .amem i => s.amemWord i.val
  | .reserved => 0

/-- The write of `v` at a location stores data: the location is writable, and a shape value is legal
(20_memory.md R63). -/
def Loc.Accepts (l : Loc) (v : Word) : Prop :=
  match l with
  | .x _ => True
  | .cmd => False
  | .status => False
  | .cfg => True
  | .id => False
  | .errinfo => False
  | .dota => True
  | .dotb => True
  | .rows _ => 1 ≤ v.toNat ∧ v.toNat ≤ 8
  | .cols _ => 1 ≤ v.toNat ∧ v.toNat ≤ 8
  | .errors _ => True
  | .cell .. => True
  | .amem _ => True
  | .reserved => False

/-- The bits of a written word that a location stores (20_memory.md R63). -/
def Loc.stored (l : Loc) (v : Word) : Word :=
  match l with
  | .cfg => v &&& 0x00000003
  | .dota => v &&& 0x03FF03FF
  | .dotb => v &&& 0x03FF03FF
  | .errors _ => v &&& 0x0000001F
  | _ => v

/-! ### Rounding, on integers -/

/-- `v` is the integer nearest to `n / d`, and of two the one further from zero (40_scalar.md R120, R124). -/
def NearestAway (v n d : Int) : Prop :=
  2 * |v * d - n| ≤ |d| ∧ (2 * |v * d - n| = |d| → |n| ≤ |v * d|)

/-- `v` is `n / d` rounded toward minus infinity, for a positive `d` (40_scalar.md R120). -/
def FloorOf (v n d : Int) : Prop := v * d ≤ n ∧ n < (v + 1) * d

/-- `v` is `n / d` truncated toward zero (40_scalar.md R124). -/
def TruncOf (v n d : Int) : Prop := |v * d| ≤ |n| ∧ |n| < |v * d| + |d| ∧ 0 ≤ v * d * n

/-! ### Gram-Schmidt, one column at a time -/

/-- Step (a) of 43_qr.md R193 on a column `v` against the columns `qs`, with the sums `rs` so far: the column
and the sums after one pass. -/
def gsPass (cfg : Cfg) : List (List Word) → List Word → List Word → List Word × List Word
  | q :: qs, r :: rs, v =>
    let d := dotsum cfg v q
    let rest := gsPass cfg qs rs (List.zipWith (subOverflow cfg) v (q.map (mul cfg d)))
    (rest.1, addOverflow cfg r d :: rest.2)
  | _, _, v => (v, [])

/-- A number of passes of step (a). -/
def gsPasses (cfg : Cfg) (qs : List (List Word)) : Nat → List Word → List Word → List Word × List Word
  | 0, rs, v => (v, rs)
  | n + 1, rs, v => gsPasses cfg qs n (gsPass cfg qs rs v).2 (gsPass cfg qs rs v).1

/-- The words that one pass of step (a) passes through `chk` (R193): against each column the dot product, the
products, the differences and the accumulated sum. -/
def gsPassWords (cfg : Cfg) : List (List Word) → List Word → List Word → List Word
  | q :: qs, r :: rs, v =>
    let d := dotsum cfg v q
    let products := q.map (mul cfg d)
    let differences := List.zipWith (subOverflow cfg) v products
    (d :: products) ++ differences ++ (addOverflow cfg r d :: gsPassWords cfg qs rs differences)
  | _, _, _ => []

/-- The words that a number of passes of step (a) passes through `chk`. -/
def gsPassesWords (cfg : Cfg) (qs : List (List Word)) : Nat → List Word → List Word → List Word
  | 0, _, _ => []
  | n + 1, rs, v =>
    gsPassWords cfg qs rs v ++ gsPassesWords cfg qs n (gsPass cfg qs rs v).2 (gsPass cfg qs rs v).1

/-- The column `v` needs the scaling up of R194: its root, of a sum of squares that is not the sentinel, is below
256 raw units in magnitude. -/
def ScaledUp (cfg : Cfg) (v : List Word) : Prop :=
  dotsum cfg v v ≠ 0x80000000 ∧ -256 < s32 (sqrt cfg (dotsum cfg v v)) ∧ s32 (sqrt cfg (dotsum cfg v v)) < 256

/-- The three cases of the scaling guard as 43_qr.md R194 writes them, with `K256` = 0x01000000: from the column
`v` the column `colp` and its norm `nrm` in one scale, and the norm `rjj` in the scale of `v`. -/
def GuardGives (cfg : Cfg) (v colp : List Word) (nrm rjj : Word) : Prop :=
  (dotsum cfg v v = 0x80000000 →
    colp = v.map (fun u => div cfg u 0x01000000) ∧ nrm = sqrt cfg (dotsum cfg colp colp) ∧
      rjj = mul cfg nrm 0x01000000) ∧
  (ScaledUp cfg v →
    colp = v.map (fun u => mul cfg u 0x01000000) ∧ nrm = sqrt cfg (dotsum cfg colp colp) ∧
      rjj = div cfg nrm 0x01000000) ∧
  (dotsum cfg v v ≠ 0x80000000 → ¬ ScaledUp cfg v →
    colp = v ∧ nrm = sqrt cfg (dotsum cfg v v) ∧ rjj = nrm)

/-- The word `x` is one that the guard passes through `chk` (R194): never the first sum of squares, its root where
that sum is not the sentinel, and in the scaled cases the scaled column, the recomputed sum, its root and the
norm put back in scale. -/
def GuardChecks (cfg : Cfg) (v colp : List Word) (nrm rjj x : Word) : Prop :=
  (dotsum cfg v v ≠ 0x80000000 ∧ x = sqrt cfg (dotsum cfg v v)) ∨
  ((dotsum cfg v v = 0x80000000 ∨ ScaledUp cfg v) ∧
    (x ∈ colp ∨ x = dotsum cfg colp colp ∨ x = nrm ∨ x = rjj))

end Sys2Proof.Machine
end

