-- ==== Sys2Proof/Certificates/Slice0/Obligations.lean ====
section
/-! DEFINITION. The statements about FXM16 for the provers. Each docstring names the rules of
spec/ it rests on; OBLIGATIONS.json says which statement is a rule's own text and which is derived. -/

open Sys2Proof Sys2Proof.Machine

/-! ### Encoding -/

/-- Decoding the word of a command gives the command back, every operand at every value (30_encoding.md R94, R99).
-/
def Obligations.DecodeOfEncodeIsTheCommand : Prop := ∀ i : Instr, decode (encode i) = .ok i

/-- A word that decodes is the word of the command it decodes to: no bit of a word is dropped (30_encoding.md R95,
R96, R99). -/
def Obligations.EncodeOfDecodedWordIsTheWord : Prop := ∀ w i, decode w = .ok i → encode i = w

/-- The decoder, written on the fields, is the procedure of 30_encoding.md R99 on match and mask: a word decodes to
a command exactly when the command's row selects it, and the command has the fields of the word. -/
def Obligations.DecoderFollowsTheOpcodeMap : Prop :=
  ∀ w : Word,
    (∀ i, decode w = .ok i → i.fields = Fields.ofWord w ∧
      ∃ row, opcodeMap[i.rowIndex]? = some row ∧ row.selects w = true) ∧
    (∀ n row, opcodeMap[n]? = some row → row.selects w = true → ∃ i, decode w = .ok i ∧ i.rowIndex = n)

/-- The worked encodings of 30_encoding.md R104, legal and illegal. -/
def Obligations.WorkedWordsDecodeAsListed : Prop :=
  decode 0x01312000 = .ok (.mul 3 1 2) ∧ decode 0x020F7000 = .ok (.div 0 15 7) ∧
  decode 0x03440000 = .ok (.sqrt 4 4) ∧ decode 0x04500003 = .ok (.dot 5 3) ∧
  decode 0x040000FF = .ok (.dot 0 255) ∧ decode 0x10100000 = .ok (.mmul 1 0 0) ∧
  decode 0x11201000 = .ok (.mmulat 2 0 1) ∧ decode 0x12312000 = .ok (.mmulbt 3 1 2) ∧
  decode 0x18100201 = .ok (.qr 1 2 0 1) ∧ decode 0x19100000 = .ok (.chol 1 0) ∧
  (∀ i, decode 0x01312001 ≠ .ok i) ∧ (∀ i, decode 0x10500000 ≠ .ok i) ∧
  (∀ i, decode 0x00000000 ≠ .ok i) ∧ (∀ i, decode 0x18101201 ≠ .ok i)

/-- The word of every command as 30_encoding.md R100 writes it beside the assembler line, every operand at every
value, and the one transaction that a line of a command is. -/
def Obligations.AssembledWordsAreTheListedOnes : Prop :=
  (∀ d a b : XReg,
    encode (.mul d a b) = 0x01000000 ||| BitVec.ofNat 32 d.val <<< 20 ||| BitVec.ofNat 32 a.val <<< 16 |||
      BitVec.ofNat 32 b.val <<< 12 ∧
    encode (.div d a b) = 0x02000000 ||| BitVec.ofNat 32 d.val <<< 20 ||| BitVec.ofNat 32 a.val <<< 16 |||
      BitVec.ofNat 32 b.val <<< 12 ∧
    encode (.sqrt d a) = 0x03000000 ||| BitVec.ofNat 32 d.val <<< 20 ||| BitVec.ofNat 32 a.val <<< 16) ∧
  (∀ (d : XReg) (n : Count),
    encode (.dot d n) = 0x04000000 ||| BitVec.ofNat 32 d.val <<< 20 ||| BitVec.ofNat 32 n.val) ∧
  (∀ d a b : MReg,
    encode (.mmul d a b) = 0x10000000 ||| BitVec.ofNat 32 d.val <<< 20 ||| BitVec.ofNat 32 a.val <<< 16 |||
      BitVec.ofNat 32 b.val <<< 12 ∧
    encode (.mmulat d a b) = 0x11000000 ||| BitVec.ofNat 32 d.val <<< 20 ||| BitVec.ofNat 32 a.val <<< 16 |||
      BitVec.ofNat 32 b.val <<< 12 ∧
    encode (.mmulbt d a b) = 0x12000000 ||| BitVec.ofNat 32 d.val <<< 20 ||| BitVec.ofNat 32 a.val <<< 16 |||
      BitVec.ofNat 32 b.val <<< 12 ∧
    encode (.chol d a) = 0x19000000 ||| BitVec.ofNat 32 d.val <<< 20 ||| BitVec.ofNat 32 a.val <<< 16) ∧
  (∀ (q r m : MReg) (n : Count),
    encode (.qr q r m n) = 0x18000000 ||| BitVec.ofNat 32 q.val <<< 20 ||| BitVec.ofNat 32 m.val <<< 16 |||
      BitVec.ofNat 32 r.val <<< 8 ||| BitVec.ofNat 32 n.val) ∧
  (∀ i : Instr, assemble [.command i] = [.write 0x010 (encode i)])

/-! ### Steps -/

/-- A write to `CMD` whose word decodes to a command runs that command, in the state without that transaction and
with nothing returned (30_encoding.md R90, 20_memory.md R69; the two fields are the model's, log entries 1 and 2).
-/
def Obligations.StepRunsTheDecodedCommand : Prop :=
  ∀ (s : State) (w : Word) (rest : List HostInput) (i : Instr),
    s.pending = .write 0x010 w :: rest → decode w = .ok i →
    step s = exec i { s with pending := rest, response := none }

/-- A write to `CMD` of a word that matches no row of the opcode map is rejected with `ILLEGAL_CMD` and that word
(60_exceptions.md R224); what matching no row is, in fields and in match and mask; the examples of the rule. -/
def Obligations.UnselectedWordIsIllegalCommand : Prop :=
  (∀ (s : State) (w : Word) (rest : List HostInput),
    s.pending = .write 0x010 w :: rest → (Fields.ofWord w).MatchNoRow →
    ∃ t, step s = .next t ∧
      State.Rejected .illegalCmd w { s with pending := rest, response := none } t) ∧
  (∀ w : Word, (Fields.ofWord w).MatchNoRow ↔ ∀ row ∈ opcodeMap, row.selects w = false) ∧
  (Fields.ofWord 0x01312001).MatchNoRow ∧ (Fields.ofWord 0x10500000).MatchNoRow ∧
  (Fields.ofWord 0x00000000).MatchNoRow ∧ (Fields.ofWord 0xFFFFFFFF).MatchNoRow

/-- Without a transaction the block is idle, its state intact (60_exceptions.md R234). That such a step exists is
the model's choice (log entry 1). -/
def Obligations.IdleStepKeepsTheState : Prop := ∀ s : State, s.pending = [] → step s = .next s

/-- Every step completes, whatever the state, and takes the first transaction (20_memory.md R69, R70,
70_reset_and_hazards.md R261). The list of transactions is the model's own (log entry 1). -/
def Obligations.EveryStepCompletes : Prop :=
  ∀ s : State, ∃ t, step s = .next t ∧ t.pending = s.pending.tail

/-- Every sequence of host inputs is carried out to its end, in as many steps as it has inputs: nothing blocks
(20_memory.md R69, R70). The list of inputs is the model's own (log entry 1). -/
def Obligations.EveryHostSequenceRunsToItsEnd : Prop :=
  ∀ s : State, ∃ t : State, Host.Core.run Sys2Proof.core s.pending.length s = .next t ∧ t.pending = []

/-! ### Scalar commands -/

/-- `MUL` writes the product to `x[d]` and changes nothing else (40_scalar.md R133, R134). -/
def Obligations.MulWritesTheProduct : Prop :=
  ∀ (d a b : XReg) (s : State), ∃ t, exec (.mul d a b) s = .next t ∧
    t.getX d = narrow s.cfg (s32 (s.getX a) * s32 (s.getX b)) ∧ State.OnlyXChanges d s t

/-- `DIV` writes the quotient to `x[d]` and changes nothing else (40_scalar.md R133, R135). -/
def Obligations.DivWritesTheQuotient : Prop :=
  ∀ (d a b : XReg) (s : State), ∃ t, exec (.div d a b) s = .next t ∧
    t.getX d = div s.cfg (s.getX a) (s.getX b) ∧ State.OnlyXChanges d s t

/-- `SQRT` writes the root to `x[d]` and changes nothing else (40_scalar.md R133, R136). -/
def Obligations.SqrtWritesTheRoot : Prop :=
  ∀ (d a : XReg) (s : State), ∃ t, exec (.sqrt d a) s = .next t ∧
    t.getX d = sqrt s.cfg (s.getX a) ∧ State.OnlyXChanges d s t

/-- All failure of the scalar commands is in-band (40_scalar.md R128): overflow, a zero divisor and a negative
radicand give the word 0x80000000 in `x[d]`, and nothing else changes: no flag, no rejection, no `STATUS` bit. -/
def Obligations.ScalarFailuresAreInBand : Prop :=
  ∀ (d a b : XReg) (s : State),
    (∃ t, exec (.mul d a b) s = .next t ∧ State.OnlyXChanges d s t ∧
      (s.cfg.ovf = true → s32 (s.getX a) * s32 (s.getX b) < -2 ^ 47 ∨ 2 ^ 47 ≤ s32 (s.getX a) * s32 (s.getX b) →
        t.getX d = 0x80000000)) ∧
    (∃ t, exec (.div d a b) s = .next t ∧ State.OnlyXChanges d s t ∧
      (s.getX b = 0 → t.getX d = 0x80000000) ∧
      (s.cfg.ovf = true → 2 ^ 31 * |s32 (s.getX b)| ≤ |s32 (s.getX a)| * 2 ^ 16 → t.getX d = 0x80000000)) ∧
    (∃ t, exec (.sqrt d a) s = .next t ∧ State.OnlyXChanges d s t ∧
      (s32 (s.getX a) < 0 → t.getX d = 0x80000000))

/-! ### The numeric functions -/

/-- What `narrow` (40_scalar.md R120) computes. With `CFG.OVF` = 1, the consequences that R121 lists as the spec's
own inference: exact rounding in range (nearest with ties away from zero, or the floor), the sentinel for a product
that rounds up to 2^31, the ends of the range, no wrap of a negative product. With `CFG.OVF` = 0, the low 32 bits of
the rounded integer, for every value (R120, R130). And the document's shift recipe (R121). -/
def Obligations.NarrowRoundsExactly : Prop :=
  ∀ (cfg : Cfg) (p : Int),
    (cfg.ovf = true →
      (-2 ^ 47 ≤ p → p < 2 ^ 47 - 2 ^ 15 →
        (cfg.round = true → NearestAway (s32 (narrow cfg p)) p (2 ^ 16)) ∧
        (cfg.round = false → FloorOf (s32 (narrow cfg p)) p (2 ^ 16))) ∧
      (2 ^ 47 - 2 ^ 15 ≤ p → p < 2 ^ 47 → narrow cfg p = if cfg.round then 0x80000000 else 0x7FFFFFFF) ∧
      (p = -2 ^ 47 → narrow cfg p = 0x80000000) ∧
      (p < -2 ^ 47 ∨ 2 ^ 47 ≤ p → narrow cfg p = 0x80000000) ∧
      (-2 ^ 47 ≤ p → p < 0 → s32 (narrow cfg p) = roundProduct cfg.round p)) ∧
    (cfg.ovf = false → ∃ v : Int, narrow cfg p = BitVec.ofInt 32 v ∧
      (cfg.round = true → NearestAway v p (2 ^ 16)) ∧ (cfg.round = false → FloorOf v p (2 ^ 16))) ∧
    (p < 0 → roundProduct true p = (p - 1 - 2 ^ 15) / 2 ^ 16 + 1) ∧
    (0 ≤ p → roundProduct true p = (p - 2 ^ 15) / 2 ^ 16 + 1)

/-- The laws of `mul` (40_scalar.md R122) that R123 lists as the spec's own inference: it commutes, `ONE` and 0 act
as 1 and 0, and the corner `mul(MIN, MIN)`. -/
def Obligations.MulLaws : Prop :=
  ∀ (cfg : Cfg) (a b : Word),
    mul cfg a b = mul cfg b a ∧ mul cfg a 0x00010000 = a ∧ mul cfg a 0 = 0 ∧
    (cfg.ovf = true → mul cfg 0x80000000 0x80000000 = 0x80000000) ∧
    (cfg.ovf = false → mul cfg 0x80000000 0x80000000 = 0)

/-- Where the exact quotient is below 2^31 in magnitude, `div` is that quotient rounded to nearest with ties away
from zero, or truncated toward zero (40_scalar.md R124, R137, 90_conflicts.md C1 and C2). -/
def Obligations.DivRoundsTheExactQuotient : Prop :=
  ∀ (cfg : Cfg) (a b : Word), s32 b ≠ 0 → |s32 a| * 2 ^ 16 < 2 ^ 31 * |s32 b| →
    (cfg.round = true → NearestAway (s32 (div cfg a b)) (s32 a * 2 ^ 16) (s32 b)) ∧
    (cfg.round = false → TruncOf (s32 (div cfg a b)) (s32 a * 2 ^ 16) (s32 b))

/-- The corner cases of `div` (40_scalar.md R124) that R125 lists as the spec's own inference, with overflow
detection on where the rule says so: a quotient of -2^31 is overflow, division by -1.0 overflows only for `MIN`,
zero operands, equal operands, ties, the largest magnitude, and that testing the exact quotient for overflow is the
same as testing the rounded one. With overflow detection off, for every non-zero divisor, the low 32 bits of the
rounded or truncated quotient (R124, R130). -/
def Obligations.DivCornerCases : Prop :=
  ∀ (rd : Bool) (a b : Word),
    (b ≠ 0 → (div ⟨rd, true⟩ a b = 0x80000000 ↔ 2 ^ 31 * |s32 b| ≤ |s32 a| * 2 ^ 16)) ∧
    (b ≠ 0 → ∃ v : Int, div ⟨rd, false⟩ a b = BitVec.ofInt 32 v ∧
      (rd = true → NearestAway v (s32 a * 2 ^ 16) (s32 b)) ∧
      (rd = false → TruncOf v (s32 a * 2 ^ 16) (s32 b))) ∧
    div ⟨rd, true⟩ 0x80000000 0x00010000 = 0x80000000 ∧
    (div ⟨rd, true⟩ a 0xFFFF0000 = 0x80000000 ↔ a = 0x80000000) ∧
    div ⟨rd, true⟩ 0x80000001 0xFFFF0000 = 0x7FFFFFFF ∧
    (∀ ov, (b ≠ 0 → div ⟨rd, ov⟩ 0 b = 0) ∧ div ⟨rd, ov⟩ a 0 = 0x80000000 ∧
      (a ≠ 0 → div ⟨rd, ov⟩ a a = 0x00010000)) ∧
    div ⟨true, true⟩ 0x00000001 0x00020000 = 0x00000001 ∧
    div ⟨true, true⟩ 0xFFFFFFFF 0x00020000 = 0xFFFFFFFF ∧
    div ⟨false, true⟩ 0x00000001 0x00020000 = 0 ∧ div ⟨false, true⟩ 0xFFFFFFFF 0x00020000 = 0 ∧
    div ⟨rd, true⟩ 0x80000000 0x00000001 = 0x80000000 ∧ div ⟨rd, false⟩ 0x80000000 0x00000001 = 0 ∧
    div ⟨true, true⟩ 0x7FFFFFFF 0x00010001 = 0x7FFF8000 ∧ div ⟨false, true⟩ 0x7FFFFFFF 0x00010001 = 0x7FFF7FFF

/-- `sqrt` (40_scalar.md R126): the sentinel for a negative word; else, with `N` = `A · 2^16`, the integer nearest
to the root of `N` (never a tie) or its floor, never above 0x00B504F3; `CFG.OVF` has no effect. -/
def Obligations.SqrtIsNearestOrFloor : Prop :=
  ∀ (cfg : Cfg) (a : Word),
    (s32 a < 0 → sqrt cfg a = 0x80000000) ∧
    (0 ≤ s32 a →
      0 ≤ s32 (sqrt cfg a) ∧ s32 (sqrt cfg a) ≤ 0x00B504F3 ∧
      (cfg.round = true →
        4 * (s32 a * 2 ^ 16) < (2 * s32 (sqrt cfg a) + 1) ^ 2 ∧
        (0 < s32 (sqrt cfg a) → (2 * s32 (sqrt cfg a) - 1) ^ 2 < 4 * (s32 a * 2 ^ 16))) ∧
      (cfg.round = false →
        s32 (sqrt cfg a) ^ 2 ≤ s32 a * 2 ^ 16 ∧ s32 a * 2 ^ 16 < (s32 (sqrt cfg a) + 1) ^ 2)) ∧
    sqrt ⟨cfg.round, true⟩ a = sqrt ⟨cfg.round, false⟩ a

/-- The digit-by-digit loop that 40_scalar.md R127 gives for reference (the spec's own, from general knowledge)
computes the integer square root that R126 uses, and the remainder. -/
def Obligations.DigitLoopGivesRootAndRemainder : Prop :=
  ∀ N : Nat, N < 2 ^ 47 → digitSqrt N = (isqrt N, N - isqrt N * isqrt N)

/-- `add_overflow` (40_scalar.md R131): the exact sum where it fits, the sentinel where it does not, plain wrap with
detection off; the sum does not fit exactly when the operands have one sign and the wrapped sum the other; and `a +
(−a)` is 0. -/
def Obligations.AddOverflowDetectsBySign : Prop :=
  ∀ (cfg : Cfg) (a b : Word),
    (cfg.ovf = true → -2 ^ 31 ≤ s32 a + s32 b → s32 a + s32 b ≤ 2 ^ 31 - 1 →
      s32 (addOverflow cfg a b) = s32 a + s32 b) ∧
    (cfg.ovf = true → s32 a + s32 b < -2 ^ 31 ∨ 2 ^ 31 - 1 < s32 a + s32 b →
      addOverflow cfg a b = 0x80000000) ∧
    (cfg.ovf = false → addOverflow cfg a b = a + b) ∧
    ((s32 a + s32 b < -2 ^ 31 ∨ 2 ^ 31 - 1 < s32 a + s32 b) ↔
      ((s32 a < 0 ↔ s32 b < 0) ∧ ¬ (s32 a < 0 ↔ s32 (a + b) < 0))) ∧
    (a ≠ 0x80000000 → addOverflow cfg a (-a) = 0)

/-- `sub_overflow` (40_scalar.md R132): with detection on, subtracting `MIN` always gives the sentinel, else the
exact difference where it fits and the sentinel where it does not; with detection off, plain wrap. -/
def Obligations.SubOverflowOfMinAlwaysOverflows : Prop :=
  ∀ (cfg : Cfg) (a b : Word),
    (cfg.ovf = true → subOverflow cfg a 0x80000000 = 0x80000000) ∧
    (cfg.ovf = true → b ≠ 0x80000000 → -2 ^ 31 ≤ s32 a - s32 b → s32 a - s32 b ≤ 2 ^ 31 - 1 →
      s32 (subOverflow cfg a b) = s32 a - s32 b) ∧
    (cfg.ovf = true → s32 a - s32 b < -2 ^ 31 ∨ 2 ^ 31 - 1 < s32 a - s32 b →
      subOverflow cfg a b = 0x80000000) ∧
    (cfg.ovf = false → subOverflow cfg a b = a - b)

/-- `dotsum` is symmetric; with overflow detection on, `dotsum(u, u)` is not negative unless it is the sentinel
(41_dot.md R164; with detection off a wrapped sum may be negative, so the clause says when). -/
def Obligations.DotsumSymmetricAndNonnegative : Prop :=
  ∀ (cfg : Cfg) (u v : List Word),
    dotsum cfg u v = dotsum cfg v u ∧
    (cfg.ovf = true → dotsum cfg u u ≠ 0x80000000 → 0 ≤ s32 (dotsum cfg u u))

/-! ### DOT -/

/-- `DOT` whose two last elements are inside `AMEM`, or with `n` = 0, writes the rounded sum of the products of the
elements at `BASE + i·STRIDE` to `x[d]`, reads inside `AMEM` only, and changes nothing else (41_dot.md R160, R161,
R162, R163). -/
def Obligations.DotSumsTheTwoArrays : Prop :=
  ∀ (d : XReg) (n : Count) (s : State),
    (n.val = 0 ∨ (s.dota.base.toNat + (n.val - 1) * s.dota.stride.toNat ≤ 1023 ∧
      s.dotb.base.toNat + (n.val - 1) * s.dotb.stride.toNat ≤ 1023)) →
    (∃ t, exec (.dot d n) s = .next t ∧
      t.getX d = narrow s.cfg (((List.range n.val).map fun i =>
        s32 (s.amemWord (s.dota.base.toNat + i * s.dota.stride.toNat)) *
          s32 (s.amemWord (s.dotb.base.toNat + i * s.dotb.stride.toNat))).sum) ∧
      State.OnlyXChanges d s t) ∧
    ∀ i, i < n.val → s.dota.base.toNat + i * s.dota.stride.toNat ≤ 1023 ∧
      s.dotb.base.toNat + i * s.dotb.stride.toNat ≤ 1023

/-- A legal `DOT` with `n ≥ 1` and a last element above 1023 is rejected with `ADDR_RANGE` and the command word
(60_exceptions.md R225). -/
def Obligations.DotOutsideArrayMemoryIsRejected : Prop :=
  ∀ (s : State) (w : Word) (rest : List HostInput) (d : XReg) (n : Count),
    s.pending = .write 0x010 w :: rest → decode w = .ok (.dot d n) → 1 ≤ n.val →
    (1023 < s.dota.base.toNat + (n.val - 1) * s.dota.stride.toNat ∨
      1023 < s.dotb.base.toNat + (n.val - 1) * s.dotb.stride.toNat) →
    ∃ t, step s = .next t ∧
      State.Rejected .addrRange w { s with pending := rest, response := none } t

/-! ### The multiply commands -/

/-- `MMUL`: `M[d]` becomes `A · B` (42_matrix_multiply.md R176, R179). -/
def Obligations.MmulIsTheProduct : Prop :=
  ∀ (d a b : MReg) (s : State), (s.mat a).LegalShape → (s.mat b).LegalShape →
    ∃ t, exec (.mmul d a b) s = .next t ∧
      State.ProductIn s t d a b (s.mat a).cols (s.mat b).rows (s.mat a).rows (s.mat b).cols
        (fun r k => (s.mat a).cell r k) (fun k c => (s.mat b).cell k c)

/-- `MMULAT`: `M[d]` becomes `Aᵀ · B` (42_matrix_multiply.md R177, R179). -/
def Obligations.MmulatIsTheTransposedProduct : Prop :=
  ∀ (d a b : MReg) (s : State), (s.mat a).LegalShape → (s.mat b).LegalShape →
    ∃ t, exec (.mmulat d a b) s = .next t ∧
      State.ProductIn s t d a b (s.mat a).rows (s.mat b).rows (s.mat a).cols (s.mat b).cols
        (fun r k => (s.mat a).cell k r) (fun k c => (s.mat b).cell k c)

/-- `MMULBT`: `M[d]` becomes `A · Bᵀ` (42_matrix_multiply.md R178, R179). -/
def Obligations.MmulbtIsTheProductWithTranspose : Prop :=
  ∀ (d a b : MReg) (s : State), (s.mat a).LegalShape → (s.mat b).LegalShape →
    ∃ t, exec (.mmulbt d a b) s = .next t ∧
      State.ProductIn s t d a b (s.mat a).cols (s.mat b).cols (s.mat a).rows (s.mat b).rows
        (fun r k => (s.mat a).cell r k) (fun k c => (s.mat b).cell c k)

/-- The flags of a multiply command are 0 if and only if both inputs' are, the shapes are compatible, and no cell of
the result is the sentinel (42_matrix_multiply.md R181, the spec's own inference from R179). -/
def Obligations.MultiplyErrorsZeroExactlyWhenClean : Prop :=
  ∀ (d a b : MReg) (s t : State), (s.mat a).LegalShape → (s.mat b).LegalShape →
    (exec (.mmul d a b) s = .next t →
      ((t.mat d).errors = 0 ↔ (s.mat a).errors = 0 ∧ (s.mat b).errors = 0 ∧ (s.mat a).cols = (s.mat b).rows ∧
        ∀ r c, r < (t.mat d).rows.toNat → c < (t.mat d).cols.toNat → (t.mat d).cell r c ≠ 0x80000000)) ∧
    (exec (.mmulat d a b) s = .next t →
      ((t.mat d).errors = 0 ↔ (s.mat a).errors = 0 ∧ (s.mat b).errors = 0 ∧ (s.mat a).rows = (s.mat b).rows ∧
        ∀ r c, r < (t.mat d).rows.toNat → c < (t.mat d).cols.toNat → (t.mat d).cell r c ≠ 0x80000000)) ∧
    (exec (.mmulbt d a b) s = .next t →
      ((t.mat d).errors = 0 ↔ (s.mat a).errors = 0 ∧ (s.mat b).errors = 0 ∧ (s.mat a).cols = (s.mat b).cols ∧
        ∀ r c, r < (t.mat d).rows.toNat → c < (t.mat d).cols.toNat → (t.mat d).cell r c ≠ 0x80000000))

/-- `mmulbt md, ma, ma` gives a matrix that is symmetric bit for bit (42_matrix_multiply.md R178). -/
def Obligations.MmulbtOfOneMatrixIsSymmetric : Prop :=
  ∀ (d a : MReg) (s t : State), (s.mat a).LegalShape → exec (.mmulbt d a a) s = .next t →
    ∀ r c, r < (s.mat a).rows.toNat → c < (s.mat a).rows.toNat → (t.mat d).cell r c = (t.mat d).cell c r

/-- The result of a multiply command or of `CHOL` does not depend on whether its destination is one of its sources:
with any two destinations it is the same matrix (42_matrix_multiply.md R174, 44_cholesky.md R213). -/
def Obligations.DestinationMayBeASource : Prop :=
  ∀ (d d' a b : MReg) (s t t' : State),
    (exec (.mmul d a b) s = .next t → exec (.mmul d' a b) s = .next t' →
      MatReg.SameInShape (t.mat d) (t'.mat d')) ∧
    (exec (.mmulat d a b) s = .next t → exec (.mmulat d' a b) s = .next t' →
      MatReg.SameInShape (t.mat d) (t'.mat d')) ∧
    (exec (.mmulbt d a b) s = .next t → exec (.mmulbt d' a b) s = .next t' →
      MatReg.SameInShape (t.mat d) (t'.mat d')) ∧
    (exec (.chol d a) s = .next t → exec (.chol d' a) s = .next t' →
      MatReg.SameInShape (t.mat d) (t'.mat d'))

/-! ### CHOL -/

/-- `CHOL` leaves in `M[d]` a matrix of the order of the leading square block that satisfies the equations of the
factorization: zeros above the diagonal, on it the root of the radicand, or of 0 where the radicand is negative,
below it the quotients; cells outside the new shape and all other state are kept (44_cholesky.md R211, R212, R213;
R212 marks the formula below the diagonal as the spec's own, from general knowledge). -/
def Obligations.CholSatisfiesTheFactorEquations : Prop :=
  ∀ (d m : MReg) (s : State), (s.mat m).LegalShape →
    ∃ t, exec (.chol d m) s = .next t ∧
      (t.mat d).rows.toNat = min (s.mat m).rows.toNat (s.mat m).cols.toNat ∧
      (t.mat d).cols.toNat = min (s.mat m).rows.toNat (s.mat m).cols.toNat ∧
      (∀ i j, i < j → j < (t.mat d).rows.toNat → (t.mat d).cell i j = 0) ∧
      (∀ i, i < (t.mat d).rows.toNat →
        let v := subOverflow s.cfg ((s.mat m).cell i i)
          (dotsum s.cfg ((List.range i).map fun k => (t.mat d).cell i k)
            ((List.range i).map fun k => (t.mat d).cell i k))
        (t.mat d).cell i i = sqrt s.cfg (if s32 v < 0 then 0 else v)) ∧
      (∀ i j, j < i → i < (t.mat d).rows.toNat →
        (t.mat d).cell i j = div s.cfg (subOverflow s.cfg ((s.mat m).cell i j)
          (dotsum s.cfg ((List.range j).map fun k => (t.mat d).cell i k)
            ((List.range j).map fun k => (t.mat d).cell j k))) ((t.mat d).cell j j)) ∧
      MatReg.KeepsOutside (s.mat d) (t.mat d) ∧ State.OnlyMatsChange (· = d) s t

/-- The flags of `CHOL`, bit by bit (44_cholesky.md R211, R212, R213, 60_exceptions.md R230): `OVERFLOW` when a sum,
a difference or a cell of the result is the sentinel, `DIMERR` when the source is not square, `NEGATIVE` when a
radicand is below -65 raw units, each also when the source has it; the other two as the source has them. -/
def Obligations.CholFlagsAreRaisedExactlyByTheirCauses : Prop :=
  ∀ (d m : MReg) (s t : State), (s.mat m).LegalShape → exec (.chol d m) s = .next t →
    let row := fun (i j : Nat) => (List.range j).map fun k => (t.mat d).cell i k
    let sum := fun (i j : Nat) => dotsum s.cfg (row i j) (row j j)
    let dif := fun (i j : Nat) => subOverflow s.cfg ((s.mat m).cell i j) (sum i j)
    ((t.mat d).errors.getLsbD 0 = true ↔ (s.mat m).errors.getLsbD 0 = true ∨
      ∃ i j, j ≤ i ∧ i < (t.mat d).rows.toNat ∧
        (sum i j = 0x80000000 ∨ dif i j = 0x80000000 ∨ (t.mat d).cell i j = 0x80000000)) ∧
    ((t.mat d).errors.getLsbD 1 = true ↔ (s.mat m).errors.getLsbD 1 = true ∨ (s.mat m).rows ≠ (s.mat m).cols) ∧
    ((t.mat d).errors.getLsbD 2 = (s.mat m).errors.getLsbD 2) ∧
    ((t.mat d).errors.getLsbD 3 = (s.mat m).errors.getLsbD 3) ∧
    ((t.mat d).errors.getLsbD 4 = true ↔ (s.mat m).errors.getLsbD 4 = true ∨
      ∃ i, i < (t.mat d).rows.toNat ∧ s32 (dif i i) < -65)

/-- The dimension rule of `CHOL` and the cells it reads (44_cholesky.md R211): a source that is not square raises
`DIMERR` and the leading square block is factored; the destination is square of that order; two sources that agree
on the shape, the flags and the cells on and below the diagonal of the block give the same result. -/
def Obligations.CholReadsTheLowerTriangleOfTheBlock : Prop :=
  ∀ (d m : MReg) (s s' : State), (s.mat m).LegalShape →
    ∃ t, exec (.chol d m) s = .next t ∧
      (t.mat d).rows.toNat = min (s.mat m).rows.toNat (s.mat m).cols.toNat ∧
      (t.mat d).cols.toNat = min (s.mat m).rows.toNat (s.mat m).cols.toNat ∧
      ((s.mat m).rows ≠ (s.mat m).cols → (t.mat d).errors.getLsbD 1 = true) ∧
      (s.cfg = s'.cfg → (s.mat m).rows = (s'.mat m).rows → (s.mat m).cols = (s'.mat m).cols →
        (s.mat m).errors = (s'.mat m).errors →
        (∀ i j, j ≤ i → i < (s.mat m).rows.toNat → i < (s.mat m).cols.toNat →
          (s.mat m).cell i j = (s'.mat m).cell i j) →
        ∃ t', exec (.chol d m) s' = .next t' ∧ MatReg.SameInShape (t.mat d) (t'.mat d))

/-! ### QR -/

/-- Aliasing in `QR` (43_qr.md R191): with `q = r` the only effect is that the flags of `M[q]` become its old flags,
those of `M[m]` and `USEERR`; with `q ≠ r` the results are a function of what `M[m]` held before the command, the
same whether `M[m]` is one of the destinations or not. -/
def Obligations.QrAliasing : Prop :=
  (∀ (q m : MReg) (n : Count) (s : State), ∃ t, exec (.qr q q m n) s = .next t ∧
    (t.mat q).errors = (s.mat q).errors ||| (s.mat m).errors ||| 0x04 ∧
    (t.mat q).rows = (s.mat q).rows ∧ (t.mat q).cols = (s.mat q).cols ∧
    (∀ r c, (t.mat q).cell r c = (s.mat q).cell r c) ∧ State.OnlyMatsChange (· = q) s t) ∧
  (∀ (q r m q' r' m' : MReg) (n : Count) (s s' : State), q ≠ r → q' ≠ r' → s.cfg = s'.cfg →
    s.mat m = s'.mat m' →
    ∃ t t', exec (.qr q r m n) s = .next t ∧ exec (.qr q' r' m' n) s' = .next t' ∧
      MatReg.SameInShape (t.mat q) (t'.mat q') ∧ MatReg.SameInShape (t.mat r) (t'.mat r') ∧
      t.status = s.status ∧ t.errinfo = s.errinfo)

/-- `QR` with `q ≠ r` completes: `M[q]` has the shape of the source, `M[r]` is square of order its columns, both
have the same flags, which contain the source's and add only `OVERFLOW` or `SINGULAR`; other cells and all other
state are kept (43_qr.md R190, R192, R197, 60_exceptions.md R230). -/
def Obligations.QrShapesFlagsAndFrame : Prop :=
  ∀ (q r m : MReg) (n : Count) (s : State), q ≠ r →
    ∃ t, exec (.qr q r m n) s = .next t ∧
      (t.mat q).rows = (s.mat m).rows ∧ (t.mat q).cols = (s.mat m).cols ∧
      (t.mat r).rows = (s.mat m).cols ∧ (t.mat r).cols = (s.mat m).cols ∧
      (t.mat r).errors = (t.mat q).errors ∧
      (t.mat q).errors ||| (s.mat m).errors = (t.mat q).errors ∧
      (t.mat q).errors &&& 0x16 = (s.mat m).errors &&& 0x16 ∧
      MatReg.KeepsOutside (s.mat q) (t.mat q) ∧ MatReg.KeepsOutside (s.mat r) (t.mat r) ∧
      State.OnlyMatsChange (fun k => k = q ∨ k = r) s t

/-- `M[r]` is upper triangular, with zeros below the diagonal (43_qr.md R190). -/
def Obligations.QrLeavesZerosBelowTheDiagonal : Prop :=
  ∀ (q r m : MReg) (n : Count) (s t : State), q ≠ r → (s.mat m).LegalShape →
    exec (.qr q r m n) s = .next t →
    ∀ i j, j < i → i < (t.mat r).rows.toNat → (t.mat r).cell i j = 0

/-- Every column of the results satisfies the steps (a) to (e) of the algorithm (43_qr.md R193 to R197): column `j`
of the source, put through `reorth + 1` passes against the earlier columns of the result, gives column `j` of `R`
above the diagonal; the guard, in its three cases (`GuardGives`), gives a column, its norm and the diagonal cell; and
column `j` of `Q` is that column divided by that norm, or, where the diagonal cell is below 5 raw units in magnitude,
the column as step (a) left it. -/
def Obligations.QrColumnsSatisfyTheSteps : Prop :=
  ∀ (q r m : MReg) (n : Count) (s : State), q ≠ r → (s.mat m).LegalShape →
    ∃ t, exec (.qr q r m n) s = .next t ∧
      ∀ j, j < (s.mat m).cols.toNat →
        let column := fun (a : MatReg) (c : Nat) => (List.range (s.mat m).rows.toNat).map fun k => a.cell k c
        let steps := gsPasses s.cfg ((List.range j).map (column (t.mat q))) (n.val + 1) (List.replicate j 0)
          (column (s.mat m) j)
        (List.range j).map (fun i => (t.mat r).cell i j) = steps.2 ∧
        ∃ colp nrm, GuardGives s.cfg steps.1 colp nrm ((t.mat r).cell j j) ∧
          (-5 < s32 ((t.mat r).cell j j) ∧ s32 ((t.mat r).cell j j) < 5 → column (t.mat q) j = steps.1) ∧
          (¬ (-5 < s32 ((t.mat r).cell j j) ∧ s32 ((t.mat r).cell j j) < 5) →
            column (t.mat q) j = colp.map fun u => div s.cfg u nrm)

/-- `QR` raises `SINGULAR` exactly when a diagonal cell of `R` is below 5 raw units in magnitude (43_qr.md R195),
and `OVERFLOW` when a cell of `R` is the sentinel (42_matrix_multiply.md R171). -/
def Obligations.QrSingularFlagMatchesTheDiagonal : Prop :=
  ∀ (q r m : MReg) (n : Count) (s t : State), q ≠ r → (s.mat m).LegalShape →
    exec (.qr q r m n) s = .next t →
    ((t.mat q).errors.getLsbD 3 = true ↔ (s.mat m).errors.getLsbD 3 = true ∨
      ∃ j, j < (t.mat r).rows.toNat ∧ -5 < s32 ((t.mat r).cell j j) ∧ s32 ((t.mat r).cell j j) < 5) ∧
    ((∃ i j, i ≤ j ∧ j < (t.mat r).rows.toNat ∧ (t.mat r).cell i j = 0x80000000) →
      (t.mat q).errors.getLsbD 0 = true)

/-- The flags of `QR`, bit by bit (43_qr.md R193 to R197, 42_matrix_multiply.md R171, 60_exceptions.md R230), each
also when the source has it: `OVERFLOW` exactly when for some column a word that step (a) checks is the sentinel (a
dot product, a product, a difference, a sum), or one that the guard checks (never the first sum of squares), or a
quotient of step (e); `SINGULAR` exactly when a diagonal cell of `R` is below 5 raw units in magnitude; the other
three as the source has them. -/
def Obligations.QrFlagsAreRaisedExactlyByTheirCauses : Prop :=
  ∀ (q r m : MReg) (n : Count) (s : State), q ≠ r → (s.mat m).LegalShape →
    ∃ t, exec (.qr q r m n) s = .next t ∧ (t.mat r).errors = (t.mat q).errors ∧
      let column := fun (a : MatReg) (c : Nat) => (List.range (s.mat m).rows.toNat).map fun k => a.cell k c
      let earlier := fun (j : Nat) => (List.range j).map (column (t.mat q))
      let after := fun (j : Nat) =>
        (gsPasses s.cfg (earlier j) (n.val + 1) (List.replicate j 0) (column (s.mat m) j)).1
      let small := fun (j : Nat) => -5 < s32 ((t.mat r).cell j j) ∧ s32 ((t.mat r).cell j j) < 5
      ((t.mat q).errors.getLsbD 0 = true ↔ (s.mat m).errors.getLsbD 0 = true ∨
        ∃ j colp nrm, j < (s.mat m).cols.toNat ∧ GuardGives s.cfg (after j) colp nrm ((t.mat r).cell j j) ∧
          (0x80000000 ∈ gsPassesWords s.cfg (earlier j) (n.val + 1) (List.replicate j 0) (column (s.mat m) j) ∨
            GuardChecks s.cfg (after j) colp nrm ((t.mat r).cell j j) 0x80000000 ∨
            (¬ small j ∧ ∃ u ∈ colp, div s.cfg u nrm = 0x80000000))) ∧
      ((t.mat q).errors.getLsbD 1 = (s.mat m).errors.getLsbD 1) ∧
      ((t.mat q).errors.getLsbD 2 = (s.mat m).errors.getLsbD 2) ∧
      ((t.mat q).errors.getLsbD 3 = true ↔ (s.mat m).errors.getLsbD 3 = true ∨
        ∃ j, j < (s.mat m).cols.toNat ∧ small j) ∧
      ((t.mat q).errors.getLsbD 4 = (s.mat m).errors.getLsbD 4)

/-! ### Rules of the whole machine -/

/-- No matrix command reads a cell outside the shape of its source (10_state.md R26 (a)): sources that look alike in
shape give results that look alike (`QR` with `q = r` writes no result and is not meant). -/
def Obligations.CellsOutsideTheShapeAreNotRead : Prop :=
  ∀ (i : Instr) (s s' t t' : State), (∀ q m n, i ≠ .qr q q m n) → s.cfg = s'.cfg →
    (∀ k ∈ i.matSources, (s.mat k).LegalShape ∧ MatReg.SameInShape (s.mat k) (s'.mat k)) →
    exec i s = .next t → exec i s' = .next t' →
    ∀ k ∈ i.matDests, MatReg.SameInShape (t.mat k) (t'.mat k)

/-- Error flags are monotone through commands (10_state.md R29): the flags of every source are flags of every
destination; the old flags of a destination that is no source are not kept, except by a `QR` with `q = r`, which
adds to them. -/
def Obligations.FlagsAreNeverDroppedByACommand : Prop :=
  (∀ (i : Instr) (s t : State), exec i s = .next t →
    ∀ k ∈ i.matDests, ∀ m ∈ i.matSources, Errors.Contains (t.mat k).errors (s.mat m).errors) ∧
  (∀ (i : Instr) (s t t' : State) (k : MReg) (e : Errors), (∀ q m n, i ≠ .qr q q m n) → k ∈ i.matDests →
    k ∉ i.matSources → exec i s = .next t → exec i (s.setMat k { s.mat k with errors := e }) = .next t' →
    (t'.mat k).errors = (t.mat k).errors) ∧
  (∀ (q m : MReg) (n : Count) (s t : State), exec (.qr q q m n) s = .next t →
    Errors.Contains (t.mat q).errors (s.mat q).errors)

/-- What no command touches (40_scalar.md R133, 42_matrix_multiply.md R170, 10_state.md R37): the array memory,
`CFG`, `DOTA`, `DOTB`; the matrix registers that are not its destinations; and, by a matrix command, the scalar
registers and the rejection record. -/
def Obligations.CommandsLeaveTheRestAlone : Prop :=
  ∀ (i : Instr) (s t : State), exec i s = .next t →
    State.SameRest s t ∧ (∀ k, k ∉ i.matDests → t.mat k = s.mat k) ∧
    (i.matDests ≠ [] → (∀ j, t.getX j = s.getX j) ∧ t.status = s.status ∧ t.errinfo = s.errinfo)

/-- No command reads the rejection record: with another `STATUS` and `ERRINFO` its results are the same (10_state.md
R31, 60_exceptions.md R222). -/
def Obligations.CommandsDoNotReadTheRejectionRecord : Prop :=
  ∀ (i : Instr) (s t t' : State) (st : Status) (info : Word),
    exec i s = .next t → exec i { s with status := st, errinfo := info } = .next t' →
    t'.x = t.x ∧ t'.mats = t.mats ∧ t'.amem = t.amem

/-- The first rejection is kept: while `ERR` = 1, only an acknowledgement or a reset changes `STATUS` or `ERRINFO`
(60_exceptions.md R222, 70_reset_and_hazards.md R258). That reset is an input of the step is the model's (log entry
5). -/
def Obligations.FirstRejectionIsKept : Prop :=
  ∀ s t : State, s.status.err = true → step s = .next t →
    (∀ rest, s.pending ≠ .reset :: rest) →
    (∀ v rest, s.pending = .write 0x011 v :: rest → v.getLsbD 0 = false) →
    t.status = s.status ∧ t.errinfo = s.errinfo

/-! ### The host port -/

/-- The address map (20_memory.md R61, 60_exceptions.md R226): every location stands at its index, and every index
that no location has is reserved. -/
def Obligations.AddressMapIsComplete : Prop :=
  (∀ l : Loc, l ≠ .reserved → locate l.index = l) ∧
  (∀ a : Index, ReservedIndex a ↔ locate a = .reserved) ∧
  (∀ a : Index, ¬ ReservedIndex a → (locate a).index = a)

/-- A read returns the value of its location and changes nothing; at a reserved index it returns 0 and is rejected
with `BAD_ADDR` (20_memory.md R62). -/
def Obligations.ReadReturnsTheLocation : Prop :=
  ∀ (s : State) (a : Index) (rest : List HostInput), s.pending = .read a :: rest →
    (∀ l, l ≠ .reserved → l.index = a →
      step s = .next { s with pending := rest, response := some (s.locValue l) }) ∧
    (ReservedIndex a → ∃ t, step s = .next t ∧ t.response = some 0 ∧
      State.Rejected .badAddr (BitVec.ofNat 32 a.toNat)
        { s with pending := rest, response := some 0 } t)

/-- A word that the host writes at a location that accepts it is read back, but for the bits the location does not
store (20_memory.md R63, R70). -/
def Obligations.WrittenWordIsReadBack : Prop :=
  ∀ (s : State) (l : Loc) (v : Word) (rest : List HostInput), l.Accepts v →
    s.pending = .write l.index v :: .read l.index :: rest →
    ∃ t : State, Host.Core.run Sys2Proof.core 2 s = .next t ∧ t.response = some (l.stored v) ∧
      t.pending = rest ∧ t.status = s.status ∧ t.errinfo = s.errinfo

/-- Every write has the effect that 20_memory.md R63 lists for its index, and no other: a location that accepts the
word stores its bits, and no other location reads differently; `CMD` issues the word; `STATUS` with bit 0 = 1 clears
the record; the other cases are rejected with their cause and `ERRINFO`. -/
def Obligations.WriteHasTheListedEffect : Prop :=
  ∀ (s : State) (a : Index) (v : Word) (rest : List HostInput), s.pending = .write a v :: rest →
    (∀ l : Loc, l.index = a → l.Accepts v →
      ∃ t, step s = .next t ∧ t.pending = rest ∧ t.response = none ∧ t.resets = s.resets ∧
        t.locValue l = l.stored v ∧ ∀ l' : Loc, l' ≠ l → t.locValue l' = s.locValue l') ∧
    (a = 0x010 →
      (∀ i, decode v = .ok i → step s = exec i { s with pending := rest, response := none }) ∧
      (∀ why, decode v = .error why → ∃ t, step s = .next t ∧
        State.Rejected .illegalCmd v { s with pending := rest, response := none } t)) ∧
    (a = 0x011 →
      (v.getLsbD 0 = true → step s = .next
        { s with pending := rest, response := none, status := { err := false, cause := 0 }, errinfo := 0 }) ∧
      (v.getLsbD 0 = false → step s = .next { s with pending := rest, response := none })) ∧
    (ReservedIndex a ∨ a = 0x013 ∨ a = 0x014 → ∃ t, step s = .next t ∧
      State.Rejected .badAddr (BitVec.ofNat 32 (0x80000000 + a.toNat))
        { s with pending := rest, response := none } t) ∧
    (ShapeIndex a → v.toNat = 0 ∨ 8 < v.toNat → ∃ t, step s = .next t ∧
      State.Rejected .badValue (BitVec.ofNat 32 (0x80000000 + a.toNat))
        { s with pending := rest, response := none } t)

/-- Every access that `BAD_ADDR` is for (60_exceptions.md R226): reads and writes at the reserved indices, writes at
`ID` and `ERRINFO`, each with its `ERRINFO`; reading `CMD` returns 0 and is no error. -/
def Obligations.BadAddressesAreRejected : Prop :=
  ∀ (s : State) (a : Index) (v : Word) (rest : List HostInput),
    (s.pending = .read a :: rest → ReservedIndex a →
      ∃ t, step s = .next t ∧ t.response = some 0 ∧
        State.Rejected .badAddr (BitVec.ofNat 32 a.toNat)
          { s with pending := rest, response := some 0 } t) ∧
    (s.pending = .write a v :: rest → ReservedIndex a ∨ a = 0x013 ∨ a = 0x014 →
      ∃ t, step s = .next t ∧
        State.Rejected .badAddr (BitVec.ofNat 32 (0x80000000 + a.toNat))
          { s with pending := rest, response := none } t) ∧
    (s.pending = .read 0x010 :: rest → step s = .next { s with pending := rest, response := some 0 })

/-- `BAD_VALUE` (60_exceptions.md R227): a write of a value outside 1..8 to `ROWS` or `COLS` is rejected with it,
tested on the whole word, and the field keeps its value; no other write is. -/
def Obligations.BadShapeValuesAreRejected : Prop :=
  ∀ (s : State) (v : Word) (rest : List HostInput) (a : Index), s.pending = .write a v :: rest →
    (ShapeIndex a → v.toNat = 0 ∨ 8 < v.toNat →
      ∃ t, step s = .next t ∧
        State.Rejected .badValue (BitVec.ofNat 32 (0x80000000 + a.toNat))
          { s with pending := rest, response := none } t) ∧
    (¬ (ShapeIndex a ∧ (v.toNat = 0 ∨ 8 < v.toNat)) →
      ∃ t, step s = .next t ∧ (t.status.cause = 4 → s.status.cause = 4))

/-- The acknowledgement (60_exceptions.md R223, 10_state.md R31): a write to `STATUS` with bit 0 = 1 clears the
record, so that the next rejection is captured; with bit 0 = 0 it changes nothing. -/
def Obligations.AcknowledgeClearsTheRecord : Prop :=
  ∀ (s : State) (v : Word) (rest : List HostInput), s.pending = .write 0x011 v :: rest →
    (v.getLsbD 0 = true → ∃ t, step s = .next t ∧
      t = { s with pending := rest, response := none, status := { err := false, cause := 0 }, errinfo := 0 } ∧
      ∀ cause info, (t.reject cause info).status = { err := true, cause := cause.code } ∧
        (t.reject cause info).errinfo = info) ∧
    (v.getLsbD 0 = false → step s = .next { s with pending := rest, response := none })

/-! ### Reset and the invariant -/

/-- The state after reset (10_state.md R40): every value that the table gives; the cells and the array memory, which
it leaves unspecified, are not mentioned. -/
def Obligations.ResetLeavesTheStatedValues : Prop :=
  (∀ i, State.reset.getX i = 0) ∧ State.reset.locValue .cfg = 3 ∧
  State.reset.cfg = { round := true, ovf := true } ∧ State.reset.locValue .status = 0 ∧
  State.reset.status = { err := false, cause := 0 } ∧ State.reset.errinfo = 0 ∧
  State.reset.locValue .dota = 0 ∧ State.reset.locValue .dotb = 0 ∧
  State.reset.dota = { base := 0, stride := 0 } ∧ State.reset.dotb = { base := 0, stride := 0 } ∧
  (∀ k, (State.reset.mat k).rows = 1 ∧ (State.reset.mat k).cols = 1 ∧ (State.reset.mat k).errors = 0)

/-- The scalar commands and `DOT` of no element are usable at once after reset (70_reset_and_hazards.md R251, the
spec's own inference from R40), and `ID` reads its constant. -/
def Obligations.ScalarCommandsAreUsableAfterReset : Prop :=
  State.reset.portWord 0x013 = 0x46580148 ∧
  (∀ d a b, ∃ t, exec (.mul d a b) State.reset = .next t ∧ t.getX d = 0) ∧
  (∀ d a b, ∃ t, exec (.div d a b) State.reset = .next t ∧ t.getX d = 0x80000000) ∧
  (∀ d a, ∃ t, exec (.sqrt d a) State.reset = .next t ∧ t.getX d = 0) ∧
  (∀ d, ∃ t, exec (.dot d 0) State.reset = .next t ∧ t.getX d = 0)

/-- The reset input, whenever it is asserted between two transactions, puts the state at the values of 10_state.md
R40 (70_reset_and_hazards.md R250; that it is an input of the step is the model's, log entry 5). -/
def Obligations.ResetInputRestoresTheStatedValues : Prop :=
  ∀ (s : State) (rest : List HostInput), s.pending = .reset :: rest →
    ∃ t, step s = .next t ∧ t.pending = rest ∧ (∀ i, t.getX i = 0) ∧
      t.cfg = { round := true, ovf := true } ∧ t.status = { err := false, cause := 0 } ∧ t.errinfo = 0 ∧
      t.dota = { base := 0, stride := 0 } ∧ t.dotb = { base := 0, stride := 0 } ∧
      ∀ k, (t.mat k).rows = 1 ∧ (t.mat k).cols = 1 ∧ (t.mat k).errors = 0

/-- The invariant holds after reset (10_state.md R24, R40). The canonical form is the model's own (log entry 4). -/
def Obligations.InvariantHoldsAtReset : Prop := State.reset.Inv

/-- Every step keeps the invariant, from every state that has it: shapes stay in 1..8 (10_state.md R24), the array
memory stays canonical, the rejection record stays consistent (10_state.md R31, R34, 60_exceptions.md R221). The
canonical form is the model's own (log entry 4). -/
def Obligations.EveryStepKeepsTheInvariant : Prop :=
  ∀ s t : State, s.Inv → step s = .next t → t.Inv
end

