-- ==== Sys2Proof/Laws/Arith.lean ====
section
/-! SUPPORT. The numeric functions: the integer square root is the one of spec 00_scope.md R9, a word that holds an
integer in range reads back as it, the dot product as a sum over indices, what `narrow` and `div` round to. -/

namespace Sys2Proof.Machine

/-- The search keeps the root between `s` and `s + 2^n`. -/
theorem isqrtFrom_spec (N n s : Nat) (lo : s * s ≤ N) (hi : N < (s + 2 ^ n) * (s + 2 ^ n)) :
    isqrtFrom N n s * isqrtFrom N n s ≤ N ∧ N < (isqrtFrom N n s + 1) * (isqrtFrom N n s + 1) := by
  induction n generalizing s with
  | zero => exact ⟨lo, by simpa [isqrtFrom] using hi⟩
  | succ n ih =>
    unfold isqrtFrom
    have h2 : s + 2 ^ (n + 1) = s + 2 ^ n + 2 ^ n := by rw [Nat.pow_succ]; omega
    split
    · rename_i h
      exact ih _ h (by rw [← h2]; exact hi)
    · rename_i h
      exact ih _ lo (Nat.lt_of_not_le h)

/-- `isqrt(N)` is the greatest integer whose square is at most `N` (R9). -/
theorem isqrt_spec (N : Nat) : isqrt N * isqrt N ≤ N ∧ N < (isqrt N + 1) * (isqrt N + 1) := by
  refine isqrtFrom_spec N _ 0 (by simp) ?_
  have h : N < 2 ^ (N.log2 + 1) := Nat.lt_log2_self
  have h2 : 2 ^ (N.log2 + 1) ≤ 2 ^ (N.log2 / 2 + 1 + (N.log2 / 2 + 1)) :=
    Nat.pow_le_pow_right (by norm_num) (by omega)
  simpa only [Nat.zero_add, ← pow_add] using h.trans_le h2

/-- Only one integer is the integer square root. -/
theorem isqrt_unique {N s : Nat} (lo : s * s ≤ N) (hi : N < (s + 1) * (s + 1)) : isqrt N = s := by
  obtain ⟨lo', hi'⟩ := isqrt_spec N
  have h1 : isqrt N < s + 1 := Nat.mul_self_lt_mul_self_iff.1 (lo'.trans_lt hi)
  have h2 : s < isqrt N + 1 := Nat.mul_self_lt_mul_self_iff.1 (lo.trans_lt hi')
  omega

/-- An integer in the range of a word is read back as it is. -/
theorem s32_w32 {v : Int} (lo : -2 ^ 31 ≤ v) (hi : v < 2 ^ 31) : s32 (w32 v) = v := by
  simp only [s32, w32, BitVec.toInt_ofInt]
  rw [Int.bmod_eq_of_le] <;> norm_num <;> omega

/-- The integers that a word can hold. -/
theorem s32_range (w : Word) : -2 ^ 31 ≤ s32 w ∧ s32 w < 2 ^ 31 := by
  have h1 := BitVec.le_toInt w
  have h2 := BitVec.toInt_lt (x := w)
  norm_num at h1 h2 ⊢
  exact ⟨h1, h2⟩

theorem w32_s32 (w : Word) : w32 (s32 w) = w := BitVec.ofInt_toInt

theorem s32_OVF : s32 OVF = -2 ^ 31 := by decide

/-- The sum of products over two lists made from the same indices. -/
theorem dotAcc_map_range (f g : Nat → Word) (n : Nat) :
    dotAcc ((List.range n).map f) ((List.range n).map g) =
      ((List.range n).map fun i => s32 (f i) * s32 (g i)).sum := by
  induction List.range n with
  | nil => rfl
  | cons i rest ih => simp only [List.map_cons, dotAcc, List.sum_cons, ih]

@[simp] theorem dotAcc_nil (v : List Word) : dotAcc [] v = 0 := by cases v <;> rfl

theorem roundProduct_floor (p : Int) : roundProduct false p = p / 2 ^ 16 := by simp [roundProduct]

theorem roundProduct_of_nonneg {p : Int} (h : 0 ≤ p) : roundProduct true p = (p + 2 ^ 15) / 2 ^ 16 := by
  have : (p.natAbs : Int) = p := by omega
  simp only [roundProduct, if_true, h, this]

theorem roundProduct_of_neg {p : Int} (h : p < 0) : roundProduct true p = -((-p + 2 ^ 15) / 2 ^ 16) := by
  have h1 : (p.natAbs : Int) = -p := by omega
  have h2 : ¬ 0 ≤ p := by omega
  simp only [roundProduct, if_true, h1, h2, if_false]

/-- A value on the product scale that fits is only rounded. -/
theorem narrow_of_range (cfg : Cfg) {p : Int} (lo : -2 ^ 47 ≤ p) (hi : p < 2 ^ 47) :
    narrow cfg p = w32 (roundProduct cfg.round p) := by
  have h1 : ¬ p < -2 ^ 47 := by omega
  have h2 : ¬ 2 ^ 47 ≤ p := by omega
  simp only [narrow, h1, h2, decide_false, Bool.or_false, Bool.and_false]
  rfl

theorem dotAcc_comm (u v : List Word) : dotAcc u v = dotAcc v u := by
  induction u generalizing v with
  | nil => cases v <;> rfl
  | cons a u ih =>
    cases v with
    | nil => rfl
    | cons b v => simp only [dotAcc, ih, mul_comm]

/-- The exact sum of squares. -/
theorem dotAcc_self_nonneg (u : List Word) : 0 ≤ dotAcc u u := by
  induction u with
  | nil => exact le_refl 0
  | cons a u ih =>
    simp only [dotAcc]
    exact add_nonneg (mul_self_nonneg _) ih

/-- What `narrow` rounds to, in the nearest mode (R120). -/
theorem roundProduct_nearest (p : Int) : NearestAway (roundProduct true p) p (2 ^ 16) := by
  unfold NearestAway
  rcases lt_or_ge p 0 with h | h
  · rw [roundProduct_of_neg h]
    rw [abs_of_neg h, abs_of_nonpos (show -((-p + 2 ^ 15) / 2 ^ 16) * 2 ^ 16 ≤ 0 by omega),
      abs_of_nonneg (show (0 : Int) ≤ 2 ^ 16 by decide)]
    rcases abs_cases (-((-p + 2 ^ 15) / 2 ^ 16) * 2 ^ 16 - p) with ⟨e, _⟩ | ⟨e, _⟩ <;> omega
  · rw [roundProduct_of_nonneg h]
    rw [abs_of_nonneg h, abs_of_nonneg (show 0 ≤ (p + 2 ^ 15) / 2 ^ 16 * 2 ^ 16 by omega),
      abs_of_nonneg (show (0 : Int) ≤ 2 ^ 16 by decide)]
    rcases abs_cases ((p + 2 ^ 15) / 2 ^ 16 * 2 ^ 16 - p) with ⟨e, _⟩ | ⟨e, _⟩ <;> omega

/-- What `narrow` rounds to, in the other mode (R120). -/
theorem roundProduct_floorOf (p : Int) : FloorOf (roundProduct false p) p (2 ^ 16) := by
  unfold FloorOf
  rw [roundProduct_floor]
  omega

/-- The magnitude of a quotient in the nearest mode (R124). -/
theorem divMagnitude_nearest (na nb : Nat) (h : 0 < nb) :
    2 * (na * 2 ^ 16) < (2 * divMagnitude true na nb + 1) * nb ∧
    2 * (divMagnitude true na nb * nb) ≤ 2 * (na * 2 ^ 16) + nb := by
  have h1 := Nat.div_add_mod (na * 2 ^ 17) nb
  have h2 := Nat.mod_lt (na * 2 ^ 17) h
  have hQ : divMagnitude true na nb = (na * 2 ^ 17 / nb + 1) / 2 := if_pos rfl
  rw [hQ]
  generalize na * 2 ^ 17 / nb = q at *
  have h3 : nb * q ≤ nb * (2 * ((q + 1) / 2)) := Nat.mul_le_mul_left _ (by omega)
  have h4 : nb * (2 * ((q + 1) / 2)) ≤ nb * (q + 1) := Nat.mul_le_mul_left _ (by omega)
  generalize (q + 1) / 2 = Q at *
  have e1 : (2 * Q + 1) * nb = nb * (2 * Q) + nb := by ring
  have e2 : 2 * (Q * nb) = nb * (2 * Q) := by ring
  have e3 : nb * (q + 1) = nb * q + nb := by ring
  omega

/-- The magnitude of a quotient in the truncating mode (R124). -/
theorem divMagnitude_trunc (na nb : Nat) (h : 0 < nb) :
    divMagnitude false na nb * nb ≤ na * 2 ^ 16 ∧ na * 2 ^ 16 < divMagnitude false na nb * nb + nb := by
  have h1 := Nat.div_add_mod (na * 2 ^ 16) nb
  have h2 := Nat.mod_lt (na * 2 ^ 16) h
  have hQ : divMagnitude false na nb = na * 2 ^ 16 / nb := if_neg Bool.false_ne_true
  rw [hQ, Nat.mul_comm _ nb]
  omega

/-- A magnitude with the sign of the quotient of `x` and `y` (R124). -/
def divSigned (x y : Int) (q : Nat) : Int := if decide (x < 0) != decide (y < 0) then -(q : Int) else q

/-- The signed quotient times the divisor has the sign of the dividend. -/
theorem divSigned_mul (x y : Int) (q : Nat) :
    divSigned x y q * y = if x < 0 then -((q * y.natAbs : Nat) : Int) else ((q * y.natAbs : Nat) : Int) := by
  unfold divSigned
  rw [Nat.cast_mul]
  rcases lt_or_ge x 0 with hx | hx <;> rcases lt_or_ge y 0 with hy | hy
  · have : (y.natAbs : Int) = -y := by omega
    simp [hx, hy, this]
  · have : (y.natAbs : Int) = y := by omega
    have hy' : ¬ y < 0 := by omega
    simp [hx, hy', this]
  · have : (y.natAbs : Int) = -y := by omega
    have hx' : ¬ x < 0 := by omega
    simp [hx', hy, this]
  · have : (y.natAbs : Int) = y := by omega
    have hx' : ¬ x < 0 := by omega
    have hy' : ¬ y < 0 := by omega
    simp [hx', hy', this]

/-- The signed quotient in the nearest mode (R124). -/
theorem divSigned_nearest (x y : Int) (h : y ≠ 0) :
    NearestAway (divSigned x y (divMagnitude true x.natAbs y.natAbs)) (x * 2 ^ 16) y := by
  unfold NearestAway
  rw [divSigned_mul]
  obtain ⟨h1, h2⟩ := divMagnitude_nearest x.natAbs y.natAbs (by omega)
  generalize divMagnitude true x.natAbs y.natAbs = q at *
  have e : (2 * q + 1) * y.natAbs = 2 * (q * y.natAbs) + y.natAbs := by ring
  rw [e] at h1
  generalize q * y.natAbs = Q at *
  rw [Int.abs_eq_natAbs, Int.abs_eq_natAbs, Int.abs_eq_natAbs, Int.abs_eq_natAbs]
  split <;> omega

/-- The signed quotient in the truncating mode (R124). -/
theorem divSigned_trunc (x y : Int) (h : y ≠ 0) :
    TruncOf (divSigned x y (divMagnitude false x.natAbs y.natAbs)) (x * 2 ^ 16) y := by
  unfold TruncOf
  rw [divSigned_mul]
  obtain ⟨h1, h2⟩ := divMagnitude_trunc x.natAbs y.natAbs (by omega)
  generalize divMagnitude false x.natAbs y.natAbs * y.natAbs = Q at *
  rw [Int.abs_eq_natAbs, Int.abs_eq_natAbs, Int.abs_eq_natAbs]
  split
  · exact ⟨by omega, by omega, mul_nonneg_of_nonpos_of_nonpos (by omega) (by omega)⟩
  · exact ⟨by omega, by omega, mul_nonneg (by omega) (by omega)⟩

/-- `div` by a divisor that is not 0, where no overflow is reported (R124). -/
theorem div_eq_divSigned (cfg : Cfg) (a b : Word) (hb : s32 b ≠ 0)
    (h : cfg.ovf = true → divMagnitude cfg.round (s32 a).natAbs (s32 b).natAbs < 2 ^ 31) :
    div cfg a b = w32 (divSigned (s32 a) (s32 b) (divMagnitude cfg.round (s32 a).natAbs (s32 b).natAbs)) := by
  unfold div divSigned
  rw [if_neg hb, if_neg]
  simpa using h

end Sys2Proof.Machine
end

