-- ==== Sys2Proof/Laws/Cells.lean ====
section
/-! SUPPORT. The cells of a matrix register: a read after a write of one cell, of a block, of a whole record. -/

namespace Sys2Proof.Machine

theorem Cells.cell_eq (m : Cells) {r c : Nat} (h : r < 8 ∧ c < 8) :
    m.cell r c = m[8 * r + c]'(by omega) := by
  simp [Cells.cell, h]

/-- There is no cell outside the 8 × 8 store. -/
theorem Cells.cell_outside (m : Cells) {r c : Nat} (h : ¬ (r < 8 ∧ c < 8)) : m.cell r c = 0 := by
  simp [Cells.cell, h]

theorem Cells.cell_setCell (m : Cells) (r c : Nat) (v : Word) (r' c' : Nat) :
    (m.setCell r c v).cell r' c' = if r' = r ∧ c' = c ∧ r < 8 ∧ c < 8 then v else m.cell r' c' := by
  unfold Cells.setCell
  by_cases h : r < 8 ∧ c < 8
  · rw [dif_pos h]
    by_cases h' : r' < 8 ∧ c' < 8
    · rw [Cells.cell_eq _ h', Cells.cell_eq _ h']
      by_cases e : r' = r ∧ c' = c
      · obtain ⟨rfl, rfl⟩ := e
        simp [h]
      · have hne : 8 * r + c ≠ 8 * r' + c' := by omega
        have : ¬ (r' = r ∧ c' = c ∧ r < 8 ∧ c < 8) := fun hh => e ⟨hh.1, hh.2.1⟩
        rw [if_neg this, Vector.getElem_set_ne _ _ hne]
    · rw [Cells.cell_outside _ h', Cells.cell_outside _ h']
      have : ¬ (r' = r ∧ c' = c ∧ r < 8 ∧ c < 8) := by
        rintro ⟨rfl, rfl, h1, h2⟩; exact h' ⟨h1, h2⟩
      rw [if_neg this]
  · rw [dif_neg h, if_neg (fun hh => h hh.2.2)]

theorem Cells.cell_setCell_self (m : Cells) {r c : Nat} (v : Word) (h : r < 8 ∧ c < 8) :
    (m.setCell r c v).cell r c = v := by
  simp [Cells.cell_setCell, h]

theorem Cells.cell_setCell_ne (m : Cells) {r c r' c' : Nat} (v : Word) (h : ¬ (r' = r ∧ c' = c)) :
    (m.setCell r c v).cell r' c' = m.cell r' c' := by
  rw [Cells.cell_setCell, if_neg fun hh => h ⟨hh.1, hh.2.1⟩]

theorem Cells.cell_tabulate (f : Nat → Nat → Word) (r c : Nat) :
    (Cells.tabulate f).cell r c = if r < 8 ∧ c < 8 then f r c else 0 := by
  by_cases h : r < 8 ∧ c < 8
  · have h1 : (8 * r + c) / 8 = r := by omega
    have h2 : (8 * r + c) % 8 = c := by omega
    rw [Cells.cell_eq _ h, if_pos h]
    simp [Cells.tabulate, h1, h2]
  · rw [Cells.cell_outside _ h, if_neg h]

theorem Cells.cell_overlay (m : Cells) (rows cols : Nat) (f : Nat → Nat → Word) (r c : Nat) :
    (m.overlay rows cols f).cell r c =
      if r < 8 ∧ c < 8 ∧ r < rows ∧ c < cols then f r c else m.cell r c := by
  rw [Cells.overlay, Cells.cell_tabulate]
  by_cases h : r < 8 ∧ c < 8
  · simp [h]
  · have : ¬ (r < 8 ∧ c < 8 ∧ r < rows ∧ c < cols) := fun hh => h ⟨hh.1, hh.2.1⟩
    rw [if_neg h, if_neg this, Cells.cell_outside _ h]

@[simp] theorem Cells.cell_replicate (r c : Nat) : Cells.cell (Vector.replicate 64 0) r c = 0 := by
  by_cases h : r < 8 ∧ c < 8
  · rw [Cells.cell_eq _ h]; simp
  · exact Cells.cell_outside _ h

/-- Stores with the same cells are the same store. -/
theorem Cells.ext_cell {m n : Cells} (h : ∀ r c, r < 8 → c < 8 → m.cell r c = n.cell r c) : m = n := by
  refine Vector.ext fun i hi => ?_
  have hc := h (i / 8) (i % 8) (by omega) (by omega)
  rw [Cells.cell_eq _ ⟨by omega, by omega⟩, Cells.cell_eq _ ⟨by omega, by omega⟩] at hc
  have e : 8 * (i / 8) + i % 8 = i := by omega
  simpa only [e] using hc

section store
variable (m : MatReg) (rows cols : BitVec 4) (e : Errors) (f : Nat → Nat → Word)
@[simp] theorem MatReg.store_rows : (m.store rows cols e f).rows = rows := rfl
@[simp] theorem MatReg.store_cols : (m.store rows cols e f).cols = cols := rfl
@[simp] theorem MatReg.store_errors : (m.store rows cols e f).errors = e := rfl

theorem MatReg.cell_store (r c : Nat) :
    (m.store rows cols e f).cell r c =
      if r < 8 ∧ c < 8 ∧ r < rows.toNat ∧ c < cols.toNat then f r c else m.cell r c :=
  Cells.cell_overlay ..
end store

end Sys2Proof.Machine
end

