-- ==== Sys2Proof/Laws/Fold.lean ====
section
/-! SUPPORT. Induction over a loop: what holds before the first index and is kept by every index holds after the
last. -/

namespace Sys2Proof.Machine

theorem foldl_range_induct {α : Type} {f : α → Nat → α} {a : α} {n : Nat} (P : Nat → α → Prop) (h0 : P 0 a)
    (hs : ∀ k x, k < n → P k x → P (k + 1) (f x k)) : P n ((List.range n).foldl f a) := by
  induction n with
  | zero => exact h0
  | succ n ih =>
    rw [List.range_succ, List.foldl_append]
    exact hs n _ (Nat.lt_succ_self n) (ih fun k x hk => hs k x (Nat.lt_succ_of_lt hk))

end Sys2Proof.Machine
end

