-- ==== Sys2Proof/Laws/State.lean ====
section
/-! SUPPORT. The lemmas of the register file and of the record updates: one lemma per field per update, so that no
later proof unfolds an update. -/

namespace Sys2Proof.Machine

section setX
variable (s : State) (d : XReg) (v : Word)
@[simp] theorem State.setX_mats : (s.setX d v).mats = s.mats := rfl
@[simp] theorem State.setX_amem : (s.setX d v).amem = s.amem := rfl
@[simp] theorem State.setX_cfg : (s.setX d v).cfg = s.cfg := rfl
@[simp] theorem State.setX_status : (s.setX d v).status = s.status := rfl
@[simp] theorem State.setX_errinfo : (s.setX d v).errinfo = s.errinfo := rfl
@[simp] theorem State.setX_dota : (s.setX d v).dota = s.dota := rfl
@[simp] theorem State.setX_dotb : (s.setX d v).dotb = s.dotb := rfl
@[simp] theorem State.setX_pending : (s.setX d v).pending = s.pending := rfl
@[simp] theorem State.setX_response : (s.setX d v).response = s.response := rfl
@[simp] theorem State.setX_resets : (s.setX d v).resets = s.resets := rfl
@[simp] theorem State.setX_mat (k : MReg) : (s.setX d v).mat k = s.mat k := rfl
@[simp] theorem State.setX_amemWord (i : Nat) : (s.setX d v).amemWord i = s.amemWord i := rfl

@[simp] theorem State.getX_setX_self : (s.setX d v).getX d = v := by
  simp [State.getX, State.setX]

theorem State.getX_setX_ne {j : XReg} (h : j ≠ d) : (s.setX d v).getX j = s.getX j := by
  have h' : d.val ≠ j.val := fun e => h (Fin.ext e.symm)
  simp [State.getX, State.setX, Vector.getElem_set_ne, h']

theorem State.getX_setX (j : XReg) : (s.setX d v).getX j = if j = d then v else s.getX j := by
  by_cases h : j = d
  · subst h; simp
  · simp [h, State.getX_setX_ne]
end setX

section setMat
variable (s : State) (k : MReg) (m : MatReg)
@[simp] theorem State.setMat_x : (s.setMat k m).x = s.x := rfl
@[simp] theorem State.setMat_amem : (s.setMat k m).amem = s.amem := rfl
@[simp] theorem State.setMat_cfg : (s.setMat k m).cfg = s.cfg := rfl
@[simp] theorem State.setMat_status : (s.setMat k m).status = s.status := rfl
@[simp] theorem State.setMat_errinfo : (s.setMat k m).errinfo = s.errinfo := rfl
@[simp] theorem State.setMat_dota : (s.setMat k m).dota = s.dota := rfl
@[simp] theorem State.setMat_dotb : (s.setMat k m).dotb = s.dotb := rfl
@[simp] theorem State.setMat_pending : (s.setMat k m).pending = s.pending := rfl
@[simp] theorem State.setMat_response : (s.setMat k m).response = s.response := rfl
@[simp] theorem State.setMat_resets : (s.setMat k m).resets = s.resets := rfl
@[simp] theorem State.setMat_getX (j : XReg) : (s.setMat k m).getX j = s.getX j := rfl
@[simp] theorem State.setMat_amemWord (i : Nat) : (s.setMat k m).amemWord i = s.amemWord i := rfl

@[simp] theorem State.mat_setMat_self : (s.setMat k m).mat k = m := by
  simp [State.mat, State.setMat]

theorem State.mat_setMat_ne {j : MReg} (h : j ≠ k) : (s.setMat k m).mat j = s.mat j := by
  have h' : k.val ≠ j.val := fun e => h (Fin.ext e.symm)
  simp [State.mat, State.setMat, Vector.getElem_set_ne, h']

theorem State.mat_setMat (j : MReg) : (s.setMat k m).mat j = if j = k then m else s.mat j := by
  by_cases h : j = k
  · subst h; simp
  · simp [h, State.mat_setMat_ne]
end setMat

section writeAmem
variable (s : State) (i : Nat) (v : Word)
@[simp] theorem State.writeAmem_x : (s.writeAmem i v).x = s.x := rfl
@[simp] theorem State.writeAmem_mats : (s.writeAmem i v).mats = s.mats := rfl
@[simp] theorem State.writeAmem_amem : (s.writeAmem i v).amem = Memory.write s.amem i v := rfl
@[simp] theorem State.writeAmem_cfg : (s.writeAmem i v).cfg = s.cfg := rfl
@[simp] theorem State.writeAmem_status : (s.writeAmem i v).status = s.status := rfl
@[simp] theorem State.writeAmem_errinfo : (s.writeAmem i v).errinfo = s.errinfo := rfl
@[simp] theorem State.writeAmem_dota : (s.writeAmem i v).dota = s.dota := rfl
@[simp] theorem State.writeAmem_dotb : (s.writeAmem i v).dotb = s.dotb := rfl
@[simp] theorem State.writeAmem_pending : (s.writeAmem i v).pending = s.pending := rfl
@[simp] theorem State.writeAmem_response : (s.writeAmem i v).response = s.response := rfl
@[simp] theorem State.writeAmem_resets : (s.writeAmem i v).resets = s.resets := rfl
@[simp] theorem State.writeAmem_getX (j : XReg) : (s.writeAmem i v).getX j = s.getX j := rfl
@[simp] theorem State.writeAmem_mat (k : MReg) : (s.writeAmem i v).mat k = s.mat k := rfl
end writeAmem

section acknowledge
variable (s : State)
@[simp] theorem State.acknowledge_x : s.acknowledge.x = s.x := rfl
@[simp] theorem State.acknowledge_mats : s.acknowledge.mats = s.mats := rfl
@[simp] theorem State.acknowledge_amem : s.acknowledge.amem = s.amem := rfl
@[simp] theorem State.acknowledge_cfg : s.acknowledge.cfg = s.cfg := rfl
@[simp] theorem State.acknowledge_status : s.acknowledge.status = { err := false, cause := 0 } := rfl
@[simp] theorem State.acknowledge_errinfo : s.acknowledge.errinfo = 0 := rfl
@[simp] theorem State.acknowledge_dota : s.acknowledge.dota = s.dota := rfl
@[simp] theorem State.acknowledge_dotb : s.acknowledge.dotb = s.dotb := rfl
@[simp] theorem State.acknowledge_pending : s.acknowledge.pending = s.pending := rfl
@[simp] theorem State.acknowledge_response : s.acknowledge.response = s.response := rfl
@[simp] theorem State.acknowledge_resets : s.acknowledge.resets = s.resets := rfl
@[simp] theorem State.acknowledge_getX (j : XReg) : s.acknowledge.getX j = s.getX j := rfl
@[simp] theorem State.acknowledge_mat (k : MReg) : s.acknowledge.mat k = s.mat k := rfl
@[simp] theorem State.acknowledge_amemWord (i : Nat) : s.acknowledge.amemWord i = s.amemWord i := rfl
end acknowledge

section takeInput
variable (s : State)
@[simp] theorem State.takeInput_x : s.takeInput.x = s.x := rfl
@[simp] theorem State.takeInput_mats : s.takeInput.mats = s.mats := rfl
@[simp] theorem State.takeInput_amem : s.takeInput.amem = s.amem := rfl
@[simp] theorem State.takeInput_cfg : s.takeInput.cfg = s.cfg := rfl
@[simp] theorem State.takeInput_status : s.takeInput.status = s.status := rfl
@[simp] theorem State.takeInput_errinfo : s.takeInput.errinfo = s.errinfo := rfl
@[simp] theorem State.takeInput_dota : s.takeInput.dota = s.dota := rfl
@[simp] theorem State.takeInput_dotb : s.takeInput.dotb = s.dotb := rfl
@[simp] theorem State.takeInput_pending : s.takeInput.pending = s.pending.tail := rfl
@[simp] theorem State.takeInput_response : s.takeInput.response = none := rfl
@[simp] theorem State.takeInput_resets : s.takeInput.resets = s.resets := rfl
@[simp] theorem State.takeInput_getX (j : XReg) : s.takeInput.getX j = s.getX j := rfl
@[simp] theorem State.takeInput_mat (k : MReg) : s.takeInput.mat k = s.mat k := rfl
@[simp] theorem State.takeInput_amemWord (i : Nat) : s.takeInput.amemWord i = s.amemWord i := rfl
end takeInput

section powerOn
variable (n : Nat) (inputs : List HostInput)
@[simp] theorem State.powerOn_amem : (State.powerOn n inputs).amem = [] := rfl
@[simp] theorem State.powerOn_cfg : (State.powerOn n inputs).cfg = { round := true, ovf := true } := rfl
@[simp] theorem State.powerOn_status : (State.powerOn n inputs).status = { err := false, cause := 0 } := rfl
@[simp] theorem State.powerOn_errinfo : (State.powerOn n inputs).errinfo = 0 := rfl
@[simp] theorem State.powerOn_dota : (State.powerOn n inputs).dota = { base := 0, stride := 0 } := rfl
@[simp] theorem State.powerOn_dotb : (State.powerOn n inputs).dotb = { base := 0, stride := 0 } := rfl
@[simp] theorem State.powerOn_pending : (State.powerOn n inputs).pending = inputs := rfl
@[simp] theorem State.powerOn_response : (State.powerOn n inputs).response = none := rfl
@[simp] theorem State.powerOn_resets : (State.powerOn n inputs).resets = n := rfl

@[simp] theorem State.powerOn_getX (j : XReg) : (State.powerOn n inputs).getX j = 0 := by
  simp [State.getX, State.powerOn]

@[simp] theorem State.powerOn_mat (k : MReg) :
    (State.powerOn n inputs).mat k = MatReg.powerOn n k.val := by
  simp [State.mat, State.powerOn]
end powerOn

/-- Everything a rejection can do (R222): nothing while `ERR` = 1, the capture while `ERR` = 0. -/
theorem State.reject_cases (s : State) (cause : Cause) (info : Word) :
    (s.status.err = true ∧ s.reject cause info = s) ∨
    (s.status.err = false ∧
      s.reject cause info = { s with status := { err := true, cause := cause.code }, errinfo := info }) := by
  unfold State.reject
  cases h : s.status.err <;> simp

section reject
variable (s : State) (cause : Cause) (info : Word)
@[simp] theorem State.reject_x : (s.reject cause info).x = s.x := by unfold State.reject; split <;> rfl
@[simp] theorem State.reject_mats : (s.reject cause info).mats = s.mats := by unfold State.reject; split <;> rfl
@[simp] theorem State.reject_amem : (s.reject cause info).amem = s.amem := by unfold State.reject; split <;> rfl
@[simp] theorem State.reject_cfg : (s.reject cause info).cfg = s.cfg := by unfold State.reject; split <;> rfl
@[simp] theorem State.reject_dota : (s.reject cause info).dota = s.dota := by unfold State.reject; split <;> rfl
@[simp] theorem State.reject_dotb : (s.reject cause info).dotb = s.dotb := by unfold State.reject; split <;> rfl
@[simp] theorem State.reject_pending : (s.reject cause info).pending = s.pending := by
  unfold State.reject; split <;> rfl
@[simp] theorem State.reject_response : (s.reject cause info).response = s.response := by
  unfold State.reject; split <;> rfl
@[simp] theorem State.reject_resets : (s.reject cause info).resets = s.resets := by
  unfold State.reject; split <;> rfl
@[simp] theorem State.reject_getX (j : XReg) : (s.reject cause info).getX j = s.getX j := by
  unfold State.reject; split <;> rfl
@[simp] theorem State.reject_mat (k : MReg) : (s.reject cause info).mat k = s.mat k := by
  unfold State.reject; split <;> rfl
@[simp] theorem State.reject_amemWord (i : Nat) : (s.reject cause info).amemWord i = s.amemWord i := by
  unfold State.reject; split <;> rfl
end reject

end Sys2Proof.Machine
end

