-- ==== Sys2Proof/Laws/MatMul.lean ====
section
/-! SUPPORT. The multiply commands: a cell of the product as a sum over the inner index, and the flags of the
product. -/

namespace Sys2Proof.Machine

/-- `chkAll` raises `OVERFLOW` exactly when one of the words is the sentinel. -/
theorem chkAll_of_mem {vs : List Word} (h : ∃ v ∈ vs, v = OVF) : chkAll vs = 0x01 := by
  have : (vs.any fun v => v == OVF) = true := by simpa using h
  simp only [chkAll, Errors.raiseIf, this, if_true, Errors.overflow]

theorem chkAll_of_not_mem {vs : List Word} (h : ∀ v ∈ vs, v ≠ OVF) : chkAll vs = 0 := by
  have : (vs.any fun v => v == OVF) = false := by simpa using h
  simp only [chkAll, Errors.raiseIf, this]
  rfl

theorem chk_ovf : chk OVF = 0x01 := by decide

theorem chk_of_ne {v : Word} (h : v ≠ OVF) : chk v = 0 := by
  have : (v == OVF) = false := by simpa using h
  simp only [chk, Errors.raiseIf, this]
  rfl

/-- The words of a product, as they are passed to `chk`. -/
theorem mem_products {R C : Nat} {f : Nat → Nat → Word} {v : Word} :
    v ∈ ((List.range R).flatMap fun r => (List.range C).map fun c => f r c) ↔
      ∃ r c, r < R ∧ c < C ∧ f r c = v := by
  simp only [List.mem_flatMap, List.mem_map, List.mem_range]
  constructor
  · rintro ⟨r, hr, c, hc, h⟩; exact ⟨r, c, hr, hc, h⟩
  · rintro ⟨r, c, hr, hc, h⟩; exact ⟨r, hr, c, hc, h⟩

section cells
variable (cfg : Cfg) (A B : MatReg) (r c : Nat)

theorem productCell_n :
    MulMode.n.productCell cfg A B r c =
      narrow cfg (((List.range (min A.cols.toNat B.rows.toNat)).map fun k =>
        s32 (A.cell r k) * s32 (B.cell k c)).sum) := by
  simp only [MulMode.productCell, dotsum, MulMode.left, MulMode.right, Cells.rowCells, Cells.colCells,
    dotAcc_map_range]
  rfl

theorem productCell_at :
    MulMode.at.productCell cfg A B r c =
      narrow cfg (((List.range (min A.rows.toNat B.rows.toNat)).map fun k =>
        s32 (A.cell k r) * s32 (B.cell k c)).sum) := by
  simp only [MulMode.productCell, dotsum, MulMode.left, MulMode.right, Cells.colCells,
    dotAcc_map_range]
  rfl

theorem productCell_bt :
    MulMode.bt.productCell cfg A B r c =
      narrow cfg (((List.range (min A.cols.toNat B.cols.toNat)).map fun k =>
        s32 (A.cell r k) * s32 (B.cell c k)).sum) := by
  simp only [MulMode.productCell, dotsum, MulMode.left, MulMode.right, Cells.rowCells,
    dotAcc_map_range]
  rfl
end cells

section product
variable (mode : MulMode) (cfg : Cfg) (A B D : MatReg)
@[simp] theorem product_rows : (mode.product cfg A B D).rows = mode.resRows A := rfl
@[simp] theorem product_cols : (mode.product cfg A B D).cols = mode.resCols B := rfl
@[simp] theorem product_errors : (mode.product cfg A B D).errors = mode.productErrors cfg A B := rfl

/-- The cells of the product: the sums inside the shape, the old words outside it. -/
theorem product_cell (r c : Nat) :
    (mode.product cfg A B D).cell r c =
      if r < 8 ∧ c < 8 ∧ r < (mode.resRows A).toNat ∧ c < (mode.resCols B).toNat then
        mode.productCell cfg A B r c
      else D.cell r c :=
  MatReg.cell_store ..

/-- The flags of the product when a cell of it is the sentinel. -/
theorem productErrors_overflow
    (h : ∃ r c, r < (mode.resRows A).toNat ∧ c < (mode.resCols B).toNat ∧ mode.productCell cfg A B r c = OVF) :
    mode.productErrors cfg A B =
      A.errors ||| B.errors ||| (if mode.innerA A = mode.innerB B then 0 else 0x02) ||| 0x01 := by
  obtain ⟨r, c, hr, hc, h⟩ := h
  rw [MulMode.productErrors, chkAll_of_mem ⟨OVF, mem_products.2 ⟨r, c, hr, hc, h⟩, rfl⟩]
  by_cases hi : mode.innerA A = mode.innerB B <;> simp [hi, Errors.raiseIf, Errors.dimerr]

/-- The flags of the product when no cell of it is the sentinel. -/
theorem productErrors_fits
    (h : ∀ r c, r < (mode.resRows A).toNat → c < (mode.resCols B).toNat → mode.productCell cfg A B r c ≠ OVF) :
    mode.productErrors cfg A B =
      A.errors ||| B.errors ||| (if mode.innerA A = mode.innerB B then 0 else 0x02) := by
  rw [MulMode.productErrors, chkAll_of_not_mem fun v hv => ?_]
  · by_cases hi : mode.innerA A = mode.innerB B <;> simp [hi, Errors.raiseIf, Errors.dimerr]
  · obtain ⟨r, c, hr, hc, e⟩ := mem_products.1 hv
    exact e ▸ h r c hr hc
end product

end Sys2Proof.Machine
end

