-- ==== Sys2Proof/Laws/Chol.lean ====
section
/-! SUPPORT. `CHOL`: the loops of spec 44_cholesky.md R213 fill a matrix cell by cell, and what a step computes from
the cells before it stays true to the end. -/

namespace Sys2Proof.Machine

/-- The sum of a step, on the working array (R212). -/
def cholSum (cfg : Cfg) (L : Cells) (i j : Nat) : Word := dotsum cfg (L.rowCells i j) (L.rowCells j j)

/-- The difference of a step (R212). -/
def cholDif (cfg : Cfg) (S : MatReg) (L : Cells) (i j : Nat) : Word :=
  subOverflow cfg (S.cell i j) (cholSum cfg L i j)

/-- The cell that a step computes (R212). -/
def cholCell (cfg : Cfg) (S : MatReg) (L : Cells) (i j : Nat) : Word :=
  if i < j then 0
  else if j = i then sqrt cfg (cholClamp (cholDif cfg S L i i))
  else div cfg (cholDif cfg S L i j) (L.cell j j)

/-- The flags that a step raises (R212). -/
def cholFlags (cfg : Cfg) (S : MatReg) (L : Cells) (i j : Nat) : Errors :=
  if i < j then 0
  else if j = i then
    chk (cholSum cfg L i i) ||| chk (cholDif cfg S L i i) ||| cholNegative (cholDif cfg S L i i)
      ||| chk (cholCell cfg S L i i)
  else chk (cholSum cfg L i j) ||| chk (cholDif cfg S L i j) ||| chk (cholCell cfg S L i j)

/-- One step, for every place of the matrix. -/
theorem CholWork.step_eq (cfg : Cfg) (S : MatReg) (i j : Nat) (w : CholWork) :
    w.step cfg S i j =
      { l := w.l.setCell i j (cholCell cfg S w.l i j), e := w.e ||| cholFlags cfg S w.l i j } := by
  unfold CholWork.step cholCell cholFlags
  split
  · simp
  · split
    · rename_i h; subst h
      simp [CholWork.diagonal, cholSum, cholDif, cholCell, BitVec.or_assoc]
    · rename_i h1 h2
      simp [CholWork.below, cholSum, cholDif, cholCell, h1, h2, BitVec.or_assoc]

/-- Before `(i, j)` in the order of the loops. -/
def Earlier (i j i' j' : Nat) : Prop := i < i' ∨ (i = i' ∧ j < j')

theorem rowCells_congr {L L' : Cells} {r n : Nat} (h : ∀ k, k < n → L.cell r k = L'.cell r k) :
    L.rowCells r n = L'.rowCells r n :=
  List.map_congr_left fun k hk => h k (List.mem_range.1 hk)

/-- A step reads the earlier cells only. -/
theorem cholSum_congr {cfg : Cfg} {L L' : Cells} {i j : Nat} (hj : j ≤ i)
    (h : ∀ a b, Earlier a b i j → L.cell a b = L'.cell a b) : cholSum cfg L i j = cholSum cfg L' i j := by
  unfold cholSum
  rw [rowCells_congr fun k hk => h i k (.inr ⟨rfl, hk⟩),
    rowCells_congr (r := j) fun k hk => h j k ?_]
  rcases Nat.lt_or_eq_of_le hj with hlt | rfl
  · exact .inl hlt
  · exact .inr ⟨rfl, hk⟩

theorem cholCell_congr {cfg : Cfg} {S : MatReg} {L L' : Cells} {i j : Nat}
    (h : ∀ a b, Earlier a b i j → L.cell a b = L'.cell a b) : cholCell cfg S L i j = cholCell cfg S L' i j := by
  unfold cholCell
  split
  · rfl
  · rename_i hij
    split
    · rename_i e; subst e
      simp only [cholDif, cholSum_congr (le_refl _) h]
    · rename_i hne
      rw [cholDif, cholDif, cholSum_congr (by omega) h, h j j (.inl (by omega))]

theorem cholFlags_congr {cfg : Cfg} {S : MatReg} {L L' : Cells} {i j : Nat}
    (h : ∀ a b, Earlier a b i j → L.cell a b = L'.cell a b) : cholFlags cfg S L i j = cholFlags cfg S L' i j := by
  unfold cholFlags
  split
  · rfl
  · rename_i hij
    split
    · rename_i e; subst e
      simp only [cholDif, cholSum_congr (le_refl _) h, cholCell_congr h]
    · rename_i hne
      simp only [cholDif, cholSum_congr (Nat.le_of_not_lt hij) h, cholCell_congr h]

/-- What holds after the steps before `(i, j)`: every cell so far is the one its step computes from the array as it
is now, and the flags are the first ones with those of the steps so far. -/
structure CholDone (cfg : Cfg) (S : MatReg) (n i j : Nat) (w : CholWork) : Prop where
  cells : ∀ a b, b < n → Earlier a b i j → w.l.cell a b = cholCell cfg S w.l a b
  raised : ∀ a b, b < n → Earlier a b i j → w.e ||| cholFlags cfg S w.l a b = w.e
  first : w.e ||| (cholInit S).e = w.e
  only : ∀ bit, w.e.getLsbD bit = true → (cholInit S).e.getLsbD bit = true ∨
    ∃ a b, b < n ∧ Earlier a b i j ∧ (cholFlags cfg S w.l a b).getLsbD bit = true

theorem or_absorb_right {a b c : Errors} (h : a ||| b = a) : a ||| c ||| b = a ||| c := by
  rw [BitVec.or_assoc, BitVec.or_comm c b, ← BitVec.or_assoc, h]

/-- A step keeps it, for a place inside the store. -/
theorem CholDone.step {cfg : Cfg} {S : MatReg} {n i j : Nat} {w : CholWork} (h : CholDone cfg S n i j w)
    (hi : i < 8) (hj : j < n) (hn : n ≤ 8) : CholDone cfg S n i (j + 1) (w.step cfg S i j) := by
  rw [CholWork.step_eq]
  have keep : ∀ a b, Earlier a b i j → (w.l.setCell i j (cholCell cfg S w.l i j)).cell a b = w.l.cell a b := by
    intro a b hab
    refine Cells.cell_setCell_ne _ _ ?_
    rintro ⟨rfl, rfl⟩
    rcases hab with hab | ⟨-, hab⟩ <;> omega
  have trans : ∀ {a b c d}, Earlier c d a b → Earlier a b i j → Earlier c d i j := by
    intro a b c d h1 h2
    rcases h1 with h1 | ⟨rfl, h1⟩ <;> rcases h2 with h2 | ⟨rfl, h2⟩
    · exact .inl (h1.trans h2)
    · exact .inl h1
    · exact .inl h2
    · exact .inr ⟨rfl, h1.trans h2⟩
  have split : ∀ {a b}, Earlier a b i (j + 1) → Earlier a b i j ∨ (a = i ∧ b = j) := by
    intro a b hab
    rcases hab with hab | ⟨rfl, hab⟩
    · exact .inl (.inl hab)
    · rcases Nat.lt_or_eq_of_le (Nat.le_of_lt_succ hab) with hb | rfl
      · exact .inl (.inr ⟨rfl, hb⟩)
      · exact .inr ⟨rfl, rfl⟩
  constructor
  · intro a b hb hab
    rcases split hab with hab | ⟨rfl, rfl⟩
    · rw [keep a b hab, h.cells a b hb hab]
      exact cholCell_congr fun c d hcd => (keep c d (trans hcd hab)).symm
    · rw [Cells.cell_setCell_self _ _ ⟨hi, by omega⟩]
      exact cholCell_congr fun c d hcd => (keep c d hcd).symm
  · intro a b hb hab
    rcases split hab with hab | ⟨rfl, rfl⟩
    · rw [cholFlags_congr (L' := w.l) fun c d hcd => keep c d (trans hcd hab)]
      exact or_absorb_right (h.raised a b hb hab)
    · rw [cholFlags_congr (L' := w.l) fun c d hcd => keep c d hcd]
      show _ ||| _ ||| _ = _ ||| _
      rw [BitVec.or_assoc, BitVec.or_self]
  · exact or_absorb_right h.first
  · intro bit hbit
    simp only [BitVec.getLsbD_or, Bool.or_eq_true] at hbit
    rcases hbit with hbit | hbit
    · rcases h.only bit hbit with hb | ⟨a, b, hb, hab, hf⟩
      · exact .inl hb
      · refine .inr ⟨a, b, hb, ?_, ?_⟩
        · rcases hab with hab | ⟨rfl, hab⟩
          · exact .inl hab
          · exact .inr ⟨rfl, Nat.lt_succ_of_lt hab⟩
        · rw [cholFlags_congr (L' := w.l) fun c d hcd => keep c d (trans hcd hab)]
          exact hf
    · refine .inr ⟨i, j, hj, .inr ⟨rfl, Nat.lt_succ_self j⟩, ?_⟩
      rw [cholFlags_congr (L' := w.l) fun c d hcd => keep c d hcd]
      exact hbit

/-- What holds after all the loops, for a source whose order fits the store. -/
theorem cholFactor_done (cfg : Cfg) (S : MatReg) (hn : (cholOrder S).toNat ≤ 8) :
    CholDone cfg S (cholOrder S).toNat (cholOrder S).toNat 0 (cholFactor cfg S) := by
  refine foldl_range_induct (fun i w => CholDone cfg S (cholOrder S).toNat i 0 w) ?_ ?_
  · exact ⟨fun a b _ h => by rcases h with h | ⟨-, h⟩ <;> omega,
      fun a b _ h => by rcases h with h | ⟨-, h⟩ <;> omega, BitVec.or_self, fun _ h => .inl h⟩
  · intro i w hi hw
    have hrow : CholDone cfg S (cholOrder S).toNat i (cholOrder S).toNat (w.row cfg S (cholOrder S).toNat i) :=
      foldl_range_induct (fun j w => CholDone cfg S (cholOrder S).toNat i j w) hw
        fun j w hj hw => hw.step (hi.trans_le hn) hj hn
    have conv : ∀ {a b}, b < (cholOrder S).toNat →
        (Earlier a b (i + 1) 0 ↔ Earlier a b i (cholOrder S).toNat) := by
      intro a b hb
      unfold Earlier
      omega
    exact ⟨fun a b hb h => hrow.cells a b hb ((conv hb).1 h), fun a b hb h => hrow.raised a b hb ((conv hb).1 h),
      hrow.first, fun bit hbit => (hrow.only bit hbit).imp id
        fun ⟨a, b, hb, h, hf⟩ => ⟨a, b, hb, (conv hb).2 h, hf⟩⟩

/-- Every cell of the factor is the one its step computes from the factor. -/
theorem cholFactor_cell (cfg : Cfg) (S : MatReg) (hn : (cholOrder S).toNat ≤ 8) {i j : Nat}
    (hi : i < (cholOrder S).toNat) (hj : j < (cholOrder S).toNat) :
    (cholFactor cfg S).l.cell i j = cholCell cfg S (cholFactor cfg S).l i j :=
  (cholFactor_done cfg S hn).cells i j hj (.inl hi)

end Sys2Proof.Machine
end

