-- ==== Sys2Proof/Laws/Decode.lean ====
section
/-! SUPPORT. The fields of a word and the word of the fields are inverse (spec 30_encoding.md R92). -/

namespace Sys2Proof

/-- Bits put side by side, as a sum. -/
theorem toNat_append_eq {n m : Nat} (x : BitVec n) (y : BitVec m) :
    (x ++ y).toNat = x.toNat * 2 ^ m + y.toNat := by
  rw [BitVec.toNat_append, ← Nat.shiftLeft_add_eq_or_of_lt y.isLt, Nat.shiftLeft_eq]

/-- The number a word put together from fields is. -/
theorem Fields.toNat_word (f : Fields) :
    f.word.toNat = ((((f.op.toNat * 2 ^ 4 + f.d.toNat) * 2 ^ 4 + f.a.toNat) * 2 ^ 4 + f.b.toNat) * 2 ^ 4
      + f.e.toNat) * 2 ^ 8 + f.imm.toNat := by
  unfold Fields.word
  simp only [toNat_append_eq]

/-- The fields of a word that was put together from fields are those fields. -/
@[simp] theorem Fields.ofWord_word (f : Fields) : Fields.ofWord f.word = f := by
  have hw := f.toNat_word
  have := f.op.isLt; have := f.d.isLt; have := f.a.isLt
  have := f.b.isLt; have := f.e.isLt; have := f.imm.isLt
  cases f
  simp only [Fields.ofWord, Fields.mk.injEq] at *
  refine ⟨?_, ?_, ?_, ?_, ?_, ?_⟩ <;>
    · apply BitVec.eq_of_toNat_eq
      rw [BitVec.extractLsb'_toNat, hw, Nat.shiftRight_eq_div_pow]
      omega

/-- A word is put together again from its fields: format `C` has no other bits. -/
@[simp] theorem Fields.word_ofWord (w : Word) : (Fields.ofWord w).word = w := by
  apply BitVec.eq_of_toNat_eq
  rw [Fields.toNat_word]
  simp only [Fields.ofWord, BitVec.extractLsb'_toNat, Nat.shiftRight_eq_div_pow]
  have := w.isLt
  omega

@[simp] theorem xregOf_xfield (i : XReg) : xregOf (xfield i) = i := by revert i; decide

@[simp] theorem mregOf_mfield (k : MReg) : mregOf (mfield k) = k := by revert k; decide

@[simp] theorem countOf_ifield (n : Count) : countOf (ifield n) = n := by
  apply Fin.ext
  simp [countOf, ifield]

@[simp] theorem xfield_xregOf (v : BitVec 4) : xfield (xregOf v) = v := by
  apply BitVec.eq_of_toNat_eq
  simp [xfield, xregOf]

theorem mfield_mregOf {v : BitVec 4} (h : v.toNat < 4) : mfield (mregOf v) = v := by
  apply BitVec.eq_of_toNat_eq
  simp [mfield, mregOf]
  omega

@[simp] theorem ifield_countOf (v : BitVec 8) : ifield (countOf v) = v := by
  apply BitVec.eq_of_toNat_eq
  simp [ifield, countOf]

/-- A matrix register number fits its two bits (R96). -/
theorem mfield_lt (k : MReg) : (mfield k).toNat < 4 := by
  have := k.isLt
  simp [mfield]
  omega

@[simp] theorem FieldUse.badZero_zero (v : Nat) : FieldUse.zero.badZero v = (v != 0) := rfl
@[simp] theorem FieldUse.badZero_any (v : Nat) : FieldUse.any.badZero v = false := rfl
@[simp] theorem FieldUse.badZero_mreg (v : Nat) : FieldUse.mreg.badZero v = false := rfl
@[simp] theorem FieldUse.badMReg_zero (v : Nat) : FieldUse.zero.badMReg v = false := rfl
@[simp] theorem FieldUse.badMReg_any (v : Nat) : FieldUse.any.badMReg v = false := rfl
@[simp] theorem FieldUse.badMReg_mreg (v : Nat) : FieldUse.mreg.badMReg v = decide (4 ≤ v) := rfl

@[simp] theorem decide_four_le_mfield (k : MReg) : decide (4 ≤ (mfield k).toNat) = false :=
  decide_eq_false (Nat.not_le.2 (mfield_lt k))

end Sys2Proof
end

