-- ==== Sys2Proof/Laws/Exec.lean ====
section
/-! SUPPORT. What each arm of `exec` is, as an equation. -/

namespace Sys2Proof.Machine

variable (s : State)

theorem exec_mul (d a b : XReg) :
    exec (.mul d a b) s = .next (s.setX d (mul s.cfg (s.getX a) (s.getX b))) := rfl

theorem exec_div (d a b : XReg) :
    exec (.div d a b) s = .next (s.setX d (div s.cfg (s.getX a) (s.getX b))) := rfl

theorem exec_sqrt (d a : XReg) : exec (.sqrt d a) s = .next (s.setX d (sqrt s.cfg (s.getX a))) := rfl

/-- `DOT` outside `AMEM` is rejected (41_dot.md R162). -/
theorem exec_dot_out {d : XReg} {n : Count} (h : s.dotOutOfRange n.val = true) :
    exec (.dot d n) s = .next (s.reject .addrRange (encode (.dot d n))) := by
  show execDot d n s = _
  simp [execDot, h]

/-- `DOT` inside `AMEM` writes its result (41_dot.md R163). -/
theorem exec_dot_in {d : XReg} {n : Count} (h : s.dotOutOfRange n.val = false) :
    exec (.dot d n) s = .next (s.setX d (s.dotResult n.val)) := by
  show execDot d n s = _
  simp [execDot, h]

theorem exec_mmul (d a b : MReg) : exec (.mmul d a b) s = .next (s.matmul .n d a b) := rfl

theorem exec_mmulat (d a b : MReg) : exec (.mmulat d a b) s = .next (s.matmul .at d a b) := rfl

theorem exec_mmulbt (d a b : MReg) : exec (.mmulbt d a b) s = .next (s.matmul .bt d a b) := rfl

/-- `QR` with `q = r` only raises `USEERR` (43_qr.md R191). -/
theorem exec_qr_same (q m : MReg) (n : Count) : exec (.qr q q m n) s = .next (s.qrUseErr q m) := by
  show execQr q q m n s = _
  simp [execQr]

theorem exec_qr_ne {q r : MReg} (h : q ≠ r) (m : MReg) (n : Count) :
    exec (.qr q r m n) s = .next (s.qrRun q r m n.val) := by
  show execQr q r m n s = _
  simp [execQr, h]

theorem exec_chol (d m : MReg) :
    exec (.chol d m) s = .next (s.setMat d (cholStore s.cfg (s.mat m) (s.mat d))) := rfl

end Sys2Proof.Machine
end

