-- ==== Sys2Proof/Laws/Qr.lean ====
section
/-! SUPPORT. `QR`: what each loop of spec 43_qr.md R197 does to the cells of the working arrays, and that no loop
drops a flag. -/

namespace Sys2Proof.Machine

/-! ### Flags are only added -/

/-- The flags `e` are among `f`. -/
abbrev FlagsLe (e f : Errors) : Prop := f ||| e = f

theorem FlagsLe.refl (e : Errors) : FlagsLe e e := BitVec.or_self

theorem FlagsLe.trans {e f g : Errors} (h1 : FlagsLe e f) (h2 : FlagsLe f g) : FlagsLe e g := by
  unfold FlagsLe at *
  rw [← h2, BitVec.or_assoc, h1]

theorem FlagsLe.left (e f : Errors) : FlagsLe e (e ||| f) := by
  unfold FlagsLe
  rw [BitVec.or_assoc, BitVec.or_comm f e, ← BitVec.or_assoc, BitVec.or_self]

theorem FlagsLe.right (e f : Errors) : FlagsLe f (e ||| f) := by
  unfold FlagsLe
  rw [BitVec.or_assoc, BitVec.or_self]

/-- A loop whose body only adds flags only adds flags. -/
theorem flagsLe_foldl {α : Type} {f : QrWork → α → QrWork} (hf : ∀ w a, FlagsLe w.e (f w a).e) (l : List α)
    (w : QrWork) : FlagsLe w.e (l.foldl f w).e := by
  induction l generalizing w with
  | nil => exact .refl _
  | cons a l ih => exact (hf w a).trans (ih (f w a))

theorem QrWork.subtract_flags (cfg : Cfg) (d : Word) (i j : Nat) (w : QrWork) (k : Nat) :
    FlagsLe w.e (w.subtract cfg d i j k).e :=
  (FlagsLe.left _ _).trans (FlagsLe.left _ _)

theorem QrWork.project_flags (cfg : Cfg) (n j : Nat) (w : QrWork) (i : Nat) :
    FlagsLe w.e (w.project cfg n j i).e := by
  unfold QrWork.project
  refine FlagsLe.trans ?_ (FlagsLe.left _ _)
  exact (FlagsLe.left w.e _).trans
    (flagsLe_foldl (QrWork.subtract_flags cfg _ i j) (List.range n) { w with e := w.e ||| _ })

theorem QrWork.pass_flags (cfg : Cfg) (n j : Nat) (w : QrWork) : FlagsLe w.e (w.pass cfg n j).e :=
  flagsLe_foldl (QrWork.project_flags cfg n j) _ w

theorem QrWork.divide_flags (cfg : Cfg) (nrm : Word) (j : Nat) (w : QrWork) (entry : Nat × Word) :
    FlagsLe w.e (w.divide cfg nrm j entry).e :=
  FlagsLe.left _ _

/-- The flags after steps (b) to (e) contain those before and those of the guard. -/
theorem QrWork.normalise_flags (cfg : Cfg) (n j : Nat) (w : QrWork) :
    FlagsLe (w.e ||| (qrNorm cfg (w.q.colCells j n)).e) (w.normalise cfg n j).e := by
  unfold QrWork.normalise
  dsimp only
  split
  · exact FlagsLe.left _ _
  · exact flagsLe_foldl (QrWork.divide_flags cfg _ j) _
      { q := w.q, r := w.r.setCell j j _, e := w.e ||| (qrNorm cfg (w.q.colCells j n)).e }

theorem QrWork.passes_flags (cfg : Cfg) (n j m : Nat) (w : QrWork) :
    FlagsLe w.e ((List.range m).foldl (fun w1 _ => w1.pass cfg n j) w).e :=
  flagsLe_foldl (fun w _ => QrWork.pass_flags cfg n j w) _ w

theorem QrWork.column_flags (cfg : Cfg) (n reorth : Nat) (w : QrWork) (j : Nat) :
    FlagsLe w.e (w.column cfg n reorth j).e :=
  (QrWork.passes_flags cfg n j _ w).trans
    ((FlagsLe.left _ _).trans (QrWork.normalise_flags cfg n j _))

/-- The flags of the source are flags of the results (10_state.md R29). -/
theorem qrFactor_flags (cfg : Cfg) (S : MatReg) (reorth : Nat) : FlagsLe S.errors (qrFactor cfg S reorth).e :=
  flagsLe_foldl (QrWork.column_flags cfg _ reorth) _ (QrWork.init S)

/-! ### The cells that a loop writes -/

/-- The inner loop of step (a): the first `m` cells of column `j` are the differences, all others are kept. -/
theorem QrWork.subtract_loop (cfg : Cfg) (d : Word) {i j m : Nat} (hij : i ≠ j) (hm : m ≤ 8) (hj : j < 8)
    (w : QrWork) :
    (∀ k c, ((List.range m).foldl (QrWork.subtract cfg d i j) w).q.cell k c =
      if c = j ∧ k < m then subOverflow cfg (w.q.cell k j) (mul cfg d (w.q.cell k i)) else w.q.cell k c) ∧
    ((List.range m).foldl (QrWork.subtract cfg d i j) w).r = w.r := by
  refine foldl_range_induct (fun m (w' : QrWork) => (∀ k c, w'.q.cell k c =
      if c = j ∧ k < m then subOverflow cfg (w.q.cell k j) (mul cfg d (w.q.cell k i)) else w.q.cell k c) ∧
      w'.r = w.r) ⟨by simp, rfl⟩ ?_
  rintro x w' hx ⟨hq, hr⟩
  refine ⟨fun k c => ?_, hr⟩
  show (w'.q.setCell x j _).cell k c = _
  rw [Cells.cell_setCell, hq x i, hq x j]
  by_cases h : k = x ∧ c = j
  · obtain ⟨rfl, rfl⟩ := h
    have : k < 8 := by omega
    simp [hij, this, hj]
  · have h1 : ¬ (k = x ∧ c = j ∧ x < 8 ∧ j < 8) := fun hh => h ⟨hh.1, hh.2.1⟩
    rw [if_neg h1, hq]
    have h2 : (c = j ∧ k < x) ↔ (c = j ∧ k < x + 1) := by omega
    simp only [h2]

/-- Step (a) on the columns `j` and `i`. -/
theorem QrWork.project_cells (cfg : Cfg) {n i j : Nat} (hij : i ≠ j) (hn : n ≤ 8) (hj : j < 8) (hi : i < 8)
    (w : QrWork) :
    (∀ k c, (w.project cfg n j i).q.cell k c =
      if c = j ∧ k < n then
        subOverflow cfg (w.q.cell k j)
          (mul cfg (dotsum cfg (w.q.colCells j n) (w.q.colCells i n)) (w.q.cell k i))
      else w.q.cell k c) ∧
    (∀ a b, (w.project cfg n j i).r.cell a b =
      if a = i ∧ b = j then
        addOverflow cfg (w.r.cell i j) (dotsum cfg (w.q.colCells j n) (w.q.colCells i n))
      else w.r.cell a b) := by
  have h := QrWork.subtract_loop cfg (dotsum cfg (w.q.colCells j n) (w.q.colCells i n)) hij hn hj
    { w with e := w.e ||| chk (dotsum cfg (w.q.colCells j n) (w.q.colCells i n)) }
  refine ⟨h.1, fun a b => ?_⟩
  show (Cells.setCell _ i j _).cell a b = _
  rw [Cells.cell_setCell, h.2]
  simp only [hi, hj, and_true]

/-- The sum of step (a) is passed through `chk` (R193). -/
theorem QrWork.project_chk (cfg : Cfg) (n j : Nat) (w : QrWork) (i : Nat) (hi : i < 8) (hj : j < 8) :
    FlagsLe (chk ((w.project cfg n j i).r.cell i j)) (w.project cfg n j i).e := by
  unfold QrWork.project
  dsimp only
  rw [Cells.cell_setCell_self _ _ ⟨hi, hj⟩]
  exact FlagsLe.right _ _

/-- Step (e): the first cells of column `j` are the quotients, all others are kept. -/
theorem QrWork.divide_loop (cfg : Cfg) (nrm : Word) {j : Nat} (hj : j < 8) (f : Nat → Word) {m : Nat} (hm : m ≤ 8)
    (w : QrWork) :
    (∀ k c, (((List.range m).map fun k => (k, f k)).foldl (QrWork.divide cfg nrm j) w).q.cell k c =
      if c = j ∧ k < m then div cfg (f k) nrm else w.q.cell k c) ∧
    (((List.range m).map fun k => (k, f k)).foldl (QrWork.divide cfg nrm j) w).r = w.r := by
  rw [List.foldl_map]
  refine foldl_range_induct (fun m (w' : QrWork) => (∀ k c, w'.q.cell k c =
      if c = j ∧ k < m then div cfg (f k) nrm else w.q.cell k c) ∧ w'.r = w.r) ⟨by simp, rfl⟩ ?_
  rintro x w' hx ⟨hq, hr⟩
  refine ⟨fun k c => ?_, hr⟩
  show (w'.q.setCell x j _).cell k c = _
  rw [Cells.cell_setCell]
  by_cases h : k = x ∧ c = j
  · obtain ⟨rfl, rfl⟩ := h
    have : k < 8 := by omega
    simp [this, hj]
  · have h1 : ¬ (k = x ∧ c = j ∧ x < 8 ∧ j < 8) := fun hh => h ⟨hh.1, hh.2.1⟩
    rw [if_neg h1, hq]
    have h2 : (c = j ∧ k < x) ↔ (c = j ∧ k < x + 1) := by omega
    simp only [h2]

/-! ### The guard -/

/-- The guard gives a column of the same length. -/
@[simp] theorem qrNorm_length (cfg : Cfg) (col : List Word) : (qrNorm cfg col).colp.length = col.length := by
  unfold qrNorm
  dsimp only
  split
  · simp
  · split <;> simp

/-- The norm in the original scale is passed through `chk` on every path (R194). -/
theorem qrNorm_chk (cfg : Cfg) (col : List Word) : FlagsLe (chk (qrNorm cfg col).rjj) (qrNorm cfg col).e := by
  unfold qrNorm
  dsimp only
  split
  · exact FlagsLe.right _ _
  · split
    · exact FlagsLe.right _ _
    · exact FlagsLe.refl _

/-- Steps (b) to (e) on column `j`: the diagonal cell of `R`, and the column of `Q`. -/
theorem QrWork.normalise_cells (cfg : Cfg) {n j : Nat} (hn : n ≤ 8) (hj : j < 8) (w : QrWork) :
    (∀ k c, (w.normalise cfg n j).q.cell k c =
      if c = j ∧ k < n ∧ qrSingular (qrNorm cfg (w.q.colCells j n)).rjj = false then
        div cfg ((qrNorm cfg (w.q.colCells j n)).colp.getD k 0) (qrNorm cfg (w.q.colCells j n)).nrm
      else w.q.cell k c) ∧
    (∀ a b, (w.normalise cfg n j).r.cell a b =
      if a = j ∧ b = j then (qrNorm cfg (w.q.colCells j n)).rjj else w.r.cell a b) := by
  have hr : ∀ a b, (w.r.setCell j j (qrNorm cfg (w.q.colCells j n)).rjj).cell a b =
      if a = j ∧ b = j then (qrNorm cfg (w.q.colCells j n)).rjj else w.r.cell a b := by
    intro a b
    rw [Cells.cell_setCell]
    simp only [hj, and_true]
  unfold QrWork.normalise
  dsimp only
  split
  · rename_i hs
    refine ⟨fun k c => ?_, hr⟩
    simp [hs]
  · rename_i hs
    have hl : (qrNorm cfg (w.q.colCells j n)).colp.length = n := by simp [Cells.colCells]
    have hz : (List.range n).zip (qrNorm cfg (w.q.colCells j n)).colp =
        (List.range n).map fun k => (k, (qrNorm cfg (w.q.colCells j n)).colp.getD k 0) := by
      refine List.ext_getElem (by simp [hl]) fun k h1 h2 => ?_
      have : k < (qrNorm cfg (w.q.colCells j n)).colp.length := by rw [hl]; simpa using h2
      simp only [List.getElem_zip, List.getElem_range, List.getElem_map, List.getD_eq_getElem?_getD,
        List.getElem?_eq_getElem this, Option.getD_some]
    rw [hz]
    have h := QrWork.divide_loop cfg (qrNorm cfg (w.q.colCells j n)).nrm hj
      (fun k => (qrNorm cfg (w.q.colCells j n)).colp.getD k 0) hn
      { q := w.q, r := w.r.setCell j j (qrNorm cfg (w.q.colCells j n)).rjj,
        e := w.e ||| (qrNorm cfg (w.q.colCells j n)).e }
    refine ⟨fun k c => ?_, fun a b => ?_⟩
    · rw [h.1 k c]
      have hs' : qrSingular (qrNorm cfg (w.q.colCells j n)).rjj = false := by simpa using hs
      simp only [hs', and_true]
    · rw [h.2]
      exact hr a b

end Sys2Proof.Machine
end

