-- ==== Sys2Proof/Laws/GramSchmidt.lean ====
section
/-! SUPPORT. The loops of `QR` on column `j` are the Gram-Schmidt passes on lists, and its flags are those of the
words checked on the way (spec 43_qr.md R193 to R196). -/

namespace Sys2Proof.Machine

/-! ### The flag of a list of checked words -/

@[simp] theorem chkAll_nil : chkAll [] = 0 := rfl

@[simp] theorem chkAll_cons (x : Word) (l : List Word) : chkAll (x :: l) = chk x ||| chkAll l := by
  unfold chkAll chk Errors.raiseIf
  rw [List.any_cons]
  cases x == OVF <;> cases l.any (· == OVF) <;> rfl

@[simp] theorem chkAll_append (l l' : List Word) : chkAll (l ++ l') = chkAll l ||| chkAll l' := by
  induction l with
  | nil => simp
  | cons x l ih => simp [ih, BitVec.or_assoc]

/-- A list of checked words raises `OVERFLOW`, exactly when the sentinel is among them (42_matrix_multiply.md R171).
-/
theorem chkAll_getLsbD (l : List Word) (bit : Nat) :
    (chkAll l).getLsbD bit = true ↔ bit = 0 ∧ (0x80000000 : Word) ∈ l := by
  have h : l.any (· == OVF) = true ↔ (0x80000000 : Word) ∈ l := by
    rw [List.any_eq_true]
    exact ⟨fun ⟨x, hx, he⟩ => (eq_of_beq he : x = 0x80000000) ▸ hx, fun hx => ⟨_, hx, rfl⟩⟩
  unfold chkAll Errors.raiseIf
  split
  · rename_i hl
    rw [Errors.overflow]
    have hm := h.1 hl
    rcases bit with _ | _ | _ | _ | _ | bit <;> simp
    exact hm
  · rename_i hl
    refine ⟨fun hb => ?_, fun hb => absurd (h.2 hb.2) hl⟩
    simp at hb

/-! ### The guard and the column it leaves -/

/-- The words that the guard passes through `chk` (R194), as a list. -/
def guardWords (cfg : Cfg) (v : List Word) : List Word :=
  let g := qrNorm cfg v
  let scaled := g.colp ++ [dotsum cfg g.colp g.colp, g.nrm, g.rjj]
  if dotsum cfg v v = OVF then scaled
  else if -256 < s32 (sqrt cfg (dotsum cfg v v)) ∧ s32 (sqrt cfg (dotsum cfg v v)) < 256 then
    sqrt cfg (dotsum cfg v v) :: scaled
  else [sqrt cfg (dotsum cfg v v)]

theorem qrNorm_errors (cfg : Cfg) (v : List Word) : (qrNorm cfg v).e = chkAll (guardWords cfg v) := by
  unfold guardWords qrNorm
  dsimp only
  split
  · simp [BitVec.or_assoc]
  · split <;> simp [BitVec.or_assoc]

/-- The guard of the machine gives what R194 writes, in each of its three cases. -/
theorem qrNorm_gives (cfg : Cfg) (v : List Word) :
    GuardGives cfg v (qrNorm cfg v).colp (qrNorm cfg v).nrm (qrNorm cfg v).rjj := by
  unfold GuardGives ScaledUp qrNorm
  dsimp only
  by_cases h : dotsum cfg v v = OVF
  · have h' : dotsum cfg v v = 0x80000000 := h
    simp [h', K256]
  · have h' : dotsum cfg v v ≠ 0x80000000 := h
    by_cases h2 : -256 < s32 (sqrt cfg (dotsum cfg v v)) ∧ s32 (sqrt cfg (dotsum cfg v v)) < 256
    · rw [if_neg h, if_pos h2]
      exact ⟨fun hh => absurd hh h', fun _ => ⟨rfl, rfl, rfl⟩, fun _ hh => absurd ⟨h', h2⟩ hh⟩
    · rw [if_neg h, if_neg h2]
      exact ⟨fun hh => absurd hh h', fun hh => absurd hh.2 h2, fun _ _ => ⟨rfl, rfl, rfl⟩⟩

/-- The three cases of R194 leave nothing open. -/
theorem GuardGives.unique {cfg : Cfg} {v colp colp' : List Word} {nrm nrm' rjj rjj' : Word}
    (h : GuardGives cfg v colp nrm rjj) (h' : GuardGives cfg v colp' nrm' rjj') :
    colp = colp' ∧ nrm = nrm' ∧ rjj = rjj' := by
  obtain ⟨a, b, c⟩ := h
  obtain ⟨a', b', c'⟩ := h'
  by_cases h1 : dotsum cfg v v = 0x80000000
  · obtain ⟨rfl, rfl, rfl⟩ := a h1
    obtain ⟨rfl, rfl, rfl⟩ := a' h1
    exact ⟨rfl, rfl, rfl⟩
  · by_cases h2 : ScaledUp cfg v
    · obtain ⟨rfl, rfl, rfl⟩ := b h2
      obtain ⟨rfl, rfl, rfl⟩ := b' h2
      exact ⟨rfl, rfl, rfl⟩
    · obtain ⟨rfl, rfl, rfl⟩ := c h1 h2
      obtain ⟨rfl, rfl, rfl⟩ := c' h1 h2
      exact ⟨rfl, rfl, rfl⟩

/-- The checked words of the guard are those of R194. -/
theorem mem_guardWords (cfg : Cfg) (v : List Word) (x : Word) :
    x ∈ guardWords cfg v ↔ GuardChecks cfg v (qrNorm cfg v).colp (qrNorm cfg v).nrm (qrNorm cfg v).rjj x := by
  unfold guardWords GuardChecks ScaledUp
  by_cases h : dotsum cfg v v = OVF
  · have h' : dotsum cfg v v = 0x80000000 := h
    simp [h']
  · have h' : dotsum cfg v v ≠ 0x80000000 := h
    by_cases h2 : -256 < s32 (sqrt cfg (dotsum cfg v v)) ∧ s32 (sqrt cfg (dotsum cfg v v)) < 256
    · dsimp only
      rw [if_neg h, if_pos h2]
      have h3 : ¬ dotsum cfg v v = 2147483648#32 := h
      simp [h3, h2.1, h2.2]
    · dsimp only
      rw [if_neg h, if_neg h2, List.mem_singleton]
      exact ⟨fun hx => .inl ⟨h', hx⟩, fun hx => hx.elim (·.2) fun hh => hh.1.elim (absurd · h') fun s => absurd s.2 h2⟩

/-- Steps (d) and (e) (R195, R196): the column that the engine leaves, from what the guard gave. -/
def gsColumn (cfg : Cfg) (v : List Word) : List Word :=
  if qrSingular (qrNorm cfg v).rjj then v
  else (qrNorm cfg v).colp.map fun u => div cfg u (qrNorm cfg v).nrm

/-- The flags of steps (b) to (e) on the column `v` (R194 to R196). -/
def gsFlags (cfg : Cfg) (v : List Word) : Errors :=
  chkAll (guardWords cfg v) |||
    if qrSingular (qrNorm cfg v).rjj then Errors.singular
    else chkAll ((qrNorm cfg v).colp.map fun u => div cfg u (qrNorm cfg v).nrm)

/-! ### The flags of the loops -/

/-- The inner loop of step (a): the products and the differences are checked. -/
theorem QrWork.subtract_errors (cfg : Cfg) (d : Word) {i j m : Nat} (hij : i ≠ j) (hm : m ≤ 8) (hj : j < 8)
    (w : QrWork) :
    ((List.range m).foldl (QrWork.subtract cfg d i j) w).e =
      w.e ||| chkAll ((w.q.colCells i m).map (mul cfg d)) |||
        chkAll (List.zipWith (subOverflow cfg) (w.q.colCells j m) ((w.q.colCells i m).map (mul cfg d))) := by
  induction m with
  | zero => simp [Cells.colCells]
  | succ m ih =>
    obtain ⟨hq, -⟩ := QrWork.subtract_loop cfg d hij (show m ≤ 8 by omega) hj w
    rw [List.range_succ, List.foldl_append]
    show (_ ||| chk (mul cfg d (Cells.cell _ m i)) ||| chk (subOverflow cfg (Cells.cell _ m j) _)) = _
    rw [hq m i, hq m j, if_neg (by omega), if_neg (by omega), ih (by omega)]
    simp only [Cells.colCells, List.range_succ, List.map_append, List.map_cons, List.map_nil]
    rw [List.zipWith_append (by simp), chkAll_append, chkAll_append]
    simp only [List.zipWith_cons_cons, List.zipWith_nil_left, chkAll_cons, chkAll_nil]
    ac_rfl

/-- Step (a) on the columns `j` and `i`: the words of R193 are checked. -/
theorem QrWork.project_errors (cfg : Cfg) {n i j : Nat} (hij : i ≠ j) (hn : n ≤ 8) (hj : j < 8) (w : QrWork) :
    (w.project cfg n j i).e =
      w.e ||| chkAll (gsPassWords cfg [w.q.colCells i n] [w.r.cell i j] (w.q.colCells j n)) := by
  unfold QrWork.project
  dsimp only
  rw [QrWork.subtract_errors cfg _ hij hn hj, (QrWork.subtract_loop cfg _ hij hn hj _).2]
  simp [gsPassWords, BitVec.or_assoc]

/-- Step (e): the quotients are checked. -/
theorem QrWork.divide_errors (cfg : Cfg) (nrm : Word) (j : Nat) (l : List (Nat × Word)) (w : QrWork) :
    (l.foldl (QrWork.divide cfg nrm j) w).e = w.e ||| chkAll (l.map fun entry => div cfg entry.2 nrm) := by
  induction l generalizing w with
  | nil => simp
  | cons a l ih =>
    rw [List.foldl_cons, ih]
    simp [QrWork.divide, BitVec.or_assoc]

/-- Steps (b) to (e): the flags. -/
theorem QrWork.normalise_errors (cfg : Cfg) (n j : Nat) (w : QrWork) :
    (w.normalise cfg n j).e = w.e ||| gsFlags cfg (w.q.colCells j n) := by
  unfold QrWork.normalise gsFlags
  dsimp only
  rw [qrNorm_errors]
  split
  · exact BitVec.or_assoc ..
  · rw [QrWork.divide_errors, ← BitVec.or_assoc]
    congr 2
    have hl : (qrNorm cfg (w.q.colCells j n)).colp.length = n := by simp [Cells.colCells]
    conv_rhs => rw [← List.map_snd_zip (l₁ := List.range n) (l₂ := (qrNorm cfg (w.q.colCells j n)).colp)
      (by simp [hl])]
    rw [List.map_map]
    rfl

/-! ### The passes -/

/-- One more column in a pass: its words. -/
theorem gsPassWords_concat (cfg : Cfg) (qs : List (List Word)) (rs : List Word) (q : List Word) (r : Word)
    (v : List Word) (hl : qs.length = rs.length) :
    chkAll (gsPassWords cfg (qs ++ [q]) (rs ++ [r]) v) =
      chkAll (gsPassWords cfg qs rs v) ||| chkAll (gsPassWords cfg [q] [r] (gsPass cfg qs rs v).1) := by
  induction qs generalizing rs v with
  | nil =>
    cases rs with
    | nil => simp [gsPassWords, gsPass]
    | cons => cases hl
  | cons q' qs ih =>
    cases rs with
    | nil => cases hl
    | cons r' rs =>
      have hl' : qs.length = rs.length := by simpa using hl
      rw [List.cons_append, List.cons_append, gsPassWords, gsPassWords, gsPass]
      dsimp only
      simp only [chkAll_append, chkAll_cons, ih rs _ hl', BitVec.or_assoc]

/-- One more column in a pass. -/
theorem gsPass_concat (cfg : Cfg) (qs : List (List Word)) (rs : List Word) (q : List Word) (r : Word)
    (v : List Word) (hl : qs.length = rs.length) :
    gsPass cfg (qs ++ [q]) (rs ++ [r]) v =
      (List.zipWith (subOverflow cfg) (gsPass cfg qs rs v).1
          (q.map (mul cfg (dotsum cfg (gsPass cfg qs rs v).1 q))),
        (gsPass cfg qs rs v).2 ++ [addOverflow cfg r (dotsum cfg (gsPass cfg qs rs v).1 q)]) := by
  induction qs generalizing rs v with
  | nil =>
    cases rs with
    | nil => rfl
    | cons => cases hl
  | cons q' qs ih =>
    cases rs with
    | nil => cases hl
    | cons r' rs =>
      have hl' : qs.length = rs.length := by simpa using hl
      simp only [List.cons_append, gsPass, ih rs _ hl']

/-- One pass of step (a) on column `j`. -/
theorem QrWork.pass_spec (cfg : Cfg) {n j : Nat} (hn : n ≤ 8) (hj : j < 8) (w : QrWork) :
    (∀ k c, ¬ (c = j ∧ k < n) → (w.pass cfg n j).q.cell k c = w.q.cell k c) ∧
    (∀ a b, ¬ (b = j ∧ a < j) → (w.pass cfg n j).r.cell a b = w.r.cell a b) ∧
    gsPass cfg ((List.range j).map fun c => w.q.colCells c n) ((List.range j).map fun a => w.r.cell a j)
        (w.q.colCells j n) =
      ((w.pass cfg n j).q.colCells j n, (List.range j).map fun a => (w.pass cfg n j).r.cell a j) ∧
    (w.pass cfg n j).e = w.e ||| chkAll (gsPassWords cfg ((List.range j).map fun c => w.q.colCells c n)
      ((List.range j).map fun a => w.r.cell a j) (w.q.colCells j n)) := by
  unfold QrWork.pass
  suffices h : ∀ i, i ≤ j →
      let w' := (List.range i).foldl (QrWork.project cfg n j) w
      (∀ k c, ¬ (c = j ∧ k < n) → w'.q.cell k c = w.q.cell k c) ∧
      (∀ a b, ¬ (b = j ∧ a < i) → w'.r.cell a b = w.r.cell a b) ∧
      gsPass cfg ((List.range i).map fun c => w.q.colCells c n) ((List.range i).map fun a => w.r.cell a j)
          (w.q.colCells j n) = (w'.q.colCells j n, (List.range i).map fun a => w'.r.cell a j) ∧
      w'.e = w.e ||| chkAll (gsPassWords cfg ((List.range i).map fun c => w.q.colCells c n)
        ((List.range i).map fun a => w.r.cell a j) (w.q.colCells j n)) from
    h j (le_refl j)
  intro i
  induction i with
  | zero => intro _; exact ⟨fun _ _ _ => rfl, fun _ _ _ => rfl, rfl, BitVec.or_zero.symm⟩
  | succ i ih =>
    intro hi
    obtain ⟨hq, hr, hg, he⟩ := ih (by omega)
    rw [List.range_succ, List.foldl_append]
    dsimp only [List.foldl_cons, List.foldl_nil] at *
    obtain ⟨pq, pr⟩ := QrWork.project_cells cfg (show i ≠ j by omega) hn hj (by omega)
      ((List.range i).foldl (QrWork.project cfg n j) w)
    have hcol : ((List.range i).foldl (QrWork.project cfg n j) w).q.colCells i n = w.q.colCells i n :=
      List.map_congr_left fun k _ => hq k i (by omega)
    refine ⟨fun k c h => ?_, fun a b h => ?_, ?_, ?_⟩
    rotate_right
    · rw [QrWork.project_errors cfg (show i ≠ j by omega) hn hj, he, hcol, hr i j (by omega), List.map_append,
        List.map_append, List.map_singleton, List.map_singleton, gsPassWords_concat _ _ _ _ _ _ (by simp), hg,
        BitVec.or_assoc]
    · rw [pq, if_neg h, hq k c h]
    · rw [pr, if_neg (by omega), hr a b (by omega)]
    · rw [List.map_append, List.map_append, List.map_singleton, List.map_singleton,
        gsPass_concat _ _ _ _ _ _ (by simp), hg, List.map_append, List.map_singleton]
      refine Prod.ext ?_ ?_
      · show List.zipWith _ (Cells.colCells _ j n) _ = Cells.colCells _ j n
        refine List.ext_getElem (by simp [Cells.colCells]) fun k h1 h2 => ?_
        have hk : k < n := by simpa [Cells.colCells] using h2
        simp only [Cells.colCells, List.getElem_zipWith, List.getElem_map, List.getElem_range]
        rw [pq, if_pos ⟨rfl, hk⟩, hcol]
        show _ = subOverflow cfg _ (mul cfg _ (Cells.cell _ k i))
        rw [hq k i (by omega)]
        rfl
      · dsimp only
        congr 1
        · exact List.map_congr_left fun a ha => by
            rw [pr, if_neg]
            have := List.mem_range.1 ha
            omega
        · rw [pr, if_pos ⟨rfl, rfl⟩, hcol, hr i j (by omega)]

/-- Any number of passes on column `j`. -/
theorem QrWork.passes_spec (cfg : Cfg) {n j : Nat} (hn : n ≤ 8) (hj : j < 8) (m : Nat) (w : QrWork) :
    (∀ k c, ¬ (c = j ∧ k < n) →
      ((List.range m).foldl (fun w1 _ => w1.pass cfg n j) w).q.cell k c = w.q.cell k c) ∧
    (∀ a b, ¬ (b = j ∧ a < j) →
      ((List.range m).foldl (fun w1 _ => w1.pass cfg n j) w).r.cell a b = w.r.cell a b) ∧
    gsPasses cfg ((List.range j).map fun c => w.q.colCells c n) m ((List.range j).map fun a => w.r.cell a j)
        (w.q.colCells j n) =
      (((List.range m).foldl (fun w1 _ => w1.pass cfg n j) w).q.colCells j n,
        (List.range j).map fun a => ((List.range m).foldl (fun w1 _ => w1.pass cfg n j) w).r.cell a j) ∧
    ((List.range m).foldl (fun w1 _ => w1.pass cfg n j) w).e =
      w.e ||| chkAll (gsPassesWords cfg ((List.range j).map fun c => w.q.colCells c n) m
        ((List.range j).map fun a => w.r.cell a j) (w.q.colCells j n)) := by
  have hlen : ∀ m (f : QrWork → QrWork) (w : QrWork),
      (List.range (m + 1)).foldl (fun w1 _ => f w1) w = (List.range m).foldl (fun w1 _ => f w1) (f w) := by
    intro m f w
    rw [List.range_succ_eq_map, List.foldl_cons, List.foldl_map]
  induction m generalizing w with
  | zero => exact ⟨fun _ _ _ => rfl, fun _ _ _ => rfl, rfl, BitVec.or_zero.symm⟩
  | succ m ih =>
    rw [hlen]
    obtain ⟨hq, hr, hg, he⟩ := QrWork.pass_spec cfg hn hj w
    obtain ⟨iq, ir, ig, ie⟩ := ih (w.pass cfg n j)
    have hcols : ((List.range j).map fun c => w.q.colCells c n) =
        (List.range j).map fun c => (w.pass cfg n j).q.colCells c n :=
      List.map_congr_left fun c hc => List.map_congr_left fun k _ =>
        (hq k c (by have := List.mem_range.1 hc; omega)).symm
    refine ⟨fun k c h => (iq k c h).trans (hq k c h), fun a b h => (ir a b h).trans (hr a b h), ?_, ?_⟩
    · show gsPasses cfg _ m (gsPass cfg _ _ _).2 (gsPass cfg _ _ _).1 = _
      rw [hg, hcols]
      exact ig
    · rw [ie, he, gsPassesWords, chkAll_append, hg, hcols, BitVec.or_assoc]

/-- The whole body of the loop over the columns, on column `j` (R197). -/
theorem QrWork.column_spec (cfg : Cfg) {n j : Nat} (reorth : Nat) (hn : n ≤ 8) (hj : j < 8) (w : QrWork) :
    let g := gsPasses cfg ((List.range j).map fun c => w.q.colCells c n) (reorth + 1)
      ((List.range j).map fun a => w.r.cell a j) (w.q.colCells j n)
    (∀ k c, ¬ (c = j ∧ k < n) → (w.column cfg n reorth j).q.cell k c = w.q.cell k c) ∧
    (∀ a b, ¬ (b = j ∧ a ≤ j) → (w.column cfg n reorth j).r.cell a b = w.r.cell a b) ∧
    ((List.range j).map fun a => (w.column cfg n reorth j).r.cell a j) = g.2 ∧
    (w.column cfg n reorth j).r.cell j j = (qrNorm cfg g.1).rjj ∧
    (w.column cfg n reorth j).q.colCells j n = gsColumn cfg g.1 ∧
    (w.column cfg n reorth j).e = w.e |||
      (chkAll (gsPassesWords cfg ((List.range j).map fun c => w.q.colCells c n) (reorth + 1)
        ((List.range j).map fun a => w.r.cell a j) (w.q.colCells j n)) ||| gsFlags cfg g.1) := by
  obtain ⟨hq, hr, hg, he⟩ := QrWork.passes_spec cfg hn hj (reorth + 1) w
  rw [hg]
  obtain ⟨nq, nr⟩ := QrWork.normalise_cells cfg hn hj
    ((List.range (reorth + 1)).foldl (fun w1 _ => w1.pass cfg n j) w)
  unfold QrWork.column
  refine ⟨fun k c h => ?_, fun a b h => ?_, ?_, ?_, ?_, ?_⟩
  rotate_right
  · rw [QrWork.normalise_errors, he, BitVec.or_assoc]
  · rw [nq, if_neg (fun hh => h ⟨hh.1, hh.2.1⟩), hq k c h]
  · rw [nr, if_neg (by omega), hr a b (by omega)]
  · refine List.map_congr_left fun a ha => ?_
    have := List.mem_range.1 ha
    rw [nr, if_neg (by omega)]
  · rw [nr, if_pos ⟨rfl, rfl⟩]
  · unfold gsColumn
    split
    · rename_i hs
      refine List.map_congr_left fun k hk => ?_
      rw [nq, if_neg]
      intro hh
      rw [hs] at hh
      exact Bool.noConfusion hh.2.2
    · rename_i hs
      refine List.ext_getElem (by simp [Cells.colCells]) fun k h1 h2 => ?_
      have hk : k < n := by simpa [Cells.colCells] using h1
      have hs' : qrSingular (qrNorm cfg
          (((List.range (reorth + 1)).foldl (fun w1 _ => w1.pass cfg n j) w).q.colCells j n)).rjj = false := by
        simpa using hs
      simp only [Cells.colCells, List.getElem_map, List.getElem_range]
      rw [nq, if_pos ⟨rfl, hk, hs'⟩]
      congr 1
      have hl : k < (qrNorm cfg
          (((List.range (reorth + 1)).foldl (fun w1 _ => w1.pass cfg n j) w).q.colCells j n)).colp.length := by
        simpa [Cells.colCells] using hk
      rw [List.getD_eq_getElem?_getD, List.getElem?_eq_getElem hl, Option.getD_some]
      rfl

/-- The flags that column `c` of the source raises, put through the steps against the earlier columns of `Q`. -/
def qrColumnFlags (cfg : Cfg) (S : MatReg) (reorth : Nat) (Q : Cells) (c : Nat) : Errors :=
  chkAll (gsPassesWords cfg ((List.range c).map fun b => Q.colCells b S.rows.toNat) (reorth + 1)
      (List.replicate c 0) (Cells.colCells S.data c S.rows.toNat)) |||
    gsFlags cfg (gsPasses cfg ((List.range c).map fun b => Q.colCells b S.rows.toNat) (reorth + 1)
      (List.replicate c 0) (Cells.colCells S.data c S.rows.toNat)).1

/-- What holds of the working arrays when the columns before `j` are done: those columns of `Q` and of `R` satisfy
the steps, the other columns are as at the start, `R` is zero below the diagonal, and the flags are the source's
with those of the columns done. -/
structure QrDone (cfg : Cfg) (S : MatReg) (reorth j : Nat) (w : QrWork) : Prop where
  rest : ∀ k c, j ≤ c → w.q.cell k c = S.cell k c
  zeros : ∀ a b, b < a ∨ j ≤ b → w.r.cell a b = 0
  steps : ∀ c, c < j →
    let g := gsPasses cfg ((List.range c).map fun b => w.q.colCells b S.rows.toNat) (reorth + 1)
      (List.replicate c 0) (Cells.colCells S.data c S.rows.toNat)
    ((List.range c).map fun a => w.r.cell a c) = g.2 ∧ w.r.cell c c = (qrNorm cfg g.1).rjj ∧
      w.q.colCells c S.rows.toNat = gsColumn cfg g.1
  flags : ∀ bit, w.e.getLsbD bit = true ↔ S.errors.getLsbD bit = true ∨
    ∃ c, c < j ∧ (qrColumnFlags cfg S reorth w.q c).getLsbD bit = true

/-- The factorisation, column by column (R192 to R197). -/
theorem qrFactor_done (cfg : Cfg) (S : MatReg) (reorth : Nat) (hr : S.rows.toNat ≤ 8) (hc : S.cols.toNat ≤ 8) :
    QrDone cfg S reorth S.cols.toNat (qrFactor cfg S reorth) := by
  refine foldl_range_induct (fun j (w : QrWork) => QrDone cfg S reorth j w) ?_ ?_
  · exact ⟨fun _ _ _ => rfl, fun a b _ => Cells.cell_replicate a b, fun c h => absurd h (Nat.not_lt_zero c),
      fun bit => ⟨.inl, fun h => h.elim id fun ⟨c, hc, _⟩ => absurd hc (Nat.not_lt_zero c)⟩⟩
  · intro j w hj h
    obtain ⟨cq, cr, c1, c2, c3, ce⟩ := QrWork.column_spec cfg reorth hr (hj.trans_le hc) w
    have hcol : ∀ c, c ≠ j → (w.column cfg S.rows.toNat reorth j).q.colCells c S.rows.toNat =
        w.q.colCells c S.rows.toNat := fun c hne => List.map_congr_left fun k _ => cq k c (by omega)
    have hcols : ∀ c, c ≤ j →
        ((List.range c).map fun b => (w.column cfg S.rows.toNat reorth j).q.colCells b S.rows.toNat) =
          (List.range c).map fun b => w.q.colCells b S.rows.toNat := fun c hcj =>
      List.map_congr_left fun b hb => hcol b (by have := List.mem_range.1 hb; omega)
    have hz : ((List.range j).map fun a => w.r.cell a j) = List.replicate j 0 := by
      refine List.ext_getElem (by simp) fun a h1 h2 => ?_
      simp only [List.getElem_map, List.getElem_range, List.getElem_replicate]
      exact h.zeros a j (.inr (le_refl j))
    have hs : w.q.colCells j S.rows.toNat = Cells.colCells S.data j S.rows.toNat :=
      List.map_congr_left fun k _ => h.rest k j (le_refl j)
    rw [hz, hs] at c1 c2 c3 ce
    refine ⟨fun k c hjc => ?_, fun a b hab => ?_, fun c hcj => ?_, fun bit => ?_⟩
    · rw [cq k c (by omega), h.rest k c (by omega)]
    · rw [cr a b (by omega), h.zeros a b (by omega)]
    · dsimp only
      rw [hcols c (by omega)]
      rcases Nat.lt_or_eq_of_le (Nat.le_of_lt_succ hcj) with hlt | rfl
      · obtain ⟨s1, s2, s3⟩ := h.steps c hlt
        refine ⟨?_, (cr c c (by omega)).trans s2, (hcol c (by omega)).trans s3⟩
        rw [← s1]
        exact List.map_congr_left fun a _ => cr a c (by omega)
      · exact ⟨c1, c2, c3⟩
    · have hf : ∀ c, c ≤ j → qrColumnFlags cfg S reorth (w.column cfg S.rows.toNat reorth j).q c =
          qrColumnFlags cfg S reorth w.q c := fun c hcj => by
        unfold qrColumnFlags
        rw [hcols c hcj]
      have hj' : (w.column cfg S.rows.toNat reorth j).e = w.e ||| qrColumnFlags cfg S reorth w.q j := ce
      rw [hj', BitVec.getLsbD_or, Bool.or_eq_true, h.flags bit, or_assoc]
      refine or_congr_right ⟨?_, ?_⟩
      · rintro (⟨c, hcj, hb⟩ | hb)
        · exact ⟨c, by omega, (hf c (by omega)).symm ▸ hb⟩
        · exact ⟨j, Nat.lt_succ_self j, (hf j (le_refl j)).symm ▸ hb⟩
      · rintro ⟨c, hcj, hb⟩
        rw [hf c (by omega)] at hb
        rcases Nat.lt_or_eq_of_le (Nat.le_of_lt_succ hcj) with hlt | rfl
        · exact .inl ⟨c, hlt, hb⟩
        · exact .inr hb

end Sys2Proof.Machine
end

