-- ==== Sys2Proof/Laws/Memory.lean ====
section
/-! SUPPORT. The array memory: a read after a write, and the canonical form. -/

namespace Sys2Proof.Machine

@[simp] theorem Memory.lookup_write_self (m : Memory) (i : Nat) (v : Word) :
    Memory.lookup (Memory.write m i v) i = some v := by
  induction m with
  | nil => simp [Memory.write, Memory.lookup]
  | cons cell rest ih =>
    obtain ⟨j, w⟩ := cell
    unfold Memory.write
    split
    · simp [Memory.lookup]
    · split
      · simp [Memory.lookup]
      · simp [Memory.lookup, *]

theorem Memory.lookup_write_ne (m : Memory) {i j : Nat} (v : Word) (h : j ≠ i) :
    Memory.lookup (Memory.write m i v) j = Memory.lookup m j := by
  induction m with
  | nil => simp [Memory.write, Memory.lookup, h]
  | cons cell rest ih =>
    obtain ⟨k, w⟩ := cell
    unfold Memory.write
    split
    · simp [Memory.lookup, h]
    · split
      · rename_i e; subst e; simp [Memory.lookup, h]
      · simp [Memory.lookup, ih]

/-- What the canonical form says of a non-empty memory. -/
theorem Memory.wf_cons (i : Nat) (w : Word) (rest : Memory) :
    Memory.wf ((i, w) :: rest) = true ↔
      i < 1024 ∧ (∀ cell ∈ rest, i < cell.1) ∧ Memory.wf rest = true := by
  simp [Memory.wf, and_assoc]

/-- Every cell of a written memory is the written one or an old one. -/
theorem Memory.mem_write {m : Memory} {i : Nat} {v : Word} {cell : Nat × Word}
    (h : cell ∈ Memory.write m i v) : cell = (i, v) ∨ cell ∈ m := by
  induction m with
  | nil => simpa [Memory.write] using h
  | cons c rest ih =>
    obtain ⟨j, w⟩ := c
    unfold Memory.write at h
    split at h
    · simpa using h
    · split at h
      · rcases List.mem_cons.1 h with h | h
        · exact .inl h
        · exact .inr (List.mem_cons_of_mem _ h)
      · rcases List.mem_cons.1 h with h | h
        · exact .inr (by simp [h])
        · rcases ih h with h | h
          · exact .inl h
          · exact .inr (List.mem_cons_of_mem _ h)

/-- A write inside `AMEM` keeps the canonical form. -/
theorem Memory.wf_write {m : Memory} {i : Nat} (v : Word) (hi : i < 1024) (hm : Memory.wf m = true) :
    Memory.wf (Memory.write m i v) = true := by
  induction m with
  | nil => simp [Memory.write, Memory.wf, hi]
  | cons c rest ih =>
    obtain ⟨j, w⟩ := c
    obtain ⟨hj, hlt, hrest⟩ := (Memory.wf_cons j w rest).1 hm
    unfold Memory.write
    split
    · rename_i hij
      refine (Memory.wf_cons ..).2 ⟨hi, ?_, hm⟩
      intro cell hc
      rcases List.mem_cons.1 hc with rfl | hc
      · exact hij
      · exact hij.trans (hlt cell hc)
    · split
      · rename_i e; subst e
        exact (Memory.wf_cons ..).2 ⟨hi, hlt, hrest⟩
      · refine (Memory.wf_cons ..).2 ⟨hj, ?_, ih hrest⟩
        intro cell hc
        rcases Memory.mem_write hc with rfl | hc
        · show j < i; omega
        · exact hlt cell hc

/-- An index below every listed one is not listed. -/
theorem Memory.lookup_eq_none {m : Memory} {i : Nat} (h : ∀ cell ∈ m, i < cell.1) :
    Memory.lookup m i = none := by
  induction m with
  | nil => rfl
  | cons c rest ih =>
    obtain ⟨j, w⟩ := c
    have hj : i < j := h (j, w) (by simp)
    have : i ≠ j := by omega
    simp only [Memory.lookup, this, if_false]
    exact ih fun cell hc => h cell (List.mem_cons_of_mem _ hc)

/-- The form is canonical: memories with the same contents are the same list. -/
theorem Memory.wf_ext {m n : Memory} (hm : Memory.wf m = true) (hn : Memory.wf n = true)
    (h : ∀ i, Memory.lookup m i = Memory.lookup n i) : m = n := by
  induction m generalizing n with
  | nil =>
    cases n with
    | nil => rfl
    | cons c rest => simpa [Memory.lookup] using h c.1
  | cons c rest ih =>
    obtain ⟨i, v⟩ := c
    obtain ⟨-, hlt, hrest⟩ := (Memory.wf_cons i v rest).1 hm
    cases n with
    | nil => simpa [Memory.lookup] using h i
    | cons c' rest' =>
      obtain ⟨j, w⟩ := c'
      obtain ⟨-, hlt', hrest'⟩ := (Memory.wf_cons j w rest').1 hn
      have hij : i = j := by
        rcases lt_trichotomy i j with hlt1 | heq | hlt1
        · have := h i
          rw [Memory.lookup_eq_none (m := (j, w) :: rest')] at this
          · simp [Memory.lookup] at this
          · intro cell hc
            rcases List.mem_cons.1 hc with rfl | hc
            · exact hlt1
            · exact hlt1.trans (hlt' cell hc)
        · exact heq
        · have := h j
          rw [Memory.lookup_eq_none (m := (i, v) :: rest)] at this
          · simp [Memory.lookup] at this
          · intro cell hc
            rcases List.mem_cons.1 hc with rfl | hc
            · exact hlt1
            · exact hlt1.trans (hlt cell hc)
      subst hij
      have hvw : v = w := by simpa [Memory.lookup] using h i
      subst hvw
      congr 1
      refine ih hrest hrest' fun k => ?_
      by_cases hk : k = i
      · subst hk
        rw [Memory.lookup_eq_none hlt, Memory.lookup_eq_none hlt']
      · simpa [Memory.lookup, hk] using h k

@[simp] theorem State.amemWord_writeAmem_self (s : State) (i : Nat) (v : Word) :
    (s.writeAmem i v).amemWord i = v := by
  simp [State.amemWord]

theorem State.amemWord_writeAmem_ne (s : State) {i j : Nat} (v : Word) (h : j ≠ i) :
    (s.writeAmem i v).amemWord j = s.amemWord j := by
  simp [State.amemWord, Memory.lookup_write_ne, h]

end Sys2Proof.Machine
end

