-- ==== Sys2Proof/Laws/PerInstr.lean ====
section
/-! SUPPORT. The statements made of every instruction as syntax, one lemma per constructor. -/

namespace Sys2Proof.Laws

/-- The fields of a command pass every check of R95, R96 and R97. -/
def FieldsLegal.Statement (i : Instr) : Prop := i.fields.WellFormed

theorem FieldsLegal.mul (d a b : XReg) : FieldsLegal.Statement (.mul d a b) := by
  simp [FieldsLegal.Statement, Fields.WellFormed, Fields.illegal, Instr.fields, rowUse]

theorem FieldsLegal.div (d a b : XReg) : FieldsLegal.Statement (.div d a b) := by
  simp [FieldsLegal.Statement, Fields.WellFormed, Fields.illegal, Instr.fields, rowUse]

theorem FieldsLegal.sqrt (d a : XReg) : FieldsLegal.Statement (.sqrt d a) := by
  simp [FieldsLegal.Statement, Fields.WellFormed, Fields.illegal, Instr.fields, rowUse]

theorem FieldsLegal.dot (d : XReg) (n : Count) : FieldsLegal.Statement (.dot d n) := by
  simp [FieldsLegal.Statement, Fields.WellFormed, Fields.illegal, Instr.fields, rowUse]

theorem FieldsLegal.mmul (d a b : MReg) : FieldsLegal.Statement (.mmul d a b) := by
  simp [FieldsLegal.Statement, Fields.WellFormed, Fields.illegal, Instr.fields, rowUse]

theorem FieldsLegal.mmulat (d a b : MReg) : FieldsLegal.Statement (.mmulat d a b) := by
  simp [FieldsLegal.Statement, Fields.WellFormed, Fields.illegal, Instr.fields, rowUse]

theorem FieldsLegal.mmulbt (d a b : MReg) : FieldsLegal.Statement (.mmulbt d a b) := by
  simp [FieldsLegal.Statement, Fields.WellFormed, Fields.illegal, Instr.fields, rowUse]

theorem FieldsLegal.qr (q r m : MReg) (n : Count) : FieldsLegal.Statement (.qr q r m n) := by
  simp [FieldsLegal.Statement, Fields.WellFormed, Fields.illegal, Instr.fields, rowUse]

theorem FieldsLegal.chol (d m : MReg) : FieldsLegal.Statement (.chol d m) := by
  simp [FieldsLegal.Statement, Fields.WellFormed, Fields.illegal, Instr.fields, rowUse]

end Sys2Proof.Laws
end

