-- ==== Sys2Proof/Laws/Port.lean ====
section
/-! SUPPORT. The host port, location by location: what a write does and what a read answers, without unfolding the
address map; the words of the packed registers as sums. -/

namespace Sys2Proof.Machine

section write
variable {s : State} {a : Index} {v : Word}

theorem State.portWrite_x {i : XReg} (h : locate a = .x i) : s.portWrite a v = s.setX i v := by
  simp only [State.portWrite, h]

theorem State.portWrite_status (h : locate a = .status) :
    s.portWrite a v = if v.getLsbD 0 = true then s.acknowledge else s := by
  simp only [State.portWrite, h]

theorem State.portWrite_cfg (h : locate a = .cfg) : s.portWrite a v = { s with cfg := Cfg.ofWord v } := by
  simp only [State.portWrite, h]

theorem State.portWrite_id (h : locate a = .id) : s.portWrite a v = s.reject .badAddr (accessInfo true a) := by
  simp only [State.portWrite, h]

theorem State.portWrite_errinfo (h : locate a = .errinfo) :
    s.portWrite a v = s.reject .badAddr (accessInfo true a) := by
  simp only [State.portWrite, h]

theorem State.portWrite_dota (h : locate a = .dota) : s.portWrite a v = { s with dota := DotDesc.ofWord v } := by
  simp only [State.portWrite, h]

theorem State.portWrite_dotb (h : locate a = .dotb) : s.portWrite a v = { s with dotb := DotDesc.ofWord v } := by
  simp only [State.portWrite, h]

theorem State.portWrite_rows {k : MReg} (h : locate a = .rows k) :
    s.portWrite a v =
      if legalDim v = true then s.setMat k { s.mat k with rows := v.extractLsb' 0 4 }
      else s.reject .badValue (accessInfo true a) := by
  simp only [State.portWrite, h]

theorem State.portWrite_cols {k : MReg} (h : locate a = .cols k) :
    s.portWrite a v =
      if legalDim v = true then s.setMat k { s.mat k with cols := v.extractLsb' 0 4 }
      else s.reject .badValue (accessInfo true a) := by
  simp only [State.portWrite, h]

theorem State.portWrite_errors {k : MReg} (h : locate a = .errors k) :
    s.portWrite a v = s.setMat k { s.mat k with errors := v.extractLsb' 0 5 } := by
  simp only [State.portWrite, h]

theorem State.portWrite_cell {k : MReg} {r c : Fin 8} (h : locate a = .cell k r c) :
    s.portWrite a v =
      s.setMat k { s.mat k with data := Cells.setCell (s.mat k).data r.val c.val v } := by
  simp only [State.portWrite, h]

theorem State.portWrite_amem {i : Fin 1024} (h : locate a = .amem i) : s.portWrite a v = s.writeAmem i.val v := by
  simp only [State.portWrite, h]

theorem State.portWrite_reserved (h : locate a = .reserved) :
    s.portWrite a v = s.reject .badAddr (accessInfo true a) := by
  simp only [State.portWrite, h]

/-- A write takes nothing from the inputs still to come. -/
@[simp] theorem State.portWrite_pending : (s.portWrite a v).pending = s.pending := by
  unfold State.portWrite
  split <;> simp <;> split <;> simp
end write

section read
variable {s : State} {a : Index}

/-- A read at an index that is not reserved only returns its word. -/
theorem State.hostRead_of_ne (h : locate a ≠ .reserved) :
    s.hostRead a = { s with response := some (s.portWord a) } := by
  unfold State.hostRead
  split
  · contradiction
  · rfl

theorem State.hostRead_reserved (h : locate a = .reserved) :
    s.hostRead a = State.reject { s with response := some 0 } .badAddr (accessInfo false a) := by
  simp only [State.hostRead, State.portWord, h]

@[simp] theorem State.hostRead_pending : (s.hostRead a).pending = s.pending := by
  unfold State.hostRead
  split <;> simp
end read

/-- The word a shape value is in 1..8 (20_memory.md R63). -/
theorem legalDim_iff (v : Word) : legalDim v = true ↔ 1 ≤ v.toNat ∧ v.toNat ≤ 8 := by
  simp [legalDim]

/-- The low bits of a legal shape value are the value. -/
theorem toNat_extract_of_legalDim {v : Word} (h : legalDim v = true) : (v.extractLsb' 0 4).toNat = v.toNat := by
  have := (legalDim_iff v).1 h
  rw [BitVec.extractLsb'_toNat]
  simp only [Nat.shiftRight_zero]
  omega

/-- Two fields side by side, `hi` from bit `k` up, as a number. -/
theorem toNat_shiftLeft_or {n m : Nat} (hi : BitVec n) (lo : BitVec m) (k : Nat) (hm : m ≤ k) (hn : n + k ≤ 32) :
    ((hi.zeroExtend 32 <<< k) ||| lo.zeroExtend 32).toNat = hi.toNat * 2 ^ k + lo.toNat := by
  have hlo : lo.toNat < 2 ^ k := lo.isLt.trans_le (Nat.pow_le_pow_right (by norm_num) hm)
  have hhi : hi.toNat * 2 ^ k < 2 ^ 32 :=
    calc hi.toNat * 2 ^ k < 2 ^ n * 2 ^ k := Nat.mul_lt_mul_of_pos_right hi.isLt (by positivity)
      _ = 2 ^ (n + k) := by rw [← pow_add]
      _ ≤ 2 ^ 32 := Nat.pow_le_pow_right (by norm_num) hn
  have hhi' : hi.toNat < 2 ^ 32 := lt_of_le_of_lt (Nat.le_mul_of_pos_right _ (by positivity)) hhi
  have hlo' : lo.toNat < 2 ^ 32 := hlo.trans_le (Nat.pow_le_pow_right (by norm_num) (by omega))
  rw [BitVec.toNat_or, BitVec.toNat_shiftLeft, BitVec.toNat_setWidth, BitVec.toNat_setWidth,
    Nat.mod_eq_of_lt hhi', Nat.mod_eq_of_lt hlo', Nat.shiftLeft_eq, Nat.mod_eq_of_lt hhi,
    ← Nat.shiftLeft_eq, Nat.shiftLeft_add_eq_or_of_lt hlo]

end Sys2Proof.Machine
end

