-- ==== Sys2Proof/Laws/Step.lean ====
section
/-! SUPPORT. Everything one step can do, said once. -/

namespace Sys2Proof.Machine

/-- An input that issues a command word: the word is decoded and carried out in the state without that input. -/
theorem step_issue {s : State} {input : HostInput} {rest : List HostInput} {w : Word}
    (hp : s.pending = input :: rest) (hc : input.command = some w) : step s = s.takeInput.issue w := by
  simp only [step, hp, List.head?_cons, hc]

/-- An input that issues no command word has its plain effect. -/
theorem step_plain {s : State} {input : HostInput} {rest : List HostInput}
    (hp : s.pending = input :: rest) (hc : input.command = none) :
    step s = .next (s.takeInput.plainInput input) := by
  simp only [step, hp, List.head?_cons, hc]

/-- The state without its first input, as a record update. -/
theorem State.takeInput_eq {s : State} {input : HostInput} {rest : List HostInput}
    (hp : s.pending = input :: rest) : s.takeInput = { s with pending := rest, response := none } := by
  simp only [State.takeInput, hp, List.tail_cons]

@[simp] theorem HostInput.command_read (a : Index) : (HostInput.read a).command = none := rfl
@[simp] theorem HostInput.command_reset : HostInput.reset.command = none := rfl
@[simp] theorem HostInput.command_cmd (w : Word) : (HostInput.write 0x010 w).command = some w := rfl

theorem HostInput.command_write {a : Index} (v : Word) (h : locate a ≠ .cmd) :
    (HostInput.write a v).command = none := by
  simp only [HostInput.command, h, if_false]

/-- One step, case by case: idle, a read, a reset, a write that issues no command, a word that selects no
command, a command. -/
theorem step_cases {s t : State} (h : step s = .next t) :
    (s.pending = [] ∧ t = s) ∨
    (∃ a rest, s.pending = .read a :: rest ∧ t = s.takeInput.hostRead a) ∨
    (∃ rest, s.pending = .reset :: rest ∧ t = s.takeInput.assertReset) ∨
    (∃ a v rest, s.pending = .write a v :: rest ∧ locate a ≠ .cmd ∧ t = s.takeInput.portWrite a v) ∨
    (∃ a v rest why, s.pending = .write a v :: rest ∧ locate a = .cmd ∧ decode v = .error why ∧
      t = s.takeInput.rejectCommand v) ∨
    (∃ a v rest i, s.pending = .write a v :: rest ∧ locate a = .cmd ∧ decode v = .ok i ∧
      exec i s.takeInput = .next t) := by
  unfold step at h
  cases hp : s.pending with
  | nil =>
    rw [hp] at h
    exact .inl ⟨rfl, by injection h with h; exact h.symm⟩
  | cons input rest =>
    rw [hp] at h
    refine .inr ?_
    cases input with
    | read a => exact .inl ⟨a, rest, rfl, by injection h with h; exact h.symm⟩
    | reset => exact .inr (.inl ⟨rest, rfl, by injection h with h; exact h.symm⟩)
    | write a v =>
      refine .inr (.inr ?_)
      by_cases ha : locate a = .cmd
      · simp only [List.head?_cons, HostInput.command, ha, if_true, State.issue] at h
        cases hd : decode v with
        | error why =>
          rw [hd] at h
          exact .inr (.inl ⟨a, v, rest, why, rfl, ha, hd, by injection h with h; exact h.symm⟩)
        | ok i =>
          rw [hd] at h
          exact .inr (.inr ⟨a, v, rest, i, rfl, ha, hd, h⟩)
      · simp only [List.head?_cons, HostInput.command, ha, if_false] at h
        exact .inl ⟨a, v, rest, rfl, ha, by injection h with h; exact h.symm⟩

end Sys2Proof.Machine
end

