-- ==== Sys2Proof/Tests/Slice0.lean ====
section
/-! SUPPORT. Tests on the words and vectors of the spec (30_encoding.md R104, 95_test_vectors.md), the refusals of the
encoding checks, and for every obligation with hypotheses a state and operands that meet them. -/

namespace Sys2Proof.Tests

open Sys2Proof.Machine

/-! ### Encoding: the checks refuse -/

theorem test_illformed_reserved_opcode : (Fields.mk 0x05 0 0 0 0 0).illegal = some .reservedOpcode := by decide
theorem test_illformed_mul_e : (Fields.mk 0x01 1 2 3 1 0).illegal = some .nonzeroField := by decide
theorem test_illformed_div_imm : (Fields.mk 0x02 1 2 3 0 1).illegal = some .nonzeroField := by decide
theorem test_illformed_sqrt_b : (Fields.mk 0x03 1 2 1 0 0).illegal = some .nonzeroField := by decide
theorem test_illformed_dot_a : (Fields.mk 0x04 1 1 0 0 3).illegal = some .nonzeroField := by decide
theorem test_illformed_mmul_d : (Fields.mk 0x10 4 0 0 0 0).illegal = some .matrixRegister := by decide
theorem test_illformed_mmulat_a : (Fields.mk 0x11 0 4 0 0 0).illegal = some .matrixRegister := by decide
theorem test_illformed_mmulbt_b : (Fields.mk 0x12 0 0 15 0 0).illegal = some .matrixRegister := by decide
theorem test_illformed_qr_e : (Fields.mk 0x18 1 0 0 4 0).illegal = some .matrixRegister := by decide
theorem test_illformed_qr_b : (Fields.mk 0x18 1 0 1 2 0).illegal = some .nonzeroField := by decide
theorem test_illformed_chol_imm : (Fields.mk 0x19 1 0 0 0 1).illegal = some .nonzeroField := by decide

/-! ### Encoding: the words of R104, field by field, most significant first -/

theorem test_decode_mul : decode 0b00000001_0011_0001_0010_0000_00000000 = .ok (.mul 3 1 2) := by decide
theorem test_decode_div : decode 0b00000010_0000_1111_0111_0000_00000000 = .ok (.div 0 15 7) := by decide
theorem test_decode_sqrt : decode 0b00000011_0100_0100_0000_0000_00000000 = .ok (.sqrt 4 4) := by decide
theorem test_decode_dot : decode 0b00000100_0101_0000_0000_0000_00000011 = .ok (.dot 5 3) := by decide
theorem test_decode_mmul : decode 0b00010000_0001_0000_0000_0000_00000000 = .ok (.mmul 1 0 0) := by decide
theorem test_decode_mmulat : decode 0b00010001_0010_0000_0001_0000_00000000 = .ok (.mmulat 2 0 1) := by decide
theorem test_decode_mmulbt : decode 0b00010010_0011_0001_0010_0000_00000000 = .ok (.mmulbt 3 1 2) := by decide
theorem test_decode_qr : decode 0b00011000_0001_0000_0000_0010_00000001 = .ok (.qr 1 2 0 1) := by decide
theorem test_decode_chol : decode 0b00011001_0001_0000_0000_0000_00000000 = .ok (.chol 1 0) := by decide
theorem test_decode_zero : decode 0 = .error .reservedOpcode := by decide
theorem test_decode_ones : decode 0xFFFFFFFF = .error .reservedOpcode := by decide
theorem test_decode_mul_imm : decode 0x01312001 = .error .nonzeroField := by decide
theorem test_decode_mmul_d5 : decode 0x10500000 = .error .matrixRegister := by decide

/-- No word selects two rows of the opcode map (30_encoding.md R94). -/
theorem test_rows_disjoint :
    opcodeMap.Pairwise fun r q => r.pattern &&& (r.mask &&& q.mask) ≠ q.pattern &&& (r.mask &&& q.mask) := by
  decide

theorem test_table_word : decodeTableWord 32 0x18100201 = some (.qr 1 2 0 1) := by decide

/-! ### States for the tests -/

/-- The state after an outcome. -/
def after : Host.Outcome State Fault Refusal → Option State
  | .next s => some s
  | .fault _ => none
  | .refused _ => none

/-- A record with the given cells, the others 0. -/
def record (rows cols : BitVec 4) (errors : Errors) (cells : List (List Word)) : MatReg :=
  { rows := rows, cols := cols, errors := errors,
    data := Cells.tabulate fun r c => (cells.getD r []).getD c 0 }

/-- The state after reset with `M[0]` and `M[1]` loaded. -/
def loaded (m0 m1 : MatReg) : State := (State.reset.setMat 0 m0).setMat 1 m1

/-- The state after reset with `x[1]` and `x[2]` loaded. -/
def scalars (cfg : Cfg) (a b : Word) : State := ({ State.reset with cfg := cfg }.setX 1 a).setX 2 b

/-- The state after reset with transactions to come. -/
def sent (inputs : List HostInput) : State := { State.reset with pending := inputs }

/-- The flags of a record and its cells in shape. -/
def shown (m : MatReg) : Errors × List Word := (m.errors, Cells.inShape m.data m.rows.toNat m.cols.toNat)

/-! ### One step of each command, from 95_test_vectors.md -/

/-- V-MUL: a tie, away from zero. -/
theorem test_mul_tie :
    (after (exec (.mul 3 1 2) (scalars ⟨true, true⟩ 0xFFFFFFFF 0x00008000))).map (·.getX 3) = some 0xFFFFFFFF := by
  decide

/-- V-MUL: the largest product, wrapped. -/
theorem test_mul_wraps :
    (after (exec (.mul 3 1 2) (scalars ⟨true, false⟩ 0x7FFFFFFF 0x00010001))).map (·.getX 3) = some 0x80007FFF := by
  decide

/-- 40_scalar.md R135, the example. -/
theorem test_div_rounds :
    (after (exec (.div 0 1 2) (scalars ⟨true, true⟩ 0x00020000 0x00030000))).map (·.getX 0) = some 0x0000AAAB := by
  decide

/-- 40_scalar.md R125: a half in the `ROUND` = 0 mode, the destination a source. -/
theorem test_div_truncates :
    (after (exec (.div 1 1 2) (scalars ⟨false, true⟩ 0xFFFFFFFF 0x00020000))).map (·.getX 1) = some 0 := by
  decide

/-- 40_scalar.md R136, the example. -/
theorem test_sqrt_rounds :
    (after (exec (.sqrt 1 1) (scalars ⟨true, true⟩ 0x00020000 0))).map (·.getX 1) = some 0x00016A0A := by
  decide +kernel

/-- 40_scalar.md R126: a negative operand. -/
theorem test_sqrt_negative :
    (after (exec (.sqrt 2 1) (scalars ⟨false, false⟩ 0xFFFFFFFF 0))).map (·.getX 2) = some 0x80000000 := by
  decide

/-- V-DOT1. -/
theorem test_dot :
    (after (exec (.dot 5 3)
      { State.reset with
        amem := [(0, 0x00010000), (1, 0x00020000), (2, 0x00030000), (16, 0x00040000), (24, 0x00050000),
          (32, 0x00060000)]
        dota := ⟨0, 1⟩, dotb := ⟨16, 8⟩ })).map (·.getX 5) = some 0x00200000 := by
  decide

/-- V-DOT13, through the host port: the destination is not written. -/
theorem test_dot_rejected :
    (after (step { (sent [.write 0x010 0x04500002]).setX 5 0x55555555 with
      dota := ⟨1023, 1023⟩, dotb := ⟨0, 0⟩ })).map
        (fun s => (s.getX 5, s.portWord 0x011, s.errinfo)) = some (0x55555555, 0x00000021, 0x04500002) := by
  decide

/-- V-MM2, in place. -/
theorem test_mmul_in_place :
    (after (exec (.mmul 0 0 0) (loaded (record 3 3 0 [[0x10000, 0x20000, 0x30000], [0x40000, 0x50000, 0x60000],
      [0x70000, 0x80000, 0x90000]]) (record 1 1 0 [])))).map (fun s => shown (s.mat 0)) =
      some (0x00, [0x001E0000, 0x00240000, 0x002A0000, 0x00420000, 0x00510000, 0x00600000, 0x00660000,
        0x007E0000, 0x00960000]) := by
  decide +kernel

/-- V-MM7: the dimension error, and a cell outside the new shape. -/
theorem test_mmul_dimerr :
    (after (exec (.mmul 1 0 1) (loaded (record 2 3 0 [[0x10000, 0x20000, 0x30000], [0x40000, 0x50000, 0x60000]])
      (record 2 2 0 [[0x10000, 0x20000, 0x1111], [0x30000, 0x40000]])))).map
        (fun s => (shown (s.mat 1), (s.mat 1).cell 0 2)) =
      some ((0x02, [0x00070000, 0x000A0000, 0x00130000, 0x001C0000]), 0x1111) := by
  decide +kernel

/-- V-MM4. -/
theorem test_mmulat :
    (after (exec (.mmulat 2 0 1) (loaded (record 5 1 0 [[0x650000], [0x660000], [0x670000], [0x680000], [0x690000]])
      (record 5 1 0 [[0x330000], [0x340000], [0x350000], [0x360000], [0x370000]])))).map
        (fun s => shown (s.mat 2)) = some (0x00, [0x6AA90000]) := by
  decide +kernel

/-- V-MM6. -/
theorem test_mmulbt :
    (after (exec (.mmulbt 2 0 0) (loaded (record 2 3 0 [[0x10000, 0x20000, 0x30000], [0x40000, 0x50000, 0x60000]])
      (record 1 1 0 [])))).map (fun s => shown (s.mat 2)) =
      some (0x00, [0x000E0000, 0x00200000, 0x00200000, 0x004D0000]) := by
  decide +kernel

/-- V-QR7 (b): `r = m`; V-QR8 (a): `q = r`. -/
theorem test_qr_aliasing :
    (after (exec (.qr 1 0 0 0) (loaded (record 2 2 0 [[0x30000, 0], [0x40000, 0x50000]]) (record 1 1 0 [])))).map
        (fun s => (shown (s.mat 1), shown (s.mat 0))) =
      some ((0x00, [0x0000999A, 0xFFFF3333, 0x0000CCCD, 0x00009999]),
        (0x00, [0x00050000, 0x00040001, 0x00000000, 0x00030001])) ∧
    (after (exec (.qr 1 1 0 0) (loaded (record 2 2 0x02 [[0x30000, 0], [0x40000, 0x50000]])
      (record 1 1 0x10 [[0x90000]])))).map (fun s => shown (s.mat 1)) = some (0x16, [0x00090000]) := by
  decide +kernel

/-- V-QR2: the guard scales down, and the first sum raises no flag; V-QR3: it scales up. -/
theorem test_qr_scaling_guard :
    (after (exec (.qr 1 2 0 0) (loaded (record 2 2 0 [[0xC80000, 0], [0xC80000, 0x10000]]) (record 1 1 0 [])))).map
        (fun s => (shown (s.mat 1), shown (s.mat 2))) =
      some ((0x00, [0x0000B505, 0xFFFF4AFB, 0x0000B505, 0x0000B505]),
        (0x00, [0x011AD800, 0x0000B505, 0x00000000, 0x0000B505])) ∧
    (after (exec (.qr 1 2 0 0) (loaded (record 2 2 0 [[60, 0x10000], [80, 0]]) (record 1 1 0 [])))).map
        (fun s => (shown (s.mat 1), shown (s.mat 2))) =
      some ((0x00, [0x0000999A, 0x0000CCCD, 0x0000CCCD, 0xFFFF6666]),
        (0x00, [0x00000064, 0x0000999A, 0x00000000, 0x0000CCCD])) := by
  decide +kernel

/-- V-CH2. -/
theorem test_chol :
    (after (exec (.chol 1 0) (loaded (record 2 2 0 [[0x20000, 0x10000], [0x10000, 0x20000]]) (record 1 1 0 [])))).map
        (fun s => shown (s.mat 1)) = some (0x00, [0x00016A0A, 0, 0x0000B505, 0x00013989]) := by
  decide +kernel

/-- V-CH5: a zero pivot. -/
theorem test_chol_zero_pivot :
    (after (exec (.chol 0 0) (loaded (record 2 2 0 [[0, 0x10000], [0x10000, 0x10000]]) (record 1 1 0 [])))).map
        (fun s => shown (s.mat 0)) = some (0x11, [0, 0, 0x80000000, 0]) := by
  decide +kernel

/-! ### The host port, from V-HOST of 95_test_vectors.md -/

/-- V-H10: an illegal shape. -/
theorem test_bad_value :
    (after (step (sent [.write 0x200 9]))).map
        (fun s => (s.portWord 0x200, s.portWord 0x011, s.errinfo)) = some (1, 0x00000041, 0x80000200) := by
  decide

/-- The first reserved index. -/
theorem test_bad_addr :
    (after (step (sent [.read 0x017]))).map
        (fun s => (s.response, s.portWord 0x011, s.errinfo)) = some (some 0, 0x00000031, 0x00000017) := by
  decide

theorem test_id : (after (step (sent [.read 0x013]))).map (·.response) = some (some 0x46580148) := by decide

/-- The host's table word is the next command. -/
theorem test_fetch :
    (after (step (State.reset.withFetchWord 32 0x01312000))).map (fun s => (s.getX 3, s.pending)) =
      some (0, []) := by
  decide

/-- The pseudo-instruction `cfg 1, 0` (30_encoding.md R101). -/
theorem test_assembler : assemble [.cfg 1 0, .msq 1 0] =
    [.write 0x012 0x00000001, .write 0x010 0x10100000] := by decide

/-- Lines of text (30_encoding.md R100): reserved indices, an expected word, a comment, the operand order of `qr`,
names of locations. -/
theorem test_assembler_text :
    assembleText "rd 0x203 -> 0x0000_0000 ; reserved\nwr 0x800, 5\nqr m1, m2, m0, 1\nwr M3.D[7][0], 1\nrd AMEM[1023]" =
      some [.read 0x203, .write 0x800 5, .write 0x010 0x18100201, .write 0x3F8 1, .read 0x7FF] := by
  decide +kernel

/-- A scalar register 16 and an index above 12 bits are no operands. -/
theorem test_assembler_text_refused :
    assembleText "mul x3, x1, x16" = none ∧ assembleText "wr 0x1000, 5" = none := by decide +kernel

/-! ### Witnesses: for every obligation with hypotheses, a state and operands that meet them -/

theorem witness_EncodeOfDecodedWordIsTheWord : ∃ w i, decode w = .ok i := ⟨0x183303FF, .qr 3 3 3 255, by decide⟩

theorem witness_DecoderFollowsTheOpcodeMap :
    (∃ w i, decode w = .ok i) ∧ ∃ (w : Word) (n : Nat) (row : OpcodeRow),
      opcodeMap[n]? = some row ∧ row.selects w = true :=
  ⟨⟨0x01FFF000, .mul 15 15 15, by decide⟩, 0x19330000, 8, ⟨0x19000000, 0xFFCCFFFF⟩, rfl, by decide⟩

theorem witness_StepRunsTheDecodedCommand : ∃ (s : State) (w : Word) (rest : List HostInput) (i : Instr),
    s.pending = .write 0x010 w :: rest ∧ decode w = .ok i :=
  ⟨sent [.write 0x010 0x01312000], 0x01312000, [], .mul 3 1 2, rfl, by decide⟩

theorem witness_UnselectedWordIsIllegalCommand : ∃ (s : State) (w : Word) (rest : List HostInput),
    s.pending = .write 0x010 w :: rest ∧ (Fields.ofWord w).MatchNoRow :=
  ⟨sent [.write 0x010 0x10040000], 0x10040000, [], rfl, by unfold Fields.MatchNoRow; decide⟩

theorem witness_IdleStepKeepsTheState : ∃ s : State, s.pending = [] := ⟨State.reset, rfl⟩

theorem witness_ScalarFailuresAreInBand :
    (∃ s : State, s.cfg.ovf = true ∧ s32 (s.getX 1) * s32 (s.getX 2) = 2 ^ 47) ∧
    (∃ s : State, s.cfg.ovf = true ∧ s32 (s.getX 1) * s32 (s.getX 2) < -2 ^ 47) ∧
    (∃ s : State, s.getX 2 = 0) ∧
    (∃ s : State, s.cfg.ovf = true ∧ 2 ^ 31 * |s32 (s.getX 2)| = |s32 (s.getX 1)| * 2 ^ 16) ∧
    (∃ s : State, s32 (s.getX 1) < 0) :=
  ⟨⟨scalars ⟨true, true⟩ 0x80000000 0xFFFF0000, by decide⟩, ⟨scalars ⟨true, true⟩ 0x80000000 0x00010001, by decide⟩,
    ⟨scalars ⟨true, true⟩ 1 0, by decide⟩, ⟨scalars ⟨true, true⟩ 0x80000000 0x00010000, by decide⟩,
    ⟨scalars ⟨true, true⟩ 0xFFFFFFFF 0, by decide⟩⟩

/-- One value for each range of the statement, at its ends, with both roundings, and a tie. -/
theorem witness_NarrowRoundsExactly :
    (∀ rd ∈ [true, false], (Cfg.mk rd true).ovf = true ∧ (Cfg.mk rd false).ovf = false) ∧
    (∀ p ∈ ([-2 ^ 47, 2 ^ 47 - 2 ^ 15 - 1] : List Int), -2 ^ 47 ≤ p ∧ p < 2 ^ 47 - 2 ^ 15) ∧
    |s32 (narrow ⟨true, true⟩ (2 ^ 15)) * 2 ^ 16 - 2 ^ 15| = 2 ^ 15 ∧
    (∀ p ∈ ([2 ^ 47 - 2 ^ 15, 2 ^ 47 - 1] : List Int), 2 ^ 47 - 2 ^ 15 ≤ p ∧ p < 2 ^ 47) ∧
    (∀ p ∈ ([-2 ^ 47 - 1, 2 ^ 47] : List Int), p < -2 ^ 47 ∨ 2 ^ 47 ≤ p) ∧
    (∀ p ∈ ([-2 ^ 47, -1] : List Int), -2 ^ 47 ≤ p ∧ p < 0) := by
  decide

theorem witness_MulLaws : (Cfg.mk true true).ovf = true ∧ (Cfg.mk true false).ovf = false := by decide

theorem witness_DivRoundsTheExactQuotient :
    (s32 0x00010000 ≠ 0 ∧ |s32 0x7FFFFFFF| * 2 ^ 16 < 2 ^ 31 * |s32 0x00010000|) ∧
    (s32 0x00020000 ≠ 0 ∧ |s32 0xFFFFFFFF| * 2 ^ 16 < 2 ^ 31 * |s32 0x00020000| ∧
      2 * |s32 (div ⟨true, true⟩ 0xFFFFFFFF 0x00020000) * s32 0x00020000 - s32 0xFFFFFFFF * 2 ^ 16| =
        |s32 0x00020000|) := by
  decide

/-- Among the operands: the largest quotient, which wraps with detection off, and a tie. -/
theorem witness_DivCornerCases :
    (∃ a b : Word, b ≠ 0 ∧ a ≠ 0 ∧ div ⟨true, false⟩ a b = BitVec.ofInt 32 (-2 ^ 47)) ∧
    ∃ a b : Word, b ≠ 0 ∧ 2 * |1 * s32 b - s32 a * 2 ^ 16| = |s32 b| :=
  ⟨⟨0x80000000, 1, by decide⟩, ⟨1, 0x00020000, by decide⟩⟩

theorem witness_SqrtIsNearestOrFloor :
    s32 0x80000000 < 0 ∧ 0 ≤ s32 0 ∧ 0 ≤ s32 0x7FFFFFFF ∧ 0 < s32 (sqrt ⟨true, true⟩ 0x7FFFFFFF) ∧
      (Cfg.mk true true).round = true ∧ (Cfg.mk false true).round = false := by
  decide +kernel

theorem witness_DigitLoopGivesRootAndRemainder : ∃ N : Nat, N = 2 ^ 47 - 1 ∧ N < 2 ^ 47 := ⟨2 ^ 47 - 1, by decide⟩

theorem witness_AddOverflowDetectsBySign :
    (s32 0x7FFFFFFE + s32 1 = 2 ^ 31 - 1) ∧ (s32 0x7FFFFFFF + s32 1 = 2 ^ 31) ∧
    (s32 0xFFFFFFFF + s32 0x80000001 = -2 ^ 31) ∧ (s32 0x80000000 + s32 0xFFFFFFFF = -2 ^ 31 - 1) ∧
    (0x7FFFFFFF : Word) ≠ 0x80000000 := by
  decide

theorem witness_SubOverflowOfMinAlwaysOverflows :
    ((0x7FFFFFFF : Word) ≠ 0x80000000 ∧ s32 0xFFFFFFFF - s32 0x7FFFFFFF = -2 ^ 31) ∧
    (s32 0x7FFFFFFF - s32 0xFFFFFFFF = 2 ^ 31) ∧ (s32 0xFFFFFFFE - s32 0x7FFFFFFF = -2 ^ 31 - 1) ∧
    (Cfg.mk true false).ovf = false := by
  decide

theorem witness_DotsumSymmetricAndNonnegative :
    (Cfg.mk true true).ovf = true ∧ dotsum ⟨true, true⟩ [0xFFFF0000] [0xFFFF0000] ≠ 0x80000000 := by decide

/-- No element; the last element at index 1023. -/
theorem witness_DotSumsTheTwoArrays :
    (∃ (n : Count) (s : State), n.val = 0 ∧ s.dota = ⟨1023, 1023⟩) ∧
    (∃ (n : Count) (s : State), s.dota.base.toNat + (n.val - 1) * s.dota.stride.toNat = 1023 ∧
      s.dotb.base.toNat + (n.val - 1) * s.dotb.stride.toNat ≤ 1023) :=
  ⟨⟨0, { State.reset with dota := ⟨1023, 1023⟩ }, rfl, rfl⟩,
    ⟨255, { State.reset with dota := ⟨7, 4⟩ }, by decide, by decide⟩⟩

/-- The last element of the one array and of the other at index 1024. -/
theorem witness_DotOutsideArrayMemoryIsRejected :
    (∃ (s : State) (w : Word) (rest : List HostInput) (d : XReg) (n : Count),
      s.pending = .write 0x010 w :: rest ∧ decode w = .ok (.dot d n) ∧ 1 ≤ n.val ∧
        1023 < s.dota.base.toNat + (n.val - 1) * s.dota.stride.toNat) ∧
    (∃ (s : State) (w : Word) (rest : List HostInput) (d : XReg) (n : Count),
      s.pending = .write 0x010 w :: rest ∧ decode w = .ok (.dot d n) ∧ 1 ≤ n.val ∧
        1023 < s.dotb.base.toNat + (n.val - 1) * s.dotb.stride.toNat) :=
  ⟨⟨{ sent [.write 0x010 0x045000FF] with dota := ⟨8, 4⟩ }, 0x045000FF, [], 5, 255, rfl, by decide, by decide,
      by decide⟩,
    ⟨{ sent [.write 0x010 0x04500002] with dotb := ⟨1023, 1⟩ }, 0x04500002, [], 5, 2, rfl, by decide, by decide,
      by decide⟩⟩

/-- Shapes at the ends of their range. -/
def shapes : State := loaded (record 8 8 0 []) (record 1 8 0 [])

theorem shapes_legal : (shapes.mat 0).LegalShape ∧ (shapes.mat 1).LegalShape ∧ (shapes.mat 2).LegalShape := by
  unfold MatReg.LegalShape
  decide

theorem witness_MmulIsTheProduct : ∃ (a b : MReg) (s : State), (s.mat a).LegalShape ∧ (s.mat b).LegalShape :=
  ⟨1, 0, shapes, shapes_legal.2.1, shapes_legal.1⟩

theorem witness_MmulatIsTheTransposedProduct :
    ∃ (a b : MReg) (s : State), (s.mat a).LegalShape ∧ (s.mat b).LegalShape :=
  ⟨0, 0, shapes, shapes_legal.1, shapes_legal.1⟩

theorem witness_MmulbtIsTheProductWithTranspose :
    ∃ (a b : MReg) (s : State), (s.mat a).LegalShape ∧ (s.mat b).LegalShape :=
  ⟨1, 1, shapes, shapes_legal.2.1, shapes_legal.2.1⟩

theorem witness_MultiplyErrorsZeroExactlyWhenClean :
    ∃ (d a b : MReg) (s t t' t'' : State), (s.mat a).LegalShape ∧ (s.mat b).LegalShape ∧
      exec (.mmul d a b) s = .next t ∧ exec (.mmulat d a b) s = .next t' ∧ exec (.mmulbt d a b) s = .next t'' :=
  ⟨2, 0, 1, shapes, _, _, _, shapes_legal.1, shapes_legal.2.1, rfl, rfl, rfl⟩

theorem witness_MmulbtOfOneMatrixIsSymmetric :
    ∃ (d a : MReg) (s t : State) (r c : Nat), (s.mat a).LegalShape ∧ exec (.mmulbt d a a) s = .next t ∧
      r < (s.mat a).rows.toNat ∧ c < (s.mat a).rows.toNat :=
  ⟨2, 0, shapes, _, 0, 7, shapes_legal.1, rfl, by decide, by decide⟩

theorem witness_DestinationMayBeASource :
    ∃ (d d' a b : MReg) (s t t' : State), d = a ∧ d' ≠ a ∧ exec (.mmul d a b) s = .next t ∧
      exec (.mmul d' a b) s = .next t' :=
  ⟨0, 2, 0, 0, shapes, _, _, rfl, by decide, rfl, rfl⟩

theorem witness_CholSatisfiesTheFactorEquations : ∃ (m : MReg) (s : State), (s.mat m).LegalShape :=
  ⟨0, shapes, shapes_legal.1⟩

theorem witness_CholFlagsAreRaisedExactlyByTheirCauses :
    ∃ (d m : MReg) (s t : State), (s.mat m).LegalShape ∧ exec (.chol d m) s = .next t :=
  ⟨2, 1, shapes, _, shapes_legal.2.1, rfl⟩

theorem witness_CholReadsTheLowerTriangleOfTheBlock :
    ∃ (m : MReg) (s s' : State), (s.mat m).LegalShape ∧ (s.mat m).rows ≠ (s.mat m).cols ∧ s.cfg = s'.cfg ∧
      (s.mat m).rows = (s'.mat m).rows ∧ (s.mat m).cols = (s'.mat m).cols ∧ (s.mat m).errors = (s'.mat m).errors ∧
      (∀ i j, j ≤ i → i < (s.mat m).rows.toNat → i < (s.mat m).cols.toNat →
        (s.mat m).cell i j = (s'.mat m).cell i j) :=
  ⟨1, shapes, shapes, shapes_legal.2.1, by decide, rfl, rfl, rfl, rfl, fun _ _ _ _ _ => rfl⟩

theorem witness_QrAliasing :
    ∃ (q r m q' r' m' : MReg) (s s' : State), q ≠ r ∧ q' ≠ r' ∧ r = m ∧ q' ≠ m' ∧ r' ≠ m' ∧ s.cfg = s'.cfg ∧
      s.mat m = s'.mat m' :=
  ⟨1, 0, 0, 1, 2, 0, shapes, shapes, by decide, by decide, rfl, by decide, by decide, rfl, rfl⟩

theorem witness_QrShapesFlagsAndFrame : ∃ q r : MReg, q ≠ r := ⟨0, 3, by decide⟩

theorem witness_QrLeavesZerosBelowTheDiagonal :
    ∃ (q r m : MReg) (n : Count) (s t : State), q ≠ r ∧ (s.mat m).LegalShape ∧ exec (.qr q r m n) s = .next t ∧
      1 < (t.mat r).rows.toNat :=
  ⟨1, 2, 0, 0, shapes, _, by decide, shapes_legal.1, rfl, by decide⟩

theorem witness_QrColumnsSatisfyTheSteps :
    ∃ (q r m : MReg) (s : State) (j : Nat), q ≠ r ∧ (s.mat m).LegalShape ∧ j < (s.mat m).cols.toNat :=
  ⟨1, 2, 0, shapes, 7, by decide, shapes_legal.1, by decide⟩

/-- A sentinel quotient: the one cell is `MIN`, its norm the sentinel. -/
theorem witness_QrFlagsAreRaisedExactlyByTheirCauses :
    ∃ (q r m : MReg) (n : Count) (s t : State), q ≠ r ∧ (s.mat m).LegalShape ∧ (s.mat m).errors = 0 ∧
      exec (.qr q r m n) s = .next t ∧ (t.mat q).errors.getLsbD 0 = true :=
  ⟨1, 2, 0, 0, loaded (record 1 1 0 [[0x80000000]]) (record 1 1 0 []), _, by decide,
    by unfold MatReg.LegalShape; decide, rfl, rfl, by decide +kernel⟩

theorem witness_QrSingularFlagMatchesTheDiagonal :
    ∃ (q r m : MReg) (n : Count) (s t : State), q ≠ r ∧ (s.mat m).LegalShape ∧ exec (.qr q r m n) s = .next t ∧
      ∃ i j, i ≤ j ∧ j < (t.mat r).rows.toNat ∧ (t.mat r).cell i j = 0x80000000 :=
  ⟨1, 2, 0, 0, loaded (record 1 1 0 [[0x80000000]]) (record 1 1 0 []), _, by decide,
    by unfold MatReg.LegalShape; decide, rfl, 0, 0, by decide, by decide +kernel, by decide +kernel⟩

theorem witness_CellsOutsideTheShapeAreNotRead :
    ∃ (i : Instr) (s s' t t' : State), (∀ q m n, i ≠ .qr q q m n) ∧ s.cfg = s'.cfg ∧
      (∀ k ∈ i.matSources, (s.mat k).LegalShape ∧ MatReg.SameInShape (s.mat k) (s'.mat k)) ∧
      exec i s = .next t ∧ exec i s' = .next t' ∧ i.matDests ≠ [] :=
  ⟨.qr 1 2 0 3, shapes, shapes, _, _, fun q m n h => by (cases h), rfl,
    fun k hk => by
      have hk : k = 0 := by simpa [Instr.matSources] using hk
      subst hk
      exact ⟨shapes_legal.1, rfl, rfl, rfl, fun _ _ _ _ => rfl⟩,
    rfl, rfl, by decide⟩

theorem witness_FlagsAreNeverDroppedByACommand :
    (∃ (i : Instr) (s t : State) (k m : MReg), exec i s = .next t ∧ k ∈ i.matDests ∧ m ∈ i.matSources) ∧
    (∃ (i : Instr) (s t t' : State) (k : MReg) (e : Errors), (∀ q m n, i ≠ .qr q q m n) ∧ k ∈ i.matDests ∧
      k ∉ i.matSources ∧ exec i s = .next t ∧ exec i (s.setMat k { s.mat k with errors := e }) = .next t') ∧
    (∃ (q m : MReg) (n : Count) (s t : State), exec (.qr q q m n) s = .next t) :=
  ⟨⟨.mmul 2 0 1, shapes, _, 2, 1, rfl, by decide, by decide⟩,
    ⟨.chol 1 0, shapes, _, _, 1, 0x1F, fun q m n h => by (cases h), by decide, by decide, rfl, rfl⟩,
    ⟨1, 0, 0, shapes, _, rfl⟩⟩

theorem witness_CommandsLeaveTheRestAlone :
    ∃ (i : Instr) (s t : State), exec i s = .next t ∧ i.matDests ≠ [] ∧ ∃ k, k ∉ i.matDests :=
  ⟨.mmulat 2 0 1, shapes, _, rfl, by decide, 3, by decide⟩

theorem witness_CommandsDoNotReadTheRejectionRecord :
    ∃ (i : Instr) (s t t' : State) (st : Status) (info : Word), exec i s = .next t ∧
      exec i { s with status := st, errinfo := info } = .next t' :=
  ⟨.dot 5 2, State.reset, _, _, { err := true, cause := 3 }, 0x17, rfl, rfl⟩

theorem witness_FirstRejectionIsKept :
    ∃ s t : State, s.status.err = true ∧ step s = .next t ∧ (∀ rest, s.pending ≠ .reset :: rest) ∧
      (∀ v rest, s.pending = .write 0x011 v :: rest → v.getLsbD 0 = false) :=
  ⟨{ sent [.write 0x011 0xFFFFFFFE] with status := { err := true, cause := 1 }, errinfo := 0x01312001 }, _, rfl, rfl,
    fun rest h => by (cases h),
    fun v rest h => by
      have h2 : (0xFFFFFFFE : Word) = v := by injection h with h _; injection h
      subst h2
      decide⟩

theorem witness_AddressMapIsComplete :
    (∃ l : Loc, l ≠ .reserved) ∧ ∃ a : Index, ¬ ReservedIndex a :=
  ⟨⟨.amem 1023, by decide⟩, 0x7FF, by unfold ReservedIndex; decide⟩

theorem witness_ReadReturnsTheLocation :
    (∃ (s : State) (a : Index) (rest : List HostInput) (l : Loc), s.pending = .read a :: rest ∧ l ≠ .reserved ∧
      l.index = a) ∧
    (∃ (s : State) (a : Index) (rest : List HostInput), s.pending = .read a :: rest ∧ ReservedIndex a) :=
  ⟨⟨sent [.read 0x3FF], 0x3FF, [], .cell 3 7 7, rfl, by decide, by decide⟩,
    ⟨sent [.read 0x800], 0x800, [], rfl, by unfold ReservedIndex; decide⟩⟩

/-- Every kind of location that accepts a word, at the ends of its range. -/
theorem witness_WrittenWordIsReadBack :
    (∀ p ∈ ([(.x 15, 0xFFFFFFFF), (.cfg, 0xFFFFFFFF), (.dota, 0xFFFFFFFF), (.dotb, 0), (.errors 3, 0xFFFFFFFF),
      (.cell 3 7 7, 0x80000000), (.amem 1023, 1)] : List (Loc × Word)), p.1.Accepts p.2) ∧
    (Loc.rows 0).Accepts 1 ∧ (Loc.cols 3).Accepts 8 ∧
    ∃ (s : State) (rest : List HostInput),
      s.pending = .write (Loc.cols 3).index 8 :: .read (Loc.cols 3).index :: rest := by
  refine ⟨?_, ?_, ?_, sent [.write (Loc.cols 3).index 8, .read (Loc.cols 3).index], [], rfl⟩
  · simp [Loc.Accepts]
  · simp [Loc.Accepts]
  · simp [Loc.Accepts]

theorem witness_WriteHasTheListedEffect :
    (∃ (s : State) (a : Index) (v : Word) (rest : List HostInput) (l : Loc), s.pending = .write a v :: rest ∧
      l.index = a ∧ l.Accepts v) ∧
    (∃ (s : State) (v : Word) (rest : List HostInput) (i : Instr), s.pending = .write 0x010 v :: rest ∧
      decode v = .ok i) ∧
    (∃ (s : State) (v : Word) (rest : List HostInput) (why : IllegalCmd), s.pending = .write 0x010 v :: rest ∧
      decode v = .error why) ∧
    (∃ (s : State) (rest : List HostInput), s.pending = .write 0x011 1 :: rest ∧
      (1 : Word).getLsbD 0 = true) ∧
    (∃ (s : State) (rest : List HostInput), s.pending = .write 0x011 2 :: rest ∧
      (2 : Word).getLsbD 0 = false) ∧
    (∃ (s : State) (rest : List HostInput), s.pending = .write 0xFFF 2 :: rest ∧ ReservedIndex 0xFFF) ∧
    (∃ (s : State) (rest : List HostInput), s.pending = .write 0x013 2 :: rest) ∧
    (∃ (s : State) (rest : List HostInput), s.pending = .write 0x014 2 :: rest) ∧
    (∃ (s : State) (v : Word) (rest : List HostInput), s.pending = .write 0x200 v :: rest ∧ ShapeIndex 0x200 ∧
      v.toNat = 0) ∧
    (∃ (s : State) (v : Word) (rest : List HostInput), s.pending = .write 0x381 v :: rest ∧ ShapeIndex 0x381 ∧
      8 < v.toNat) :=
  ⟨⟨sent [.write 0x200 8], 0x200, 8, [], .rows 0, rfl, by decide, by simp [Loc.Accepts]⟩,
    ⟨sent [.write 0x010 0x03440000], 0x03440000, [], .sqrt 4 4, rfl, by decide⟩,
    ⟨sent [.write 0x010 0], 0, [], .reservedOpcode, rfl, by decide⟩,
    ⟨sent [.write 0x011 1], [], rfl, by decide⟩, ⟨sent [.write 0x011 2], [], rfl, by decide⟩,
    ⟨sent [.write 0xFFF 2], [], rfl, by unfold ReservedIndex; decide⟩, ⟨sent [.write 0x013 2], [], rfl⟩,
    ⟨sent [.write 0x014 2], [], rfl⟩, ⟨sent [.write 0x200 0], 0, [], rfl, by unfold ShapeIndex; decide, by decide⟩,
    ⟨sent [.write 0x381 0x108], 0x108, [], rfl, by unfold ShapeIndex; decide, by decide⟩⟩

/-- The first and the last reserved index, and the two read-only registers. -/
theorem witness_BadAddressesAreRejected :
    (∃ (s : State) (rest : List HostInput), s.pending = .read 0x017 :: rest ∧ ReservedIndex 0x017) ∧
    (∃ (s : State) (rest : List HostInput), s.pending = .write 0x3BF 5 :: rest ∧ ReservedIndex 0x3BF) ∧
    (∃ (s : State) (rest : List HostInput), s.pending = .write 0x013 5 :: rest) ∧
    (∃ (s : State) (rest : List HostInput), s.pending = .write 0x014 5 :: rest) ∧
    (∃ (s : State) (rest : List HostInput), s.pending = .read 0x010 :: rest) :=
  ⟨⟨sent [.read 0x017], [], rfl, by unfold ReservedIndex; decide⟩,
    ⟨sent [.write 0x3BF 5], [], rfl, by unfold ReservedIndex; decide⟩, ⟨sent [.write 0x013 5], [], rfl⟩,
    ⟨sent [.write 0x014 5], [], rfl⟩, ⟨sent [.read 0x010], [], rfl⟩⟩

theorem witness_BadShapeValuesAreRejected :
    (∃ (s : State) (v : Word) (rest : List HostInput), s.pending = .write 0x200 v :: rest ∧ ShapeIndex 0x200 ∧
      v.toNat = 0) ∧
    (∃ (s : State) (v : Word) (rest : List HostInput), s.pending = .write 0x381 v :: rest ∧ ShapeIndex 0x381 ∧
      v.toNat = 9) ∧
    (∃ (s : State) (v : Word) (rest : List HostInput), s.pending = .write 0x201 v :: rest ∧
      ¬ (ShapeIndex 0x201 ∧ (v.toNat = 0 ∨ 8 < v.toNat))) ∧
    (∃ (s : State) (v : Word) (rest : List HostInput), s.pending = .write 0x202 v :: rest ∧
      ¬ (ShapeIndex 0x202 ∧ (v.toNat = 0 ∨ 8 < v.toNat))) :=
  ⟨⟨sent [.write 0x200 0], 0, [], rfl, by unfold ShapeIndex; decide, by decide⟩,
    ⟨sent [.write 0x381 9], 9, [], rfl, by unfold ShapeIndex; decide, by decide⟩,
    ⟨sent [.write 0x201 8], 8, [], rfl, by unfold ShapeIndex; decide⟩,
    ⟨sent [.write 0x202 0], 0, [], rfl, by unfold ShapeIndex; decide⟩⟩

theorem witness_AcknowledgeClearsTheRecord :
    (∃ (s : State) (v : Word) (rest : List HostInput), s.pending = .write 0x011 v :: rest ∧ v.getLsbD 0 = true ∧
      s.status.err = true) ∧
    (∃ (s : State) (v : Word) (rest : List HostInput), s.pending = .write 0x011 v :: rest ∧
      v.getLsbD 0 = false ∧ s.status.err = true) :=
  ⟨⟨{ sent [.write 0x011 1] with status := { err := true, cause := 2 } }, 1, [], rfl, by decide, rfl⟩,
    ⟨{ sent [.write 0x011 0x80000000] with status := { err := true, cause := 2 } }, 0x80000000, [], rfl, by decide,
      rfl⟩⟩

theorem witness_ResetInputRestoresTheStatedValues :
    ∃ (s : State) (rest : List HostInput), s.pending = .reset :: rest ∧ s.getX 1 ≠ 0 :=
  ⟨{ scalars ⟨false, false⟩ 5 6 with pending := [.reset, .read 0] }, [.read 0], rfl, by decide⟩

theorem witness_EveryStepKeepsTheInvariant : ∃ s t : State, s.Inv ∧ step s = .next t ∧ s.status.err = true :=
  ⟨{ sent [.write 0x7FF 5] with status := { err := true, cause := 4 }, errinfo := 0x80000200 }, _,
    by
      refine ⟨?_, by decide, by unfold State.LegalRecord; decide⟩
      unfold MatReg.LegalShape
      decide,
    rfl, rfl⟩

end Sys2Proof.Tests
end

section
/-! PROOFS. The statements about the registers of 10_state.md: the flags that a command leaves in its destinations,
and the values after reset. -/

namespace Sys2Proof.Machine

/-! ### The flags that a command writes -/

/-- The flags that every destination of a command gets (10_state.md R29): for a multiply command those of the product,
for `QR` and `CHOL` those of the factorisation, for `QR` with `q = r` the old ones and `USEERR`. The scalar commands
and `DOT` have no destination among the matrix registers. -/
def State.commandErrors (s : State) : Instr → Errors
  | .mul .. => 0
  | .div .. => 0
  | .sqrt .. => 0
  | .dot .. => 0
  | .mmul _ a b => MulMode.n.productErrors s.cfg (s.mat a) (s.mat b)
  | .mmulat _ a b => MulMode.at.productErrors s.cfg (s.mat a) (s.mat b)
  | .mmulbt _ a b => MulMode.bt.productErrors s.cfg (s.mat a) (s.mat b)
  | .qr q r m n =>
    if q = r then (s.mat q).errors ||| (s.mat m).errors ||| Errors.useerr else (qrFactor s.cfg (s.mat m) n.val).e
  | .chol _ m => (cholFactor s.cfg (s.mat m)).e

theorem State.commandErrors_qr_same (s : State) (q m : MReg) (n : Count) :
    s.commandErrors (.qr q q m n) = (s.mat q).errors ||| (s.mat m).errors ||| Errors.useerr :=
  if_pos rfl

theorem State.commandErrors_qr_ne (s : State) {q r : MReg} (h : q ≠ r) (m : MReg) (n : Count) :
    s.commandErrors (.qr q r m n) = (qrFactor s.cfg (s.mat m) n.val).e :=
  if_neg h

theorem State.matmul_errors (s : State) (mode : MulMode) (d a b : MReg) :
    ((s.matmul mode d a b).mat d).errors = mode.productErrors s.cfg (s.mat a) (s.mat b) := by
  simp [State.matmul]

theorem State.qrUseErr_errors (s : State) (q m : MReg) :
    ((s.qrUseErr q m).mat q).errors = (s.mat q).errors ||| (s.mat m).errors ||| Errors.useerr := by
  simp [State.qrUseErr]

/-- Both results of `QR` carry the flags of the factorisation (43_qr.md R197). -/
theorem State.qrRun_errors (s : State) {q r k : MReg} (m : MReg) (n : Nat) (hk : k = q ∨ k = r) :
    ((s.qrRun q r m n).mat k).errors = (qrFactor s.cfg (s.mat m) n).e := by
  by_cases hkr : k = r
  · subst hkr
    simp [State.qrRun, qrStoreR]
  · obtain rfl := hk.resolve_right hkr
    simp [State.qrRun, State.mat_setMat_ne _ _ _ hkr, qrStoreQ]

/-- What a command leaves in the flags of its destinations, said once for all commands. -/
theorem exec_dest_errors {i : Instr} {s t : State} (h : exec i s = .next t) {k : MReg} (hk : k ∈ i.matDests) :
    (t.mat k).errors = s.commandErrors i := by
  cases i with
  | mul d a b => cases hk
  | div d a b => cases hk
  | sqrt d a => cases hk
  | dot d n => cases hk
  | mmul d a b =>
    obtain rfl := List.mem_singleton.1 hk
    cases h
    exact s.matmul_errors ..
  | mmulat d a b =>
    obtain rfl := List.mem_singleton.1 hk
    cases h
    exact s.matmul_errors ..
  | mmulbt d a b =>
    obtain rfl := List.mem_singleton.1 hk
    cases h
    exact s.matmul_errors ..
  | qr q r m n =>
    by_cases hqr : q = r
    · subst hqr
      rw [exec_qr_same] at h
      cases h
      obtain rfl : k = q := by simpa [Instr.matDests] using hk
      rw [State.qrUseErr_errors, State.commandErrors_qr_same]
    · rw [exec_qr_ne s hqr] at h
      cases h
      have hk : k = q ∨ k = r := by simpa [Instr.matDests, hqr] using hk
      rw [State.qrRun_errors s m n.val hk, State.commandErrors_qr_ne s hqr]
  | chol d m =>
    obtain rfl := List.mem_singleton.1 hk
    cases h
    simp [State.commandErrors, cholStore]

/-! ### They contain the flags of every source -/

theorem Errors.contains_iff_flagsLe (e f : Errors) : Errors.Contains e f ↔ FlagsLe f e := by
  rw [Errors.Contains, FlagsLe, BitVec.or_comm]

theorem MulMode.productErrors_left (mode : MulMode) (cfg : Cfg) (A B : MatReg) :
    FlagsLe A.errors (mode.productErrors cfg A B) :=
  ((FlagsLe.left _ _).trans (FlagsLe.left _ _)).trans (FlagsLe.left _ _)

theorem MulMode.productErrors_right (mode : MulMode) (cfg : Cfg) (A B : MatReg) :
    FlagsLe B.errors (mode.productErrors cfg A B) :=
  ((FlagsLe.right _ _).trans (FlagsLe.left _ _)).trans (FlagsLe.left _ _)

/-- No step of `CHOL` drops a flag, whatever the shape of the source (44_cholesky.md R213). -/
theorem cholFactor_flags (cfg : Cfg) (S : MatReg) : FlagsLe S.errors (cholFactor cfg S).e := by
  refine foldl_range_induct (fun _ (w : CholWork) => FlagsLe S.errors w.e) (FlagsLe.left _ _) fun i w _ hrow => ?_
  refine foldl_range_induct (fun _ (w : CholWork) => FlagsLe S.errors w.e) hrow fun j w _ hw => ?_
  rw [CholWork.step_eq]
  exact hw.trans (FlagsLe.left _ _)

theorem State.source_flagsLe_commandErrors (s : State) {i : Instr} {m : MReg} (hm : m ∈ i.matSources) :
    FlagsLe (s.mat m).errors (s.commandErrors i) := by
  have product (mode : MulMode) {a b : MReg} (hm : m ∈ [a, b]) :
      FlagsLe (s.mat m).errors (mode.productErrors s.cfg (s.mat a) (s.mat b)) := by
    obtain rfl | rfl : m = a ∨ m = b := by simpa using hm
    · exact mode.productErrors_left ..
    · exact mode.productErrors_right ..
  cases i with
  | mul d a b => cases hm
  | div d a b => cases hm
  | sqrt d a => cases hm
  | dot d n => cases hm
  | mmul d a b => exact product .n hm
  | mmulat d a b => exact product .at hm
  | mmulbt d a b => exact product .bt hm
  | qr q r m' n =>
    obtain rfl := List.mem_singleton.1 hm
    by_cases hqr : q = r
    · subst hqr
      rw [State.commandErrors_qr_same]
      exact (FlagsLe.right _ _).trans (FlagsLe.left _ _)
    · rw [State.commandErrors_qr_ne s hqr]
      exact qrFactor_flags ..
  | chol d m' =>
    obtain rfl := List.mem_singleton.1 hm
    exact cholFactor_flags ..

/-! ### They depend on the sources alone -/

/-- But for `QR` with `q = r`, a command computes its flags from `CFG` and its sources. -/
theorem State.commandErrors_congr {i : Instr} (hi : ∀ q m n, i ≠ .qr q q m n) {s s' : State} (hcfg : s'.cfg = s.cfg)
    (hsrc : ∀ m ∈ i.matSources, s'.mat m = s.mat m) : s'.commandErrors i = s.commandErrors i := by
  have product (mode : MulMode) {a b : MReg} (h : ∀ m ∈ [a, b], s'.mat m = s.mat m) :
      mode.productErrors s'.cfg (s'.mat a) (s'.mat b) = mode.productErrors s.cfg (s.mat a) (s.mat b) := by
    rw [hcfg, h a (by simp), h b (by simp)]
  cases i with
  | mul d a b => rfl
  | div d a b => rfl
  | sqrt d a => rfl
  | dot d n => rfl
  | mmul d a b => exact product .n hsrc
  | mmulat d a b => exact product .at hsrc
  | mmulbt d a b => exact product .bt hsrc
  | qr q r m n =>
    have hqr : q ≠ r := fun h => hi q m n (h ▸ rfl)
    rw [State.commandErrors_qr_ne s' hqr, State.commandErrors_qr_ne s hqr, hcfg, hsrc m (List.mem_singleton_self m)]
  | chol d m =>
    simp only [State.commandErrors, hcfg, hsrc m (List.mem_singleton_self m)]

end Sys2Proof.Machine

open Sys2Proof Sys2Proof.Machine

/-- Settles O42: the flags of a destination are `commandErrors`, which contain those of every source, do not depend
on a destination that is no source, and for `QR` with `q = r` start from the old ones. -/
theorem flagsAreNeverDroppedByACommand : Obligations.FlagsAreNeverDroppedByACommand := by
  refine ⟨fun i s t h k hk m hm => ?_, fun i s t t' k e hi hk hsrc h h' => ?_, fun q m n s t h => ?_⟩
  · rw [Errors.contains_iff_flagsLe, exec_dest_errors h hk]
    exact s.source_flagsLe_commandErrors hm
  · rw [exec_dest_errors h hk, exec_dest_errors h' hk]
    refine State.commandErrors_congr hi (State.setMat_cfg ..) fun m hm => State.mat_setMat_ne _ _ _ ?_
    rintro rfl
    exact hsrc hm
  · rw [Errors.contains_iff_flagsLe, exec_dest_errors h (by simp [Instr.matDests])]
    rw [State.commandErrors_qr_same]
    exact (FlagsLe.left _ _).trans (FlagsLe.left _ _)

/-- Settles O53: each value of the table of 10_state.md R40 is that of `State.powerOn`, whose laws give it; the packed
registers are then numbers. -/
theorem resetLeavesTheStatedValues : Obligations.ResetLeavesTheStatedValues := by
  have hcfg : State.reset.cfg = { round := true, ovf := true } := State.powerOn_cfg ..
  have hstatus : State.reset.status = { err := false, cause := 0 } := State.powerOn_status ..
  have hdota : State.reset.dota = { base := 0, stride := 0 } := State.powerOn_dota ..
  have hdotb : State.reset.dotb = { base := 0, stride := 0 } := State.powerOn_dotb ..
  have hmat (k : MReg) : State.reset.mat k = MatReg.powerOn 0 k.val := State.powerOn_mat ..
  refine ⟨State.powerOn_getX 0 [], ?_, hcfg, ?_, hstatus, State.powerOn_errinfo .., ?_, ?_, hdota, hdotb,
    fun k => ?_⟩
  · simp [State.locValue, hcfg]
  · simp [State.locValue, hstatus]
  · simp [State.locValue, hdota]
  · simp [State.locValue, hdotb]
  · simp [hmat, MatReg.powerOn]
end

section
/-! PROOFS. The statements about the host port of 20_memory.md: the location at an index, what a read returns, and
what a write stores. -/

namespace Sys2Proof.Machine

/-! ### The address map -/

@[simp] theorem locateMat_rows (k : MReg) : locateMat k 0 = .rows k := rfl
@[simp] theorem locateMat_cols (k : MReg) : locateMat k 1 = .cols k := rfl
@[simp] theorem locateMat_errors (k : MReg) : locateMat k 2 = .errors k := rfl

theorem locateMat_cell (k : MReg) (r c : Fin 8) : locateMat k (0x40 + 8 * r.val + c.val) = .cell k r c := by
  have hr : Fin.ofNat 8 ((0x40 + 8 * r.val + c.val - 0x40) / 8) = r := by ext; simp only [Fin.ofNat]; omega
  have hc : Fin.ofNat 8 ((0x40 + 8 * r.val + c.val - 0x40) % 8) = c := by ext; simp only [Fin.ofNat]; omega
  simp (disch := omega) only [locateMat, if_neg, hr, hc]

theorem locateMat_reserved (k : MReg) {off : Nat} (lo : 3 ≤ off) (hi : off < 0x40) : locateMat k off = .reserved := by
  simp (disch := omega) only [locateMat, if_neg, if_pos]

theorem locate_x {a : Index} (i : XReg) (ha : a.toNat = i.val) : locate a = .x i := by
  have hi : Fin.ofNat 16 a.toNat = i := by ext; simp only [Fin.ofNat]; omega
  simp (disch := omega) only [locate, if_pos, hi]

/-- The indices 0x200 to 0x3FF are four windows of 0x80 words, one for each matrix register (R61). -/
theorem locate_window {a : Index} (k : MReg) {off : Nat} (hoff : off < 0x80)
    (ha : a.toNat = 0x200 + 0x80 * k.val + off) : locate a = locateMat k off := by
  have hk : Fin.ofNat 4 ((a.toNat - 0x200) / 0x80) = k := by ext; simp only [Fin.ofNat]; omega
  have ho : (a.toNat - 0x200) % 0x80 = off := by omega
  simp (disch := omega) only [locate, if_neg, if_pos, hk, ho]

theorem locate_amem {a : Index} (i : Fin 1024) (ha : a.toNat = 0x400 + i.val) : locate a = .amem i := by
  have hi : Fin.ofNat 1024 (a.toNat - 0x400) = i := by ext; simp only [Fin.ofNat]; omega
  simp (disch := omega) only [locate, if_neg, if_pos, hi]

/-- Every location stands at its index. -/
theorem locate_index {l : Loc} (hl : l ≠ .reserved) : locate l.index = l := by
  cases l with
  | x i => exact locate_x i (by simp only [Loc.index, BitVec.toNat_ofNat]; omega)
  | cmd => rfl
  | status => rfl
  | cfg => rfl
  | id => rfl
  | errinfo => rfl
  | dota => rfl
  | dotb => rfl
  | rows k =>
    rw [locate_window k (off := 0) (by omega) (by simp only [Loc.index, BitVec.toNat_ofNat]; omega), locateMat_rows]
  | cols k =>
    rw [locate_window k (off := 1) (by omega) (by simp only [Loc.index, BitVec.toNat_ofNat]; omega), locateMat_cols]
  | errors k =>
    rw [locate_window k (off := 2) (by omega) (by simp only [Loc.index, BitVec.toNat_ofNat]; omega), locateMat_errors]
  | cell k r c =>
    rw [locate_window k (off := 0x40 + 8 * r.val + c.val) (by omega)
      (by simp only [Loc.index, BitVec.toNat_ofNat]; omega), locateMat_cell]
  | amem i => exact locate_amem i (by simp only [Loc.index, BitVec.toNat_ofNat]; omega)
  | reserved => exact absurd rfl hl

/-- The gap between the flags and the cells of a window. -/
theorem locate_windowGap {a : Index} (k : MReg) (lo : 0x203 + 0x80 * k.val ≤ a.toNat)
    (hi : a.toNat ≤ 0x23F + 0x80 * k.val) : locate a = .reserved := by
  rw [locate_window k (off := a.toNat - 0x200 - 0x80 * k.val) (by omega) (by omega)]
  exact locateMat_reserved k (by omega) (by omega)

/-- No location stands at an index of the list of 60_exceptions.md R226. -/
theorem locate_of_reservedIndex {a : Index} (h : ReservedIndex a) : locate a = .reserved := by
  rcases h with ⟨lo, hi⟩ | ⟨lo, hi⟩ | ⟨lo, hi⟩ | ⟨lo, hi⟩ | ⟨lo, hi⟩ | ⟨lo, -⟩
  · simp (disch := omega) only [locate, if_neg, if_pos]
  · exact locate_windowGap 0 lo hi
  · exact locate_windowGap 1 lo hi
  · exact locate_windowGap 2 lo hi
  · exact locate_windowGap 3 lo hi
  · simp (disch := omega) only [locate, if_neg]

/-- The list of 60_exceptions.md R227 holds the indices of `ROWS` and `COLS`. -/
theorem locate_of_shapeIndex {a : Index} (h : ShapeIndex a) : ∃ k, locate a = .rows k ∨ locate a = .cols k := by
  have rows (k : MReg) : locate (Loc.rows k).index = .rows k := locate_index Loc.noConfusion
  have cols (k : MReg) : locate (Loc.cols k).index = .cols k := locate_index Loc.noConfusion
  rcases h with rfl | rfl | rfl | rfl | rfl | rfl | rfl | rfl
  · exact ⟨0, .inl (rows 0)⟩
  · exact ⟨0, .inr (cols 0)⟩
  · exact ⟨1, .inl (rows 1)⟩
  · exact ⟨1, .inr (cols 1)⟩
  · exact ⟨2, .inl (rows 2)⟩
  · exact ⟨2, .inr (cols 2)⟩
  · exact ⟨3, .inl (rows 3)⟩
  · exact ⟨3, .inr (cols 3)⟩

/-! ### The words of the packed registers -/

/-- Two fields side by side, as the word of a number. -/
theorem shiftLeft_or_eq_ofNat {n m : Nat} (hi : BitVec n) (lo : BitVec m) (k : Nat) (hm : m ≤ k) (hn : n + k ≤ 32) :
    ((hi.zeroExtend 32 <<< k) ||| lo.zeroExtend 32) = BitVec.ofNat 32 (2 ^ k * hi.toNat + lo.toNat) := by
  rw [Nat.mul_comm, ← toNat_shiftLeft_or hi lo k hm hn, BitVec.ofNat_toNat, BitVec.setWidth_eq]

theorem Status.word_eq (t : Status) : t.word = BitVec.ofNat 32 (16 * t.cause.toNat + t.err.toNat) := by
  rw [← BitVec.toNat_ofBool]
  exact shiftLeft_or_eq_ofNat _ _ 4 (by decide) (by decide)

theorem Cfg.word_eq (c : Cfg) : c.word = BitVec.ofNat 32 (2 * c.ovf.toNat + c.round.toNat) := by
  rw [← BitVec.toNat_ofBool, ← BitVec.toNat_ofBool]
  exact shiftLeft_or_eq_ofNat _ _ 1 (by decide) (by decide)

theorem DotDesc.word_eq (d : DotDesc) : d.word = BitVec.ofNat 32 (0x10000 * d.stride.toNat + d.base.toNat) :=
  shiftLeft_or_eq_ofNat _ _ 16 (by decide) (by decide)

/-- A field of a word in its place is the word under the field's mask. -/
theorem extract_shiftLeft (v : Word) (k n : Nat) :
    (v.extractLsb' k n).zeroExtend 32 <<< k = v &&& ((BitVec.allOnes n).zeroExtend 32 <<< k) := by
  ext i hi
  by_cases hk : i < k
  · simp [hk]
  · have e : k + (i - k) = i := by omega
    simp [hk, e, Bool.and_comm, BitVec.getLsbD_eq_getElem hi]

theorem extract_low (v : Word) (n : Nat) :
    (v.extractLsb' 0 n).zeroExtend 32 = v &&& (BitVec.allOnes n).zeroExtend 32 := by
  rw [← BitVec.shiftLeft_zero ((v.extractLsb' 0 n).zeroExtend 32), extract_shiftLeft, BitVec.shiftLeft_zero]

/-- Two fields of a word in their places are the word under the mask of both. -/
theorem extract_shiftLeft_or (v : Word) (k n m : Nat) :
    ((v.extractLsb' k n).zeroExtend 32 <<< k) ||| (v.extractLsb' 0 m).zeroExtend 32 =
      v &&& (((BitVec.allOnes n).zeroExtend 32 <<< k) ||| (BitVec.allOnes m).zeroExtend 32) := by
  rw [extract_shiftLeft, extract_low, BitVec.and_or_distrib_left]

/-- What `CFG` reads as after a write: bits 1:0 of the word (R63). -/
theorem Cfg.word_ofWord (v : Word) : (Cfg.ofWord v).word = v &&& 0x00000003 := by
  have bit (k : Nat) : BitVec.ofBool (v.getLsbD k) = v.extractLsb' k 1 := by ext i hi; simp [show i = 0 by omega]
  simp only [Cfg.word, Cfg.ofWord, bit]
  exact extract_shiftLeft_or v 1 1 1

/-- What a descriptor reads as after a write: bits 9:0 and 25:16 of the word (R63). -/
theorem DotDesc.word_ofWord (v : Word) : (DotDesc.ofWord v).word = v &&& 0x03FF03FF :=
  extract_shiftLeft_or v 16 10 10

/-- What `ERRORS` reads as after a write: bits 4:0 of the word (R63). -/
theorem ofNat_extract_errors (v : Word) : BitVec.ofNat 32 (v.extractLsb' 0 5).toNat = v &&& 0x0000001F := by
  rw [BitVec.ofNat_toNat]
  exact extract_low v 5

/-- A legal shape value is read back whole. -/
theorem ofNat_extract_of_legalDim {v : Word} (h : legalDim v = true) :
    BitVec.ofNat 32 (v.extractLsb' 0 4).toNat = v := by
  rw [toNat_extract_of_legalDim h, BitVec.ofNat_toNat, BitVec.setWidth_eq]

theorem accessInfo_read (a : Index) : accessInfo false a = BitVec.ofNat 32 a.toNat := by
  simp [accessInfo]

/-- Bit 31 of a rejected write is set beside the index (60_exceptions.md R221). -/
theorem accessInfo_write (a : Index) : accessInfo true a = BitVec.ofNat 32 (0x80000000 + a.toNat) :=
  shiftLeft_or_eq_ofNat (1 : BitVec 1) a 31 (by decide) (by decide)

/-! ### What a read returns -/

/-- The port gives what the table of R62 lists for the location at the index. -/
theorem State.portWord_eq_locValue (s : State) (a : Index) : s.portWord a = s.locValue (locate a) := by
  unfold State.portWord
  cases locate a with
  | x i => rfl
  | cmd => rfl
  | status => exact s.status.word_eq
  | cfg => exact s.cfg.word_eq
  | id => rfl
  | errinfo => rfl
  | dota => exact s.dota.word_eq
  | dotb => exact s.dotb.word_eq
  | rows k => exact (BitVec.ofNat_toNat 32 (s.mat k).rows).symm
  | cols k => exact (BitVec.ofNat_toNat 32 (s.mat k).cols).symm
  | errors k => exact (BitVec.ofNat_toNat 32 (s.mat k).errors).symm
  | cell k r c => rfl
  | amem i => rfl
  | reserved => rfl

@[simp] theorem State.locValue_takeInput (s : State) (l : Loc) : s.takeInput.locValue l = s.locValue l := rfl

/-- A rejection changes the record alone, and that only while `ERR` was 0. -/
theorem State.rejected_reject (s : State) (cause : Cause) (info : Word) :
    State.Rejected cause info s (s.reject cause info) := by
  refine ⟨by simp [State.SameRest], by simp, by simp, fun h => ?_, fun h => ?_⟩
  · simp [State.reject, h]
  · simp [State.reject, h]

section read
variable {s : State} {a : Index} {rest : List HostInput}

theorem step_read (hp : s.pending = .read a :: rest) (ha : locate a ≠ .reserved) :
    step s = .next { s with pending := rest, response := some (s.locValue (locate a)) } := by
  rw [step_plain hp (HostInput.command_read a), State.plainInput, State.hostRead_of_ne ha,
    State.portWord_eq_locValue, State.locValue_takeInput, State.takeInput_eq hp]

theorem step_read_reserved (hp : s.pending = .read a :: rest) (ha : locate a = .reserved) :
    step s = .next (State.reject { s with pending := rest, response := some 0 } .badAddr
      (BitVec.ofNat 32 a.toNat)) := by
  rw [step_plain hp (HostInput.command_read a), State.plainInput, State.hostRead_reserved ha, accessInfo_read,
    State.takeInput_eq hp]

end read

/-! ### What a write stores -/

/-- From `s` to `t` the location `l` comes to read as `w`, and every other location reads as before. -/
def State.StoresAt (l : Loc) (w : Word) (s t : State) : Prop :=
  t.locValue l = w ∧ ∀ l', l' ≠ l → t.locValue l' = s.locValue l'

section stores
variable (s : State)

theorem State.storesAt_setX (i : XReg) (v : Word) : State.StoresAt (.x i) v s (s.setX i v) := by
  refine ⟨s.getX_setX_self i v, fun l hl => ?_⟩
  cases l with
  | x j => exact s.getX_setX_ne i v fun h => hl (h ▸ rfl)
  | _ => rfl

theorem State.storesAt_writeAmem (i : Fin 1024) (v : Word) : State.StoresAt (.amem i) v s (s.writeAmem i.val v) := by
  refine ⟨s.amemWord_writeAmem_self i.val v, fun l hl => ?_⟩
  cases l with
  | amem j => exact s.amemWord_writeAmem_ne v fun h => hl (Fin.ext h ▸ rfl)
  | _ => rfl

theorem State.storesAt_cfg {c : Cfg} {w : Word} (hw : c.word = w) :
    State.StoresAt .cfg w s { s with cfg := c } := by
  refine ⟨c.word_eq.symm.trans hw, fun l hl => ?_⟩
  cases l with
  | cfg => exact absurd rfl hl
  | _ => rfl

theorem State.storesAt_dota {d : DotDesc} {w : Word} (hw : d.word = w) :
    State.StoresAt .dota w s { s with dota := d } := by
  refine ⟨d.word_eq.symm.trans hw, fun l hl => ?_⟩
  cases l with
  | dota => exact absurd rfl hl
  | _ => rfl

theorem State.storesAt_dotb {d : DotDesc} {w : Word} (hw : d.word = w) :
    State.StoresAt .dotb w s { s with dotb := d } := by
  refine ⟨d.word_eq.symm.trans hw, fun l hl => ?_⟩
  cases l with
  | dotb => exact absurd rfl hl
  | _ => rfl

/-- A new record in `M[k]` changes what a location reads as only where the record differs there. -/
theorem State.locValue_setMat {k : MReg} {m : MatReg} {l : Loc} (hrows : l = .rows k → m.rows = (s.mat k).rows)
    (hcols : l = .cols k → m.cols = (s.mat k).cols) (herrors : l = .errors k → m.errors = (s.mat k).errors)
    (hcell : ∀ r c, l = .cell k r c → m.cell r.val c.val = (s.mat k).cell r.val c.val) :
    (s.setMat k m).locValue l = s.locValue l := by
  cases l with
  | rows j =>
    by_cases hj : j = k
    · subst hj
      simp [State.locValue, hrows rfl]
    · simp [State.locValue, State.mat_setMat_ne _ _ _ hj]
  | cols j =>
    by_cases hj : j = k
    · subst hj
      simp [State.locValue, hcols rfl]
    · simp [State.locValue, State.mat_setMat_ne _ _ _ hj]
  | errors j =>
    by_cases hj : j = k
    · subst hj
      simp [State.locValue, herrors rfl]
    · simp [State.locValue, State.mat_setMat_ne _ _ _ hj]
  | cell j r c =>
    by_cases hj : j = k
    · subst hj
      simp [State.locValue, hcell r c rfl]
    · simp [State.locValue, State.mat_setMat_ne _ _ _ hj]
  | _ => rfl

theorem State.storesAt_rows (k : MReg) {n : BitVec 4} {w : Word} (hw : BitVec.ofNat 32 n.toNat = w) :
    State.StoresAt (.rows k) w s (s.setMat k { s.mat k with rows := n }) :=
  ⟨by rw [State.locValue, State.mat_setMat_self, hw], fun _ hl =>
    s.locValue_setMat (fun h => absurd h hl) (fun _ => rfl) (fun _ => rfl) fun _ _ _ => rfl⟩

theorem State.storesAt_cols (k : MReg) {n : BitVec 4} {w : Word} (hw : BitVec.ofNat 32 n.toNat = w) :
    State.StoresAt (.cols k) w s (s.setMat k { s.mat k with cols := n }) :=
  ⟨by rw [State.locValue, State.mat_setMat_self, hw], fun _ hl =>
    s.locValue_setMat (fun _ => rfl) (fun h => absurd h hl) (fun _ => rfl) fun _ _ _ => rfl⟩

theorem State.storesAt_errors (k : MReg) {e : Errors} {w : Word} (hw : BitVec.ofNat 32 e.toNat = w) :
    State.StoresAt (.errors k) w s (s.setMat k { s.mat k with errors := e }) :=
  ⟨by rw [State.locValue, State.mat_setMat_self, hw], fun _ hl =>
    s.locValue_setMat (fun _ => rfl) (fun _ => rfl) (fun h => absurd h hl) fun _ _ _ => rfl⟩

theorem State.storesAt_cell (k : MReg) (r c : Fin 8) (v : Word) :
    State.StoresAt (.cell k r c) v s
      (s.setMat k { s.mat k with data := Cells.setCell (s.mat k).data r.val c.val v }) := by
  refine ⟨?_, fun l hl => s.locValue_setMat (fun _ => rfl) (fun _ => rfl) (fun _ => rfl) ?_⟩
  · rw [State.locValue, State.mat_setMat_self]
    exact Cells.cell_setCell_self _ v ⟨r.isLt, c.isLt⟩
  · rintro r' c' rfl
    refine Cells.cell_setCell_ne _ v fun h => hl ?_
    rw [Fin.ext h.1, Fin.ext h.2]
end stores

section write
variable {s : State} {a : Index} {v : Word} {rest : List HostInput}

@[simp] theorem State.portWrite_response : (s.portWrite a v).response = s.response := by
  unfold State.portWrite
  split <;> simp <;> split <;> simp

@[simp] theorem State.portWrite_resets : (s.portWrite a v).resets = s.resets := by
  unfold State.portWrite
  split <;> simp <;> split <;> simp

/-- A location that accepts a word stores its bits, and no other location reads differently (R63). -/
theorem State.storesAt_portWrite {l : Loc} (ha : locate a = l) (hv : l.Accepts v) :
    State.StoresAt l (l.stored v) s (s.portWrite a v) := by
  cases l with
  | x i => exact State.portWrite_x ha ▸ s.storesAt_setX i v
  | cmd => exact hv.elim
  | status => exact hv.elim
  | cfg => exact State.portWrite_cfg ha ▸ s.storesAt_cfg (Cfg.word_ofWord v)
  | id => exact hv.elim
  | errinfo => exact hv.elim
  | dota => exact State.portWrite_dota ha ▸ s.storesAt_dota (DotDesc.word_ofWord v)
  | dotb => exact State.portWrite_dotb ha ▸ s.storesAt_dotb (DotDesc.word_ofWord v)
  | rows k =>
    have hdim : legalDim v = true := (legalDim_iff v).2 hv
    rw [State.portWrite_rows ha, if_pos hdim]
    exact s.storesAt_rows k (ofNat_extract_of_legalDim hdim)
  | cols k =>
    have hdim : legalDim v = true := (legalDim_iff v).2 hv
    rw [State.portWrite_cols ha, if_pos hdim]
    exact s.storesAt_cols k (ofNat_extract_of_legalDim hdim)
  | errors k => exact State.portWrite_errors ha ▸ s.storesAt_errors k (ofNat_extract_errors v)
  | cell k r c => exact State.portWrite_cell ha ▸ s.storesAt_cell k r c v
  | amem i => exact State.portWrite_amem ha ▸ s.storesAt_writeAmem i v
  | reserved => exact hv.elim

/-- A word at a location that no write reaches is rejected with `BAD_ADDR` (R63). -/
theorem State.portWrite_badAddr (h : locate a = .reserved ∨ locate a = .id ∨ locate a = .errinfo) :
    s.portWrite a v = s.reject .badAddr (BitVec.ofNat 32 (0x80000000 + a.toNat)) := by
  rw [← accessInfo_write]
  rcases h with h | h | h
  · exact State.portWrite_reserved h
  · exact State.portWrite_id h
  · exact State.portWrite_errinfo h

/-- A shape value outside 1..8 is rejected with `BAD_VALUE`, tested on the whole word (R63). -/
theorem State.portWrite_badValue {k : MReg} (ha : locate a = .rows k ∨ locate a = .cols k)
    (hv : v.toNat = 0 ∨ 8 < v.toNat) :
    s.portWrite a v = s.reject .badValue (BitVec.ofNat 32 (0x80000000 + a.toNat)) := by
  have hdim : ¬ legalDim v = true := by rw [legalDim_iff]; omega
  rw [← accessInfo_write]
  rcases ha with ha | ha
  · rw [State.portWrite_rows ha, if_neg hdim]
  · rw [State.portWrite_cols ha, if_neg hdim]

theorem step_write (hp : s.pending = .write a v :: rest) (ha : locate a ≠ .cmd) :
    step s = .next (State.portWrite { s with pending := rest, response := none } a v) := by
  rw [step_plain hp (HostInput.command_write v ha), State.plainInput, State.takeInput_eq hp]

theorem step_write_cmd (hp : s.pending = .write 0x010 v :: rest) :
    step s = State.issue { s with pending := rest, response := none } v := by
  rw [step_issue hp (HostInput.command_cmd v), State.takeInput_eq hp]

theorem State.issue_ok {i : Instr} (h : decode v = .ok i) : s.issue v = exec i s := by
  simp only [State.issue, h]

theorem State.issue_error {why : IllegalCmd} (h : decode v = .error why) :
    s.issue v = .next (s.reject .illegalCmd v) := by
  simp only [State.issue, h, State.rejectCommand]

theorem Loc.ne_cmd_of_accepts {l : Loc} (h : l.Accepts v) : l ≠ .cmd := by
  rintro rfl
  exact h

theorem Loc.ne_reserved_of_accepts {l : Loc} (h : l.Accepts v) : l ≠ .reserved := by
  rintro rfl
  exact h
end write

end Sys2Proof.Machine

open Sys2Proof Sys2Proof.Machine

/-- Settles O47: a read returns the word of the location at its index, by `step_read`; no location stands at a
reserved index, where the read is rejected. -/
theorem readReturnsTheLocation : Obligations.ReadReturnsTheLocation := by
  intro s a rest hp
  refine ⟨fun l hl hla => ?_, fun ha => ⟨_, step_read_reserved hp (locate_of_reservedIndex ha), ?_, ?_⟩⟩
  · have hloc : locate a = l := hla ▸ locate_index hl
    rw [step_read hp (hloc ▸ hl), hloc]
  · exact State.reject_response ..
  · exact State.rejected_reject ..

/-- Settles O49, clause by clause: at a location that accepts the word `State.storesAt_portWrite`, at `CMD` the decoder,
at `STATUS` the acknowledgement, elsewhere the rejection. -/
theorem writeHasTheListedEffect : Obligations.WriteHasTheListedEffect := by
  intro s a v rest hp
  refine ⟨fun l hla hv => ?stored, ?cmd, ?status, fun ha => ?badAddr, fun ha hv => ?badValue⟩
  case stored =>
    have ha : locate a = l := hla ▸ locate_index (Loc.ne_reserved_of_accepts hv)
    obtain ⟨hself, hother⟩ := State.storesAt_portWrite (s := { s with pending := rest, response := none }) ha hv
    exact ⟨_, step_write hp (ha ▸ Loc.ne_cmd_of_accepts hv), State.portWrite_pending, State.portWrite_response,
      State.portWrite_resets, hself, hother⟩
  case cmd =>
    rintro rfl
    rw [step_write_cmd hp]
    exact ⟨fun i hi => State.issue_ok hi, fun why hw => ⟨_, State.issue_error hw, State.rejected_reject ..⟩⟩
  case status =>
    rintro rfl
    have ha : locate 0x011 = .status := rfl
    rw [step_write hp (ha ▸ Loc.noConfusion), State.portWrite_status ha]
    exact ⟨fun hv => by rw [if_pos hv]; rfl, fun hv => by rw [hv]; rfl⟩
  case badAddr =>
    have hloc : locate a = .reserved ∨ locate a = .id ∨ locate a = .errinfo := by
      rcases ha with ha | rfl | rfl
      · exact .inl (locate_of_reservedIndex ha)
      · exact .inr (.inl rfl)
      · exact .inr (.inr rfl)
    have hcmd : locate a ≠ .cmd := fun h => by simp [h] at hloc
    rw [step_write hp hcmd, State.portWrite_badAddr hloc]
    exact ⟨_, rfl, State.rejected_reject ..⟩
  case badValue =>
    obtain ⟨k, hloc⟩ := locate_of_shapeIndex ha
    have hcmd : locate a ≠ .cmd := fun h => by simp [h] at hloc
    rw [step_write hp hcmd, State.portWrite_badValue hloc hv]
    exact ⟨_, rfl, State.rejected_reject ..⟩

end

section
/-! PROOFS. The statements about the scalar functions of 40_scalar.md: the square root, addition and subtraction with
overflow detection, and the failures of the scalar commands. -/

namespace Sys2Proof.Machine

/-! ### The square root -/

/-- The root that `sqrt` writes, as a function of the radicand (40_scalar.md R126). -/
def roundedRoot (round : Bool) (N : Nat) : Nat :=
  if round && decide (isqrt N < N - isqrt N * isqrt N) then isqrt N + 1 else isqrt N

theorem sqrt_of_neg (cfg : Cfg) {a : Word} (h : s32 a < 0) : sqrt cfg a = OVF := if_pos h

theorem sqrt_of_nonneg (cfg : Cfg) {a : Word} (h : 0 ≤ s32 a) :
    sqrt cfg a = w32 (roundedRoot cfg.round ((s32 a).toNat * 2 ^ 16)) := by
  rw [sqrt, if_neg (by omega), roundedRoot, apply_ite (fun n : Nat => (n : Int))]
  rfl

theorem roundedRoot_floor (N : Nat) : roundedRoot false N ^ 2 ≤ N ∧ N < (roundedRoot false N + 1) ^ 2 := by
  have hroot : roundedRoot false N = isqrt N := if_neg Bool.false_ne_true
  rw [hroot, sq, sq]
  exact isqrt_spec N

/-- R126: `N − s² > s` says `N > (s + ½)²` for integers. -/
theorem roundedRoot_nearest (N : Nat) :
    4 * (N : Int) < (2 * roundedRoot true N + 1) ^ 2 ∧
    (0 < roundedRoot true N → (2 * (roundedRoot true N : Int) - 1) ^ 2 < 4 * N) := by
  obtain ⟨lo, hi⟩ := isqrt_spec N
  simp only [roundedRoot, Bool.true_and, decide_eq_true_eq]
  generalize isqrt N = s at *
  split
  case isTrue hup =>
    have hup' : s * s + s < N := by omega
    zify at hup' hi
    push_cast
    exact ⟨by nlinarith only [hi], fun _ => by nlinarith only [hup']⟩
  case isFalse hdown =>
    have hdown' : N ≤ s * s + s := by omega
    zify at hdown' lo
    refine ⟨by nlinarith only [hdown'], fun hs => ?_⟩
    zify at hs
    nlinarith only [lo, hs]

/-- The radicand of a word is below 2^47, and the greatest such radicand still rounds down. -/
theorem roundedRoot_le (round : Bool) {N : Nat} (h : N ≤ (2 ^ 31 - 1) * 2 ^ 16) :
    roundedRoot round N ≤ 0x00B504F3 := by
  by_contra! hbig
  cases round with
  | false =>
    have hfloor := (roundedRoot_floor N).1
    have hsq : (0x00B504F3 + 1) ^ 2 ≤ roundedRoot false N ^ 2 := Nat.pow_le_pow_left hbig 2
    omega
  | true =>
    have hnear := (roundedRoot_nearest N).2 (by omega)
    have hsq : (2 * 0x00B504F3 + 1 : Int) ^ 2 ≤ (2 * (roundedRoot true N : Int) - 1) ^ 2 :=
      pow_le_pow_left₀ (by norm_num) (by omega) 2
    omega

theorem radicand_le (a : Word) : (s32 a).toNat * 2 ^ 16 ≤ (2 ^ 31 - 1) * 2 ^ 16 := by
  have := (s32_range a).2
  omega

theorem s32_sqrt (cfg : Cfg) {a : Word} (h : 0 ≤ s32 a) :
    s32 (sqrt cfg a) = roundedRoot cfg.round ((s32 a).toNat * 2 ^ 16) := by
  have := roundedRoot_le cfg.round (radicand_le a)
  rw [sqrt_of_nonneg cfg h, s32_w32] <;> omega

/-- `sqrt` reads `CFG.ROUND` alone. -/
theorem sqrt_congr_round {cfg cfg' : Cfg} (a : Word) (h : cfg.round = cfg'.round) : sqrt cfg a = sqrt cfg' a := by
  rw [sqrt, sqrt, h]

/-! ### Addition and subtraction with overflow detection -/

/-- The common end of `add_overflow` and `sub_overflow` (40_scalar.md R131, R132): the exact result `v` is tested,
then cut to a word. -/
def overflowChecked (cfg : Cfg) (v : Int) : Word :=
  if cfg.ovf && (decide (v < -2 ^ 31) || decide (2 ^ 31 - 1 < v)) then OVF else w32 v

theorem overflowChecked_of_range (cfg : Cfg) {v : Int} (lo : -2 ^ 31 ≤ v) (hi : v ≤ 2 ^ 31 - 1) :
    overflowChecked cfg v = w32 v :=
  if_neg (by simp only [Bool.and_eq_true, Bool.or_eq_true, decide_eq_true_eq]; omega)

theorem s32_overflowChecked (cfg : Cfg) {v : Int} (lo : -2 ^ 31 ≤ v) (hi : v ≤ 2 ^ 31 - 1) :
    s32 (overflowChecked cfg v) = v := by
  rw [overflowChecked_of_range cfg lo hi, s32_w32 lo (by omega)]

theorem overflowChecked_of_outside {cfg : Cfg} {v : Int} (hovf : cfg.ovf = true)
    (h : v < -2 ^ 31 ∨ 2 ^ 31 - 1 < v) : overflowChecked cfg v = OVF :=
  if_pos (by simpa only [hovf, Bool.true_and, Bool.or_eq_true, decide_eq_true_eq] using h)

theorem overflowChecked_of_ovf_off {cfg : Cfg} (v : Int) (hovf : cfg.ovf = false) : overflowChecked cfg v = w32 v :=
  if_neg (by simp [hovf])

theorem addOverflow_eq (cfg : Cfg) (a b : Word) : addOverflow cfg a b = overflowChecked cfg (s32 a + s32 b) := rfl

theorem subOverflow_eq (cfg : Cfg) (a : Word) {b : Word} (h : cfg.ovf = true → b ≠ OVF) :
    subOverflow cfg a b = overflowChecked cfg (s32 a - s32 b) :=
  if_neg (by simpa using h)

theorem subOverflow_min {cfg : Cfg} (a : Word) (hovf : cfg.ovf = true) : subOverflow cfg a OVF = OVF :=
  if_pos (by simp [hovf])

theorem w32_add (a b : Word) : w32 (s32 a + s32 b) = a + b :=
  BitVec.eq_of_toInt_eq (by rw [BitVec.toInt_ofInt, BitVec.toInt_add])

theorem w32_sub (a b : Word) : w32 (s32 a - s32 b) = a - b :=
  BitVec.eq_of_toInt_eq (by rw [BitVec.toInt_ofInt, BitVec.toInt_sub])

/-- The wrapped sum is the exact one, or off by 2^32 to the side where the exact one left the range. -/
theorem s32_add_cases (a b : Word) :
    (s32 a + s32 b < -2 ^ 31 ∧ s32 (a + b) = s32 a + s32 b + 2 ^ 32) ∨
    (-2 ^ 31 ≤ s32 a + s32 b ∧ s32 a + s32 b < 2 ^ 31 ∧ s32 (a + b) = s32 a + s32 b) ∨
    (2 ^ 31 ≤ s32 a + s32 b ∧ s32 (a + b) = s32 a + s32 b - 2 ^ 32) := by
  have ha := s32_range a
  have hb := s32_range b
  have hsum : s32 (a + b) = (s32 a + s32 b).bmod (2 ^ 32) := BitVec.toInt_add a b
  rw [Int.bmod_def] at hsum
  split at hsum <;> omega

/-- The sign comparison of R131. -/
theorem add_outside_iff_signs (a b : Word) :
    (s32 a + s32 b < -2 ^ 31 ∨ 2 ^ 31 - 1 < s32 a + s32 b) ↔
      ((s32 a < 0 ↔ s32 b < 0) ∧ ¬ (s32 a < 0 ↔ s32 (a + b) < 0)) := by
  have ha := s32_range a
  have hb := s32_range b
  rcases s32_add_cases a b with ⟨below, hsum⟩ | ⟨lo, hi, hsum⟩ | ⟨above, hsum⟩
  · omega
  · omega
  · omega

theorem s32_neg_of_ne_min {a : Word} (h : a ≠ OVF) : s32 (-a) = -s32 a := BitVec.toInt_neg_of_ne_intMin h

theorem addOverflow_neg (cfg : Cfg) {a : Word} (h : a ≠ OVF) : addOverflow cfg a (-a) = 0 := by
  have hzero : s32 a + s32 (-a) = 0 := by rw [s32_neg_of_ne_min h, add_neg_cancel]
  rw [addOverflow_eq, hzero]
  exact overflowChecked_of_range cfg (by norm_num) (by norm_num)

/-! ### The failures of the scalar commands -/

theorem State.onlyXChanges_setX (s : State) (d : XReg) (v : Word) : State.OnlyXChanges d s (s.setX d v) :=
  ⟨⟨rfl, fun _ => rfl, rfl, rfl, rfl, rfl, rfl, rfl⟩, rfl, rfl, fun _ => rfl, fun _ => State.getX_setX_ne _ _ _⟩

/-- The overflow test of `narrow`, before it rounds (R120). -/
theorem narrow_of_outside {cfg : Cfg} {p : Int} (hovf : cfg.ovf = true) (h : p < -2 ^ 47 ∨ 2 ^ 47 ≤ p) :
    narrow cfg p = OVF :=
  if_pos (by simpa only [hovf, Bool.true_and, Bool.or_eq_true, decide_eq_true_eq] using h)

theorem div_zero_divisor (cfg : Cfg) (a : Word) : div cfg a 0 = OVF := if_pos BitVec.toInt_zero

/-- An exact quotient of 2^31 or more has a magnitude of 2^31 or more in both modes (R124). -/
theorem divMagnitude_ge (round : Bool) {na nb : Nat} (hnb : 0 < nb) (h : 2 ^ 31 * nb ≤ na * 2 ^ 16) :
    2 ^ 31 ≤ divMagnitude round na nb := by
  cases round with
  | false =>
    rw [divMagnitude, if_neg Bool.false_ne_true, Nat.le_div_iff_mul_le hnb]
    exact h
  | true =>
    have hdouble : 2 ^ 32 ≤ na * 2 ^ 17 / nb := (Nat.le_div_iff_mul_le hnb).2 (by omega)
    rw [divMagnitude, if_pos rfl]
    omega

theorem div_of_outside {cfg : Cfg} {a b : Word} (hovf : cfg.ovf = true)
    (h : 2 ^ 31 * |s32 b| ≤ |s32 a| * 2 ^ 16) : div cfg a b = OVF := by
  by_cases hb : s32 b = 0
  · exact if_pos hb
  · rw [Int.abs_eq_natAbs, Int.abs_eq_natAbs] at h
    have hmag := divMagnitude_ge cfg.round (na := (s32 a).natAbs) (nb := (s32 b).natAbs) (by omega) (by omega)
    rw [div, if_neg hb]
    exact if_pos (by simp only [hovf, Bool.true_and, decide_eq_true_eq, hmag])

end Sys2Proof.Machine

open Sys2Proof Sys2Proof.Machine

/-- Settles O19: for a word that is not negative `sqrt` is `roundedRoot` of the radicand, which fits a word. -/
theorem sqrtIsNearestOrFloor : Obligations.SqrtIsNearestOrFloor := by
  intro cfg a
  refine ⟨sqrt_of_neg cfg, fun ha => ?_, sqrt_congr_round a rfl⟩
  have hN : (((s32 a).toNat * 2 ^ 16 : Nat) : Int) = s32 a * 2 ^ 16 := by omega
  have hle := roundedRoot_le cfg.round (radicand_le a)
  rw [s32_sqrt cfg ha, ← hN]
  refine ⟨by omega, by omega, fun hround => ?nearest, fun hround => ?floor⟩
  case nearest =>
    rw [hround]
    exact_mod_cast roundedRoot_nearest _
  case floor =>
    rw [hround]
    exact_mod_cast roundedRoot_floor _

/-- Settles O21: the first three clauses are those of `overflowChecked` on the exact sum, the fourth compares it with
the wrapped one. -/
theorem addOverflowDetectsBySign : Obligations.AddOverflowDetectsBySign := by
  intro cfg a b
  refine ⟨fun _ => s32_overflowChecked cfg, overflowChecked_of_outside, fun hovf => ?wraps,
    add_outside_iff_signs a b, addOverflow_neg cfg⟩
  case wraps =>
    rw [addOverflow_eq, overflowChecked_of_ovf_off _ hovf, w32_add]

/-- Settles O22: `MIN` as second operand is tested first; any other is left to `overflowChecked` on the exact
difference. -/
theorem subOverflowOfMinAlwaysOverflows : Obligations.SubOverflowOfMinAlwaysOverflows := by
  intro cfg a b
  refine ⟨subOverflow_min a, fun _ hb lo hi => ?fits, fun hovf h => ?outside, fun hovf => ?wraps⟩
  case fits =>
    rw [subOverflow_eq cfg a fun _ => hb, s32_overflowChecked cfg lo hi]
  case outside =>
    by_cases hb : b = OVF
    · rw [hb]
      exact subOverflow_min a hovf
    · exact (subOverflow_eq cfg a fun _ => hb).trans (overflowChecked_of_outside hovf h)
  case wraps =>
    rw [subOverflow_eq cfg a (by simp [hovf]), overflowChecked_of_ovf_off _ hovf, w32_sub]

/-- Settles O14: each command is one write of `x[d]`, and the word written is that of the failing function. -/
theorem scalarFailuresAreInBand : Obligations.ScalarFailuresAreInBand := by
  intro d a b s
  refine ⟨⟨_, exec_mul s d a b, s.onlyXChanges_setX d _, fun hovf h => ?mul⟩,
    ⟨_, exec_div s d a b, s.onlyXChanges_setX d _, fun hb => ?divZero, fun hovf h => ?divOutside⟩,
    ⟨_, exec_sqrt s d a, s.onlyXChanges_setX d _, fun h => ?sqrt⟩⟩ <;> rw [State.getX_setX_self]
  case mul => exact narrow_of_outside hovf h
  case divZero => exact hb ▸ div_zero_divisor ..
  case divOutside => exact div_of_outside hovf h
  case sqrt => exact sqrt_of_neg s.cfg h
end

section
/-! PROOFS. The statement about equal destinations and aliasing in `QR` of 43_qr.md. -/

namespace Sys2Proof.Machine

/-- A replaced matrix register is the only change. -/
theorem State.onlyMatsChange_setMat (s : State) (k : MReg) (m : MatReg) :
    State.OnlyMatsChange (· = k) s (s.setMat k m) :=
  ⟨⟨rfl, fun _ => rfl, rfl, rfl, rfl, rfl, rfl, rfl⟩, rfl, rfl, fun _ => rfl, fun _ => s.mat_setMat_ne k m⟩

/-- The old record of a destination does not show in its new shape: a place outside the 8 × 8 store, which only a
shape that is not legal has, holds 0 in both. -/
theorem MatReg.sameInShape_store (D D' : MatReg) (rows cols : BitVec 4) (e : Errors) (f : Nat → Nat → Word) :
    MatReg.SameInShape (D.store rows cols e f) (D'.store rows cols e f) := by
  refine ⟨rfl, rfl, rfl, fun r c hr hc => ?_⟩
  have hshape : r < rows.toNat ∧ c < cols.toNat := ⟨hr, hc⟩
  rw [MatReg.cell_store, MatReg.cell_store]
  by_cases hin : r < 8 ∧ c < 8
  · rw [if_pos ⟨hin.1, hin.2, hshape⟩, if_pos ⟨hin.1, hin.2, hshape⟩]
  · rw [MatReg.cell, MatReg.cell, Cells.cell_outside _ hin, Cells.cell_outside _ hin]

/-! ### The records that `QR` leaves -/

section qrUseErr
variable (s : State) (q m : MReg)

theorem State.qrUseErr_mat :
    (s.qrUseErr q m).mat q = { s.mat q with errors := (s.mat q).errors ||| (s.mat m).errors ||| Errors.useerr } :=
  s.mat_setMat_self q _

@[simp] theorem State.qrUseErr_rows : ((s.qrUseErr q m).mat q).rows = (s.mat q).rows := by
  rw [State.qrUseErr_mat]

@[simp] theorem State.qrUseErr_cols : ((s.qrUseErr q m).mat q).cols = (s.mat q).cols := by
  rw [State.qrUseErr_mat]

@[simp] theorem State.qrUseErr_cell (r c : Nat) : ((s.qrUseErr q m).mat q).cell r c = (s.mat q).cell r c := by
  rw [State.qrUseErr_mat, MatReg.cell, MatReg.cell]
end qrUseErr

section qrRun
variable (s : State) {q r : MReg} (m : MReg) (n : Nat)

@[simp] theorem State.qrRun_status : (s.qrRun q r m n).status = s.status := rfl
@[simp] theorem State.qrRun_errinfo : (s.qrRun q r m n).errinfo = s.errinfo := rfl

theorem State.qrRun_mat_q (h : q ≠ r) :
    (s.qrRun q r m n).mat q = qrStoreQ (s.mat q) (s.mat m) (qrFactor s.cfg (s.mat m) n) := by
  rw [State.qrRun, State.mat_setMat_ne _ _ _ h, State.mat_setMat_self]

theorem State.qrRun_mat_r :
    (s.qrRun q r m n).mat r = qrStoreR (s.mat r) (s.mat m) (qrFactor s.cfg (s.mat m) n) :=
  State.mat_setMat_self ..
end qrRun

/-- What `QR` leaves in shape is a function of `CFG` and the source record, whichever registers hold the source and the
results (43_qr.md R191). -/
theorem State.qrRun_results_congr {s s' : State} {q r m q' r' m' : MReg} (n : Nat) (h : q ≠ r) (h' : q' ≠ r')
    (hcfg : s.cfg = s'.cfg) (hm : s.mat m = s'.mat m') :
    MatReg.SameInShape ((s.qrRun q r m n).mat q) ((s'.qrRun q' r' m' n).mat q') ∧
    MatReg.SameInShape ((s.qrRun q r m n).mat r) ((s'.qrRun q' r' m' n).mat r') := by
  rw [State.qrRun_mat_q s m n h, State.qrRun_mat_q s' m' n h', State.qrRun_mat_r, State.qrRun_mat_r, hcfg, hm]
  exact ⟨MatReg.sameInShape_store .., MatReg.sameInShape_store ..⟩

end Sys2Proof.Machine

open Sys2Proof Sys2Proof.Machine

/-- Settles O35: `q = r` replaces the flags of one record; `q ≠ r` stores a factorisation that reads only `CFG` and
the source, taken before either destination is written. -/
theorem qrAliasing : Obligations.QrAliasing := by
  refine ⟨fun q m n s => ?equal, fun q r m q' r' m' n s s' hqr hqr' hcfg hm => ?distinct⟩
  case equal =>
    exact ⟨s.qrUseErr q m, exec_qr_same s q m n, s.qrUseErr_errors q m, s.qrUseErr_rows q m, s.qrUseErr_cols q m,
      s.qrUseErr_cell q m, s.onlyMatsChange_setMat q _⟩
  case distinct =>
    obtain ⟨hq, hr⟩ := State.qrRun_results_congr n.val hqr hqr' hcfg hm
    exact ⟨s.qrRun q r m n.val, s'.qrRun q' r' m' n.val, exec_qr_ne s hqr m n, exec_qr_ne s' hqr' m' n, hq, hr,
      s.qrRun_status m n.val, s.qrRun_errinfo m n.val⟩
end

section
/-! PROOFS. The statement about the cells that `CHOL` of 44_cholesky.md reads. -/

namespace Sys2Proof.Machine

theorem cholOrder_toNat (S : MatReg) : (cholOrder S).toNat = min S.rows.toNat S.cols.toNat := by
  rw [Nat.min_def]
  exact apply_ite BitVec.toNat ..

/-- `DIMERR` is among the first flags of a source that is not square (44_cholesky.md R211). -/
theorem cholInit_dimerr {S : MatReg} (h : S.rows ≠ S.cols) : (cholInit S).e.getLsbD 1 = true := by
  simp [cholInit, Errors.raiseIf, Errors.dimerr, h]

/-- The flags before the first step are never dropped. -/
theorem cholFactor_keeps_init {cfg : Cfg} {S : MatReg} (hn : (cholOrder S).toNat ≤ 8) {bit : Nat}
    (h : (cholInit S).e.getLsbD bit = true) : (cholFactor cfg S).e.getLsbD bit = true := by
  rw [← (cholFactor_done cfg S hn).first, BitVec.getLsbD_or, h, Bool.or_true]

/-! ### What a step reads of the source -/

section step
variable {cfg : Cfg} {S S' : MatReg} {i j : Nat}

theorem cholDif_congr_source {L : Cells} (h : S.cell i j = S'.cell i j) :
    cholDif cfg S L i j = cholDif cfg S' L i j := by
  rw [cholDif, cholDif, h]

theorem cholCell_congr_source {L : Cells} (h : j ≤ i → S.cell i j = S'.cell i j) :
    cholCell cfg S L i j = cholCell cfg S' L i j := by
  unfold cholCell
  split
  case isTrue => rfl
  case isFalse hij =>
    have hdif : cholDif cfg S L i j = cholDif cfg S' L i j := cholDif_congr_source (h (Nat.le_of_not_lt hij))
    split
    case isTrue hdiag =>
      subst hdiag
      rw [hdif]
    case isFalse => rw [hdif]

theorem cholFlags_congr_source {L : Cells} (h : j ≤ i → S.cell i j = S'.cell i j) :
    cholFlags cfg S L i j = cholFlags cfg S' L i j := by
  unfold cholFlags
  split
  case isTrue => rfl
  case isFalse hij =>
    have hdif : cholDif cfg S L i j = cholDif cfg S' L i j := cholDif_congr_source (h (Nat.le_of_not_lt hij))
    split
    case isTrue hdiag =>
      subst hdiag
      rw [hdif, cholCell_congr_source h]
    case isFalse => rw [hdif, cholCell_congr_source h]

/-- The step for `(i, j)` reads of the source the cell `(i, j)` alone, and not even that above the diagonal
(44_cholesky.md R211). -/
theorem CholWork.step_congr_source (w : CholWork) (h : j ≤ i → S.cell i j = S'.cell i j) :
    w.step cfg S i j = w.step cfg S' i j := by
  rw [CholWork.step_eq, CholWork.step_eq, cholCell_congr_source h, cholFlags_congr_source h]
end step

/-! ### What the loops read of the source -/

/-- Two sources agree on what `CHOL` reads: shape, flags and the lower triangle of the block (44_cholesky.md R211). -/
structure CholAgree (S S' : MatReg) : Prop where
  rows : S.rows = S'.rows
  cols : S.cols = S'.cols
  errors : S.errors = S'.errors
  cells : ∀ i j, j ≤ i → i < (cholOrder S).toNat → S.cell i j = S'.cell i j

section agree
variable {S S' : MatReg} (h : CholAgree S S')
include h

theorem CholAgree.order : cholOrder S = cholOrder S' := by
  rw [cholOrder, cholOrder, h.rows, h.cols]

theorem CholAgree.init : cholInit S = cholInit S' := by
  rw [cholInit, cholInit, h.rows, h.cols, h.errors]

theorem CholAgree.row (cfg : Cfg) (n : Nat) (w : CholWork) {i : Nat} (hi : i < (cholOrder S).toNat) :
    w.row cfg S n i = w.row cfg S' n i :=
  List.foldl_ext _ _ _ fun v j _ => v.step_congr_source fun hj => h.cells i j hj hi

theorem CholAgree.factor (cfg : Cfg) : cholFactor cfg S = cholFactor cfg S' := by
  rw [cholFactor, cholFactor, ← h.order, ← h.init]
  exact List.foldl_ext _ _ _ fun w i hi => h.row cfg _ w (List.mem_range.1 hi)

/-- The results look alike, whatever the destinations held. -/
theorem CholAgree.store (cfg : Cfg) (D D' : MatReg) :
    MatReg.SameInShape (cholStore cfg S D) (cholStore cfg S' D') := by
  rw [cholStore, cholStore, ← h.order, ← h.factor]
  exact MatReg.sameInShape_store ..
end agree

end Sys2Proof.Machine

open Sys2Proof Sys2Proof.Machine

/-- Settles O34: the shape is `cholOrder`, `DIMERR` is raised before the first step and kept, and sources that agree
on what the steps read have the same factorisation. -/
theorem cholReadsTheLowerTriangleOfTheBlock : Obligations.CholReadsTheLowerTriangleOfTheBlock := by
  rintro d m s s' ⟨-, hrows, -, -⟩
  have horder := cholOrder_toNat (s.mat m)
  refine ⟨_, exec_chol s d m, ?_⟩
  rw [State.mat_setMat_self]
  refine ⟨horder, horder, fun hne => ?dimerr, fun hcfg hr hc he hcells => ?reads⟩
  case dimerr => exact cholFactor_keeps_init (by omega) (cholInit_dimerr hne)
  case reads =>
    have hagree : CholAgree (s.mat m) (s'.mat m) :=
      ⟨hr, hc, he, fun i j hj hi => hcells i j hj (by omega) (by omega)⟩
    refine ⟨_, exec_chol s' d m, ?_⟩
    rw [State.mat_setMat_self, ← hcfg]
    exact hagree.store ..
end

section
/-! PROOFS. The statements about the rejections of 60_exceptions.md: the words that are no command, `DOT` outside the
array memory, bad addresses, bad shape values, and the acknowledgement. -/

namespace Sys2Proof

/-! ### A row of the opcode map, field by field

What a row allows in a field is said once, by its `FieldUse`; that the row selects a word, that the fields pass the
checks of the decoder, and `MatchNoRow` each follow from it. -/

/-- The values that a row of R94 allows in a field (R93, R95, R96). -/
def FieldUse.Allows {n : Nat} (u : FieldUse) (v : BitVec n) : Prop :=
  match u with
  | .zero => v = 0
  | .any => True
  | .mreg => v.toNat ≤ 3

@[simp] theorem FieldUse.allows_zero {n : Nat} (v : BitVec n) : FieldUse.zero.Allows v ↔ v = 0 := Iff.rfl
@[simp] theorem FieldUse.allows_any {n : Nat} (v : BitVec n) : FieldUse.any.Allows v := trivial
@[simp] theorem FieldUse.allows_mreg {n : Nat} (v : BitVec n) : FieldUse.mreg.Allows v ↔ v.toNat ≤ 3 := Iff.rfl

/-- The bits of a field that a row fixes to 0, as the mask column of R94 has them. -/
def FieldUse.mask (u : FieldUse) (n : Nat) : BitVec n :=
  match u with
  | .zero => BitVec.allOnes n
  | .any => 0
  | .mreg => BitVec.allOnes n <<< 2

/-- A field is at most 3 exactly when its bits from 2 up are 0. -/
theorem and_allOnes_shiftLeft_two_eq_zero {n : Nat} (v : BitVec n) :
    v &&& (BitVec.allOnes n <<< 2) = 0 ↔ v.toNat ≤ 3 := by
  have hv := v.isLt
  have hdrop : v.toNat / 2 ^ 2 * 2 ^ 2 < 2 ^ n := by omega
  rw [← BitVec.shiftLeft_ushiftRight, ← BitVec.toNat_inj, BitVec.toNat_shiftLeft, BitVec.toNat_ushiftRight,
    Nat.shiftRight_eq_div_pow, Nat.shiftLeft_eq, Nat.mod_eq_of_lt hdrop, BitVec.ofNat_eq_ofNat, BitVec.toNat_zero]
  omega

theorem FieldUse.and_mask_eq_zero (u : FieldUse) {n : Nat} (v : BitVec n) : v &&& u.mask n = 0 ↔ u.Allows v := by
  cases u with
  | zero => rw [FieldUse.mask, BitVec.and_allOnes, FieldUse.allows_zero]
  | any => simp [FieldUse.mask]
  | mreg => exact and_allOnes_shiftLeft_two_eq_zero v

/-- The checks of the decoder on a field are what its row allows. -/
theorem FieldUse.allows_iff (u : FieldUse) {n : Nat} (v : BitVec n) :
    u.Allows v ↔ u.badZero v.toNat = false ∧ u.badMReg v.toNat = false := by
  cases u with
  | zero => simp [← BitVec.toNat_inj]
  | any => simp
  | mreg => simp; omega

/-- The fields beside the opcode hold what a row allows. -/
def RowUse.Allows (u : RowUse) (f : Fields) : Prop :=
  u.d.Allows f.d ∧ u.a.Allows f.a ∧ u.b.Allows f.b ∧ u.e.Allows f.e ∧ u.imm.Allows f.imm

/-- The match and the mask of a row, from its opcode and the use of its fields (R94). -/
def RowUse.row (u : RowUse) (op : BitVec 8) : OpcodeRow :=
  { pattern := Fields.word ⟨op, 0, 0, 0, 0, 0⟩
    mask := Fields.word ⟨BitVec.allOnes 8, u.d.mask 4, u.a.mask 4, u.b.mask 4, u.e.mask 4, u.imm.mask 8⟩ }

theorem Fields.ofWord_injective : Function.Injective Fields.ofWord :=
  Function.LeftInverse.injective Fields.word_ofWord

/-- The fields of a masked word are the fields under the fields of the mask. -/
theorem Fields.ofWord_and (v w : Word) :
    Fields.ofWord (v &&& w) =
      ⟨(Fields.ofWord v).op &&& (Fields.ofWord w).op, (Fields.ofWord v).d &&& (Fields.ofWord w).d,
        (Fields.ofWord v).a &&& (Fields.ofWord w).a, (Fields.ofWord v).b &&& (Fields.ofWord w).b,
        (Fields.ofWord v).e &&& (Fields.ofWord w).e, (Fields.ofWord v).imm &&& (Fields.ofWord w).imm⟩ := by
  simp only [Fields.ofWord, BitVec.extractLsb'_and]

/-- A row selects the words that have its opcode and fields that it allows. -/
theorem RowUse.row_selects (u : RowUse) (op : BitVec 8) (w : Word) :
    (u.row op).selects w = true ↔ (Fields.ofWord w).op = op ∧ u.Allows (Fields.ofWord w) := by
  rw [OpcodeRow.selects, beq_iff_eq, ← Fields.ofWord_injective.eq_iff, Fields.ofWord_and, RowUse.row,
    Fields.ofWord_word, Fields.ofWord_word, Fields.mk.injEq, BitVec.and_allOnes]
  simp only [FieldUse.and_mask_eq_zero, RowUse.Allows]

/-- The nine opcodes of R94. -/
def opcodes : List (BitVec 8) := [0x01, 0x02, 0x03, 0x04, 0x10, 0x11, 0x12, 0x18, 0x19]

/-- The match and mask columns of R94 say the same as the columns of its fields. -/
theorem opcodeMap_eq : opcodeMap = opcodes.filterMap fun op => (rowUse op).map fun u => u.row op := by decide

/-- The rows of R94 by the use of their fields; every other opcode is reserved (R97). -/
theorem rowUse_cases (op : BitVec 8) :
    (op ∉ opcodes ∧ rowUse op = none) ∨
    ((op = 0x01 ∨ op = 0x02) ∧ rowUse op = some ⟨.any, .any, .any, .zero, .zero⟩) ∨
    (op = 0x03 ∧ rowUse op = some ⟨.any, .any, .zero, .zero, .zero⟩) ∨
    (op = 0x04 ∧ rowUse op = some ⟨.any, .zero, .zero, .zero, .any⟩) ∨
    ((op = 0x10 ∨ op = 0x11 ∨ op = 0x12) ∧ rowUse op = some ⟨.mreg, .mreg, .mreg, .zero, .zero⟩) ∨
    (op = 0x18 ∧ rowUse op = some ⟨.mreg, .mreg, .zero, .mreg, .any⟩) ∨
    (op = 0x19 ∧ rowUse op = some ⟨.mreg, .mreg, .zero, .zero, .zero⟩) := by
  by_cases hop : op ∈ opcodes
  · refine .inr ?_
    simp only [opcodes, List.mem_cons, List.not_mem_nil, or_false] at hop
    rcases hop with rfl | rfl | rfl | rfl | rfl | rfl | rfl | rfl | rfl <;> decide
  · refine .inl ⟨hop, ?_⟩
    simp only [opcodes, List.mem_cons, List.not_mem_nil, or_false, not_or] at hop
    simp only [rowUse, hop, if_false]

theorem mem_opcodes_of_rowUse {op : BitVec 8} {u : RowUse} (h : rowUse op = some u) : op ∈ opcodes := by
  by_contra hop
  rcases rowUse_cases op with ⟨-, hnone⟩ | hrow
  · simp [hnone] at h
  · refine hop ?_
    simp only [opcodes, List.mem_cons, List.not_mem_nil, or_false]
    tauto

/-- The opcode has the row `u`, and `u` allows the other fields. -/
def Fields.FitsRow (f : Fields) (u : RowUse) : Prop := rowUse f.op = some u ∧ u.Allows f

/-- Some row of the opcode map selects a word exactly when its opcode has a row that allows its fields. -/
theorem exists_row_selects_iff (w : Word) :
    (∃ row ∈ opcodeMap, row.selects w = true) ↔ ∃ u, (Fields.ofWord w).FitsRow u := by
  simp only [opcodeMap_eq, List.mem_filterMap, Option.map_eq_some_iff]
  constructor
  · rintro ⟨_, ⟨op, -, u, hu, rfl⟩, hsel⟩
    obtain ⟨rfl, hall⟩ := (u.row_selects op w).1 hsel
    exact ⟨u, hu, hall⟩
  · rintro ⟨u, hu, hall⟩
    exact ⟨_, ⟨_, mem_opcodes_of_rowUse hu, u, hu, rfl⟩, (u.row_selects _ w).2 ⟨rfl, hall⟩⟩

theorem Fields.exists_fitsRow_iff {f : Fields} {u : RowUse} (h : rowUse f.op = some u) :
    (∃ u', f.FitsRow u') ↔ u.Allows f := by
  simp only [Fields.FitsRow, h, Option.some.injEq, exists_eq_left']

/-- What 60_exceptions.md R224 lists, opcode by opcode, is that the opcode has no row that allows the fields. -/
theorem Fields.matchNoRow_iff (f : Fields) : f.MatchNoRow ↔ ¬ ∃ u, f.FitsRow u := by
  rcases rowUse_cases f.op with ⟨hop, hrow⟩ | ⟨hop | hop, hrow⟩ | ⟨hop, hrow⟩ | ⟨hop, hrow⟩ |
    ⟨hop | hop | hop, hrow⟩ | ⟨hop, hrow⟩ | ⟨hop, hrow⟩
  · exact ⟨fun _ => by simp [Fields.FitsRow, hrow], fun _ => .inl hop⟩
  all_goals
    rw [Fields.exists_fitsRow_iff hrow]
    simp [Fields.MatchNoRow, RowUse.Allows, hop, and_assoc, and_comm, and_left_comm, -not_and]

/-- No row has a matrix register in the immediate. -/
theorem badMReg_imm_of_rowUse {op : BitVec 8} {u : RowUse} (h : rowUse op = some u) (v : Nat) :
    u.imm.badMReg v = false := by
  rcases rowUse_cases op with ⟨-, hrow⟩ | ⟨-, hrow⟩ | ⟨-, hrow⟩ | ⟨-, hrow⟩ | ⟨-, hrow⟩ | ⟨-, hrow⟩ | ⟨-, hrow⟩
  · simp [hrow] at h
  all_goals
    obtain rfl := Option.some.inj (hrow.symm.trans h)
    rfl

/-- The checks of the decoder pass exactly where the opcode has a row that allows the fields (R99). -/
theorem Fields.illegal_eq_none_iff (f : Fields) : f.illegal = none ↔ ∃ u, f.FitsRow u := by
  cases hrow : rowUse f.op with
  | none => simp [Fields.illegal, Fields.FitsRow, hrow]
  | some u =>
    rw [Fields.exists_fitsRow_iff hrow]
    simp only [Fields.illegal, hrow, RowUse.Allows, FieldUse.allows_iff, badMReg_imm_of_rowUse hrow]
    grind

/-- The command of legal fields has those fields (R94, R95, R96). -/
theorem Fields.fields_of_instr {f : Fields} {u : RowUse} {i : Instr} (hfit : f.FitsRow u) (hi : f.instr = .ok i) :
    i.fields = f := by
  obtain ⟨hu, hall⟩ := hfit
  obtain ⟨op, d, a, b, e, imm⟩ := f
  rcases rowUse_cases op with ⟨hop, hrow⟩ | ⟨hop | hop, hrow⟩ | ⟨hop, hrow⟩ | ⟨hop, hrow⟩ |
    ⟨hop | hop | hop, hrow⟩ | ⟨hop, hrow⟩ | ⟨hop, hrow⟩
  · simp [hrow] at hu
  all_goals
    obtain rfl : _ = u := Option.some.inj (hrow.symm.trans hu)
    subst hop
    obtain rfl := Except.ok.inj hi
    simp only [RowUse.Allows, FieldUse.allows_zero, FieldUse.allows_mreg] at hall
    simp [Instr.fields, mfield_mregOf, hall, Nat.lt_succ_of_le]

/-- The decoder finds no command in the words that match no row (R99). -/
theorem decode_error_of_matchNoRow {w : Word} (h : (Fields.ofWord w).MatchNoRow) : ∃ why, decode w = .error why := by
  rw [Fields.matchNoRow_iff, ← Fields.illegal_eq_none_iff, ← ne_eq, Option.ne_none_iff_exists'] at h
  obtain ⟨why, hwhy⟩ := h
  exact ⟨why, by simp only [decode, hwhy]⟩

/-- A word that decodes is the one word of its command (R95, R96). -/
theorem encode_of_decode {w : Word} {i : Instr} (h : decode w = .ok i) : encode i = w := by
  cases hill : (Fields.ofWord w).illegal with
  | some why => simp [decode, hill] at h
  | none =>
    obtain ⟨u, hfit⟩ := (Fields.ofWord w).illegal_eq_none_iff.1 hill
    simp only [decode, hill] at h
    rw [encode, Fields.fields_of_instr hfit h, Fields.word_ofWord]

end Sys2Proof

namespace Sys2Proof.Machine

/-! ### The commands and the record -/

/-- Everything a command can do to the record: nothing, but for the rejection of `DOT` (R225). -/
theorem exec_reject_or_keeps (i : Instr) (s : State) :
    ∃ t, exec i s = .next t ∧ (t = s.reject .addrRange (encode i) ∨ t.status = s.status) := by
  cases i with
  | mul d a b => exact ⟨_, exec_mul s d a b, .inr rfl⟩
  | div d a b => exact ⟨_, exec_div s d a b, .inr rfl⟩
  | sqrt d a => exact ⟨_, exec_sqrt s d a, .inr rfl⟩
  | dot d n =>
    cases h : s.dotOutOfRange n.val with
    | true => exact ⟨_, exec_dot_out s h, .inl rfl⟩
    | false => exact ⟨_, exec_dot_in s h, .inr rfl⟩
  | mmul d a b => exact ⟨_, exec_mmul s d a b, .inr rfl⟩
  | mmulat d a b => exact ⟨_, exec_mmulat s d a b, .inr rfl⟩
  | mmulbt d a b => exact ⟨_, exec_mmulbt s d a b, .inr rfl⟩
  | qr q r m n =>
    by_cases h : q = r
    · subst h
      exact ⟨_, exec_qr_same s q m n, .inr rfl⟩
    · exact ⟨_, exec_qr_ne s h m n, .inr rfl⟩
  | chol d m => exact ⟨_, exec_chol s d m, .inr rfl⟩

/-- The range check of `DOT` (41_dot.md R162), in numbers. -/
theorem State.dotOutOfRange_iff (s : State) (n : Nat) :
    s.dotOutOfRange n = true ↔ 1 ≤ n ∧
      (1023 < s.dota.base.toNat + (n - 1) * s.dota.stride.toNat ∨
        1023 < s.dotb.base.toNat + (n - 1) * s.dotb.stride.toNat) := by
  simp only [State.dotOutOfRange, DotDesc.leavesAmem, Bool.and_eq_true, Bool.or_eq_true, decide_eq_true_eq]
  exact Iff.rfl

/-! ### The index of a location -/

theorem index_locateMat (k : MReg) {off : Nat} (hoff : off < 0x80) (h : locateMat k off ≠ .reserved) :
    (locateMat k off).index = BitVec.ofNat 12 (0x200 + 0x80 * k.val + off) := by
  unfold locateMat at h ⊢
  split_ifs at h ⊢ with h0 h1 h2 hgap
  · rw [h0]; rfl
  · rw [h1, Loc.index]; congr 1; omega
  · rw [h2, Loc.index]; congr 1; omega
  · exact absurd rfl h
  · rw [Loc.index]
    congr 1
    simp only [Fin.ofNat]
    omega

/-- An index whose location is not reserved is the index of that location (20_memory.md R61). -/
theorem index_locate {a : Index} (h : locate a ≠ .reserved) : (locate a).index = a := by
  have hlisted : ¬ ReservedIndex a := fun hres => h (locate_of_reservedIndex hres)
  by_cases hx : a.toNat < 0x010
  · rw [locate_x ⟨a.toNat, hx⟩ rfl, Loc.index, BitVec.ofNat_toNat, BitVec.setWidth_eq]
  by_cases hcontrol : a.toNat < 0x017
  · have ha : a = 0x010 ∨ a = 0x011 ∨ a = 0x012 ∨ a = 0x013 ∨ a = 0x014 ∨ a = 0x015 ∨ a = 0x016 := by bv_omega
    rcases ha with rfl | rfl | rfl | rfl | rfl | rfl | rfl <;> rfl
  by_cases hwindow : a.toNat < 0x400
  · have hlo : 0x200 ≤ a.toNat := by
      by_contra hgap
      exact hlisted (.inl (by omega))
    obtain ⟨k, off, hoff, ha⟩ : ∃ (k : MReg) (off : Nat), off < 0x80 ∧ a.toNat = 0x200 + 0x80 * k.val + off :=
      ⟨⟨(a.toNat - 0x200) / 0x80, by omega⟩, (a.toNat - 0x200) % 0x80, by omega, by simp only; omega⟩
    have hloc := locate_window k hoff ha
    rw [hloc, index_locateMat k hoff (hloc ▸ h), ← ha, BitVec.ofNat_toNat, BitVec.setWidth_eq]
  · have hi : a.toNat - 0x400 < 1024 := by
      by_contra hhi
      exact hlisted (by unfold ReservedIndex; omega)
    have ha : 0x400 + (a.toNat - 0x400) = a.toNat := by omega
    rw [locate_amem ⟨a.toNat - 0x400, hi⟩ ha.symm, Loc.index, ha, BitVec.ofNat_toNat, BitVec.setWidth_eq]

/-- Only the indices that R227 lists are those of a shape field. -/
theorem shapeIndex_of_locate {a : Index} {k : MReg} (h : locate a = .rows k ∨ locate a = .cols k) : ShapeIndex a := by
  have ha : a = (Loc.rows k).index ∨ a = (Loc.cols k).index := by
    have hindex := index_locate (a := a) fun hres => by simp [hres] at h
    rcases h with h | h
    · exact .inl (hindex.symm.trans (congrArg Loc.index h))
    · exact .inr (hindex.symm.trans (congrArg Loc.index h))
  rcases ha with rfl | rfl
  all_goals fin_cases k <;> simp [ShapeIndex, Loc.index]

/-! ### The cause `BAD_VALUE` -/

theorem State.portWrite_cmd {s : State} {a : Index} {v : Word} (h : locate a = .cmd) : s.portWrite a v = s := by
  simp only [State.portWrite, h]

/-- No `BAD_VALUE` stands in the record of `t` that was not in that of `s`. -/
def State.NoNewBadValue (s t : State) : Prop :=
  t.status.cause = Cause.badValue.code → s.status.cause = Cause.badValue.code

theorem State.noNewBadValue_of_status {s t : State} (h : t.status = s.status) : State.NoNewBadValue s t :=
  fun ht => h ▸ ht

theorem State.noNewBadValue_reject (s : State) {cause : Cause} (h : cause ≠ .badValue) (info : Word) :
    State.NoNewBadValue s (s.reject cause info) := by
  rcases s.reject_cases cause info with ⟨-, hs⟩ | ⟨-, hs⟩
  · exact State.noNewBadValue_of_status (congrArg State.status hs)
  · rw [hs]
    have hcode : cause.code ≠ Cause.badValue.code := by revert h; cases cause <;> decide
    exact fun ht => absurd ht hcode

theorem State.noNewBadValue_acknowledge (s : State) : State.NoNewBadValue s s.acknowledge :=
  fun ht => absurd ht (show (0 : BitVec 4) ≠ Cause.badValue.code by decide)

/-- Issuing a word never brings the cause. -/
theorem State.issue_noNewBadValue (s : State) (w : Word) :
    ∃ t, s.issue w = .next t ∧ State.NoNewBadValue s t := by
  cases hw : decode w with
  | error why => exact ⟨_, State.issue_error hw, s.noNewBadValue_reject (by decide) w⟩
  | ok i =>
    obtain ⟨t, ht, rfl | hstatus⟩ := exec_reject_or_keeps i s
    · exact ⟨_, (State.issue_ok hw).trans ht, s.noNewBadValue_reject (by decide) _⟩
    · exact ⟨t, (State.issue_ok hw).trans ht, State.noNewBadValue_of_status hstatus⟩

/-- Of the other writes only a shape value outside 1..8 brings it. -/
theorem State.portWrite_noNewBadValue (s : State) {a : Index} {v : Word}
    (hlegal : ∀ k, locate a = .rows k ∨ locate a = .cols k → legalDim v = true) :
    State.NoNewBadValue s (s.portWrite a v) := by
  have hbad (h : locate a = .reserved ∨ locate a = .id ∨ locate a = .errinfo) :
      State.NoNewBadValue s (s.portWrite a v) := by
    rw [State.portWrite_badAddr h]
    exact s.noNewBadValue_reject (by decide) _
  have keeps {t : State} (ht : s.portWrite a v = t) (hstatus : t.status = s.status) :
      State.NoNewBadValue s (s.portWrite a v) := State.noNewBadValue_of_status (ht ▸ hstatus)
  cases ha : locate a with
  | x i => exact keeps (State.portWrite_x ha) rfl
  | cmd => exact keeps (State.portWrite_cmd ha) rfl
  | status =>
    rw [State.portWrite_status ha]
    split
    · exact s.noNewBadValue_acknowledge
    · exact State.noNewBadValue_of_status rfl
  | cfg => exact keeps (State.portWrite_cfg ha) rfl
  | id => exact hbad (.inr (.inl ha))
  | errinfo => exact hbad (.inr (.inr ha))
  | dota => exact keeps (State.portWrite_dota ha) rfl
  | dotb => exact keeps (State.portWrite_dotb ha) rfl
  | rows k => exact keeps ((State.portWrite_rows ha).trans (if_pos (hlegal k (.inl ha)))) rfl
  | cols k => exact keeps ((State.portWrite_cols ha).trans (if_pos (hlegal k (.inr ha)))) rfl
  | errors k => exact keeps (State.portWrite_errors ha) rfl
  | cell k r c => exact keeps (State.portWrite_cell ha) rfl
  | amem i => exact keeps (State.portWrite_amem ha) rfl
  | reserved => exact hbad (.inl ha)

end Sys2Proof.Machine

open Sys2Proof Sys2Proof.Machine

/-- Settles O7: the decoder's checks, the rows of the opcode map and the list of R224 each say that the opcode has a
row that allows the fields. -/
theorem unselectedWordIsIllegalCommand : Obligations.UnselectedWordIsIllegalCommand := by
  refine ⟨fun s w rest hp hw => ?rejected, fun w => ?noRow, ?examples⟩
  case rejected =>
    obtain ⟨why, hwhy⟩ := decode_error_of_matchNoRow hw
    rw [step_write_cmd hp, State.issue_error hwhy]
    exact ⟨_, rfl, State.rejected_reject ..⟩
  case noRow =>
    rw [Fields.matchNoRow_iff, ← exists_row_selects_iff]
    simp
  case examples =>
    simp only [Fields.matchNoRow_iff, ← Fields.illegal_eq_none_iff]
    decide

/-- Settles O25: the rejection reports the word of the command, which is the word that was written. -/
theorem dotOutsideArrayMemoryIsRejected : Obligations.DotOutsideArrayMemoryIsRejected := by
  intro s w rest d n hp hw hn hout
  rw [step_write_cmd hp, State.issue_ok hw]
  refine ⟨_, exec_dot_out _ ((State.dotOutOfRange_iff _ _).2 ⟨hn, hout⟩), ?_⟩
  rw [encode_of_decode hw]
  exact State.rejected_reject ..

/-- Settles O50, from the reads and the writes of the port; `CMD` reads as 0. -/
theorem badAddressesAreRejected : Obligations.BadAddressesAreRejected := by
  intro s a v rest
  refine ⟨fun hp ha => ?read, fun hp ha => ?write, fun hp => ?cmd⟩
  case read =>
    obtain ⟨-, hreserved⟩ := readReturnsTheLocation s a rest hp
    exact hreserved ha
  case write =>
    obtain ⟨-, -, -, hbad, -⟩ := writeHasTheListedEffect s a v rest hp
    exact hbad ha
  case cmd =>
    obtain ⟨hloc, -⟩ := readReturnsTheLocation s 0x010 rest hp
    exact hloc .cmd Loc.noConfusion rfl

/-- Settles O51: a write to a shape field with a value in 1..8 stores it, and no other cause of a rejection is
`BAD_VALUE`. -/
theorem badShapeValuesAreRejected : Obligations.BadShapeValuesAreRejected := by
  intro s v rest a hp
  obtain ⟨-, -, -, -, hshape⟩ := writeHasTheListedEffect s a v rest hp
  refine ⟨hshape, fun hother => ?_⟩
  by_cases ha : locate a = .cmd
  · obtain rfl : (0x010 : Index) = a := by rw [← index_locate (a := a) (ha ▸ Loc.noConfusion), ha]; rfl
    rw [step_write_cmd hp]
    exact State.issue_noNewBadValue _ v
  · refine ⟨_, step_write hp ha, State.portWrite_noNewBadValue _ fun k hk => ?_⟩
    rw [legalDim_iff]
    have hv : ¬ (v.toNat = 0 ∨ 8 < v.toNat) := fun hv => hother ⟨shapeIndex_of_locate hk, hv⟩
    omega

/-- Settles O52: the write is `State.acknowledge`, after which `ERR` = 0 and a rejection is captured. -/
theorem acknowledgeClearsTheRecord : Obligations.AcknowledgeClearsTheRecord := by
  intro s v rest hp
  obtain ⟨-, -, hstatus, -, -⟩ := writeHasTheListedEffect s 0x011 v rest hp
  obtain ⟨hclear, hkeep⟩ := hstatus rfl
  exact ⟨fun hv => ⟨_, hclear hv, rfl, fun cause info => ⟨rfl, rfl⟩⟩, hkeep⟩

end

section
/-! PROOFS. The statements about the encoding of 30_encoding.md: the decoder and the encoder are inverse, the decoder
follows the opcode map, and the words that the spec lists. -/

namespace Sys2Proof

/-! ### Decoding the word of a command -/

theorem Instr.fields_legal (i : Instr) : i.fields.illegal = none := by
  cases i with
  | mul d a b => exact Laws.FieldsLegal.mul d a b
  | div d a b => exact Laws.FieldsLegal.div d a b
  | sqrt d a => exact Laws.FieldsLegal.sqrt d a
  | dot d n => exact Laws.FieldsLegal.dot d n
  | mmul d a b => exact Laws.FieldsLegal.mmul d a b
  | mmulat d a b => exact Laws.FieldsLegal.mmulat d a b
  | mmulbt d a b => exact Laws.FieldsLegal.mmulbt d a b
  | qr q r m n => exact Laws.FieldsLegal.qr q r m n
  | chol d m => exact Laws.FieldsLegal.chol d m

/-- The nine opcodes differ, and each operand is read from the field it was written to (R94). -/
theorem Instr.instr_fields (i : Instr) : i.fields.instr = .ok i := by
  cases i <;> simp [Instr.fields, Fields.instr]

theorem decode_encode (i : Instr) : decode (encode i) = .ok i := by
  rw [decode, encode, Fields.ofWord_word, i.fields_legal]
  exact i.instr_fields

/-! ### The rows of the opcode map -/

/-- The fields of the command that a word decodes to are those of the word. -/
theorem fields_of_decode {w : Word} {i : Instr} (h : decode w = .ok i) : i.fields = Fields.ofWord w := by
  rw [← encode_of_decode h, encode, Fields.ofWord_word]

/-- Row `n` of the opcode map is the row of opcode `n` of the list. -/
theorem opcodeMap_getElem? (n : Nat) :
    opcodeMap[n]? = opcodes[n]?.bind fun op => (rowUse op).map fun u => u.row op := by
  by_cases hn : n < 9
  · interval_cases n <;> decide
  · rw [List.getElem?_eq_none (show opcodeMap.length ≤ n from Nat.le_of_not_lt hn),
      List.getElem?_eq_none (show opcodes.length ≤ n from Nat.le_of_not_lt hn)]
    rfl

/-- The place of a command's row is that of its opcode. -/
theorem Instr.opcodes_rowIndex (i : Instr) : opcodes[i.rowIndex]? = some i.fields.op := by
  cases i <;> rfl

/-- The opcodes differ, so a place in the list is known from its opcode. -/
theorem Instr.rowIndex_of_opcode {i : Instr} {n : Nat} (h : opcodes[n]? = some i.fields.op) : i.rowIndex = n := by
  have hnodup : opcodes.Nodup := by decide
  obtain ⟨hlt, -⟩ := List.getElem?_eq_some_iff.1 i.opcodes_rowIndex
  exact (List.getElem?_inj hlt hnodup).1 (i.opcodes_rowIndex.trans h.symm)

/-- Fields that a row allows are those of a command (R99). -/
theorem Fields.FitsRow.instr_ok {f : Fields} {u : RowUse} (h : f.FitsRow u) : ∃ i, f.instr = .ok i := by
  rcases rowUse_cases f.op with ⟨-, hrow⟩ | ⟨hop | hop, -⟩ | ⟨hop, -⟩ | ⟨hop, -⟩ | ⟨hop | hop | hop, -⟩ |
    ⟨hop, -⟩ | ⟨hop, -⟩
  · simp [h.1] at hrow
  all_goals simp [Fields.instr, hop]

theorem Fields.FitsRow.decode_ok {w : Word} {u : RowUse} (h : (Fields.ofWord w).FitsRow u) :
    ∃ i, decode w = .ok i := by
  obtain ⟨i, hi⟩ := h.instr_ok
  exact ⟨i, by simp only [decode, (Fields.illegal_eq_none_iff _).2 ⟨u, h⟩, hi]⟩

/-- The fields of a command fit its row. -/
theorem Instr.fields_fitsRow (i : Instr) : ∃ u, i.fields.FitsRow u :=
  (Fields.illegal_eq_none_iff _).1 i.fields_legal

/-! ### The word of the fields, by shifts -/

/-- Bits put side by side are the shifted upper ones beside the lower ones. -/
theorem setWidth_append_eq {n m : Nat} (x : BitVec n) (y : BitVec m) (h : n + m ≤ 32) :
    (x ++ y).setWidth 32 = x.setWidth 32 <<< m ||| y.setWidth 32 := by
  apply BitVec.eq_of_toNat_eq
  have hlt : (x ++ y).toNat < 2 ^ 32 := (x ++ y).isLt.trans_le (Nat.pow_le_pow_right (by norm_num) h)
  rw [BitVec.toNat_setWidth, Nat.mod_eq_of_lt hlt, toNat_append_eq]
  exact (Machine.toNat_shiftLeft_or x y m (le_refl m) h).symm

/-- The word of the fields as R100 writes it: every field shifted to its place. -/
theorem Fields.word_eq_shifts (f : Fields) :
    f.word = f.op.setWidth 32 <<< 24 ||| f.d.setWidth 32 <<< 20 ||| f.a.setWidth 32 <<< 16 |||
      f.b.setWidth 32 <<< 12 ||| f.e.setWidth 32 <<< 8 ||| f.imm.setWidth 32 := by
  rw [← BitVec.setWidth_eq f.word]
  simp (disch := decide) only [Fields.word, setWidth_append_eq, BitVec.shiftLeft_or_distrib, ← BitVec.shiftLeft_add]

@[simp] theorem setWidth_xfield (i : XReg) : (xfield i).setWidth 32 = BitVec.ofNat 32 i.val :=
  BitVec.setWidth_ofNat_of_le_of_lt (by decide) i.isLt

@[simp] theorem setWidth_mfield (k : MReg) : (mfield k).setWidth 32 = BitVec.ofNat 32 k.val :=
  BitVec.setWidth_ofNat_of_le_of_lt (by decide) (k.isLt.trans (by decide))

@[simp] theorem setWidth_ifield (n : Count) : (ifield n).setWidth 32 = BitVec.ofNat 32 n.val :=
  BitVec.setWidth_ofNat_of_le_of_lt (by decide) n.isLt

end Sys2Proof

open Sys2Proof Sys2Proof.Machine

/-- Settles O1: the fields are read back from the word, they pass the checks, and they stand for the command. -/
theorem decodeOfEncodeIsTheCommand : Obligations.DecodeOfEncodeIsTheCommand := decode_encode

/-- Settles O2: legal fields are those of the command they stand for, and a word has no bits beside its fields. -/
theorem encodeOfDecodedWordIsTheWord : Obligations.EncodeOfDecodedWordIsTheWord := fun _ _ => encode_of_decode

/-- Settles O3: a row selects the words that have its opcode and fields that it allows, and such fields are those that
the decoder takes. -/
theorem decoderFollowsTheOpcodeMap : Obligations.DecoderFollowsTheOpcodeMap := by
  refine fun w => ⟨fun i hi => ⟨fields_of_decode hi, ?selected⟩, fun n row hrow hsel => ?decoded⟩
  case selected =>
    obtain ⟨u, hu, hall⟩ := i.fields_fitsRow
    have hsel := (u.row_selects i.fields.op w).2 (fields_of_decode hi ▸ ⟨rfl, hall⟩)
    exact ⟨_, by rw [opcodeMap_getElem?, i.opcodes_rowIndex, Option.bind_some, hu, Option.map_some], hsel⟩
  case decoded =>
    rw [opcodeMap_getElem?, Option.bind_eq_some_iff] at hrow
    obtain ⟨op, hop, hrow⟩ := hrow
    obtain ⟨u, hu, rfl⟩ := Option.map_eq_some_iff.1 hrow
    obtain ⟨rfl, hall⟩ := (u.row_selects op w).1 hsel
    obtain ⟨i, hi⟩ := Fields.FitsRow.decode_ok ⟨hu, hall⟩
    exact ⟨i, hi, Instr.rowIndex_of_opcode (hop.trans (by rw [fields_of_decode hi]))⟩

/-- Settles O4: each legal word is evaluated; the illegal ones match no row of the opcode map. -/
theorem workedWordsDecodeAsListed : Obligations.WorkedWordsDecodeAsListed := by
  have illegal (w : Word) (why : IllegalCmd) (h : (Fields.ofWord w).illegal = some why) (i : Instr) :
      decode w ≠ .ok i := by
    simp [decode, h]
  exact ⟨by decide, by decide, by decide, by decide, by decide, by decide, by decide, by decide, by decide, by decide,
    illegal _ .nonzeroField (by decide), illegal _ .matrixRegister (by decide), illegal _ .reservedOpcode (by decide),
    illegal _ .nonzeroField (by decide)⟩

/-- Settles O5: the word of a command is that of its fields, each shifted to its place; the opcode in its place is the
match of the row. -/
theorem assembledWordsAreTheListedOnes : Obligations.AssembledWordsAreTheListedOnes := by
  refine ⟨fun d a b => ⟨?_, ?_, ?_⟩, fun d n => ?_, fun d a b => ⟨?_, ?_, ?_, ?_⟩, fun q r m n => ?_, fun i => rfl⟩ <;>
    simp [encode, Instr.fields, Fields.word_eq_shifts]

end

section
/-! PROOFS. The statements about the steps of the whole machine: every step completes and keeps the invariant, what a
command touches and reads, when the rejection record changes, and the reset input. -/

namespace Sys2Proof.Machine

/-! ### What a command can do -/

/-- Every effect a command can have, by its destinations: without one it is rejected or writes a scalar register;
otherwise it changes its destinations and nothing else. -/
def State.CommandEffect (i : Instr) (s t : State) : Prop :=
  (i.matDests = [] ∧ (t = s.reject .addrRange (encode i) ∨ ∃ d, State.OnlyXChanges d s t)) ∨
  (i.matDests ≠ [] ∧ State.OnlyMatsChange (· ∈ i.matDests) s t)

theorem State.onlyMatsChange_qrRun (s : State) (q r m : MReg) (n : Nat) :
    State.OnlyMatsChange (fun k => k = q ∨ k = r) s (s.qrRun q r m n) := by
  refine ⟨⟨rfl, fun _ => rfl, rfl, rfl, rfl, rfl, rfl, rfl⟩, rfl, rfl, fun _ => rfl, fun k hk => ?_⟩
  obtain ⟨hq, hr⟩ := not_or.1 hk
  rw [State.qrRun, State.mat_setMat_ne _ _ _ hr, State.mat_setMat_ne _ _ _ hq]

/-- Every command completes, with such an effect. -/
theorem exec_effect (i : Instr) (s : State) : ∃ t, exec i s = .next t ∧ State.CommandEffect i s t := by
  have scalar {i : Instr} (hi : i.matDests = []) (d : XReg) (v : Word) : State.CommandEffect i s (s.setX d v) :=
    .inl ⟨hi, .inr ⟨d, s.onlyXChanges_setX d v⟩⟩
  have matrix {i : Instr} {d : MReg} (hi : i.matDests = [d]) (m : MatReg) :
      State.CommandEffect i s (s.setMat d m) :=
    .inr ⟨by simp [hi], by simpa only [hi, List.mem_singleton] using s.onlyMatsChange_setMat d m⟩
  cases i with
  | mul d a b => exact ⟨_, exec_mul s d a b, scalar rfl d _⟩
  | div d a b => exact ⟨_, exec_div s d a b, scalar rfl d _⟩
  | sqrt d a => exact ⟨_, exec_sqrt s d a, scalar rfl d _⟩
  | dot d n =>
    cases h : s.dotOutOfRange n.val with
    | true => exact ⟨_, exec_dot_out s h, .inl ⟨rfl, .inl rfl⟩⟩
    | false => exact ⟨_, exec_dot_in s h, scalar rfl d _⟩
  | mmul d a b => exact ⟨_, exec_mmul s d a b, matrix rfl _⟩
  | mmulat d a b => exact ⟨_, exec_mmulat s d a b, matrix rfl _⟩
  | mmulbt d a b => exact ⟨_, exec_mmulbt s d a b, matrix rfl _⟩
  | qr q r m n =>
    by_cases h : q = r
    · subst h
      have hdests : (Instr.qr q q m n).matDests = [q] := if_pos rfl
      exact ⟨_, exec_qr_same s q m n, matrix hdests _⟩
    · have hdests : (Instr.qr q r m n).matDests = [q, r] := if_neg h
      refine ⟨_, exec_qr_ne s h m n, .inr ⟨by simp [hdests], ?_⟩⟩
      simpa only [hdests, List.mem_cons, List.not_mem_nil, or_false] using s.onlyMatsChange_qrRun q r m n.val
  | chol d m => exact ⟨_, exec_chol s d m, matrix rfl _⟩

theorem commandEffect_of_exec {i : Instr} {s t : State} (h : exec i s = .next t) : State.CommandEffect i s t := by
  obtain ⟨t', h', heffect⟩ := exec_effect i s
  obtain rfl := Host.Outcome.next.inj (h.symm.trans h')
  exact heffect

section effect
variable {i : Instr} {s t : State} (h : State.CommandEffect i s t)
include h

theorem State.CommandEffect.sameRest : State.SameRest s t := by
  obtain ⟨-, rfl | ⟨d, hrest, -⟩⟩ | ⟨-, hrest, -⟩ := h
  · exact (s.rejected_reject ..).1
  · exact hrest
  · exact hrest

theorem State.CommandEffect.pending : t.pending = s.pending := by
  obtain ⟨-, -, -, -, -, hpending, -⟩ := h.sameRest
  exact hpending

theorem State.CommandEffect.mat_eq {k : MReg} (hk : k ∉ i.matDests) : t.mat k = s.mat k := by
  obtain ⟨-, rfl | ⟨d, -, -, -, hmat, -⟩⟩ | ⟨-, -, -, -, -, hmat⟩ := h
  · exact s.reject_mat ..
  · exact hmat k
  · exact hmat k hk

/-- The record is kept, but for the rejection of `DOT` (60_exceptions.md R225). -/
theorem State.CommandEffect.record :
    t = s.reject .addrRange (encode i) ∨ (t.status = s.status ∧ t.errinfo = s.errinfo) := by
  obtain ⟨-, hreject | ⟨d, -, hstatus, hinfo, -⟩⟩ | ⟨-, -, hstatus, hinfo, -⟩ := h
  · exact .inl hreject
  · exact .inr ⟨hstatus, hinfo⟩
  · exact .inr ⟨hstatus, hinfo⟩
end effect

/-! ### Every step completes -/

theorem step_idle {s : State} (h : s.pending = []) : step s = .next s := by
  simp only [step, h, List.head?_nil]

theorem State.issue_completes (s : State) (w : Word) : ∃ t, s.issue w = .next t ∧ t.pending = s.pending := by
  cases hw : decode w with
  | error why => exact ⟨_, State.issue_error hw, s.reject_pending ..⟩
  | ok i =>
    obtain ⟨t, ht, heffect⟩ := exec_effect i s
    exact ⟨t, (State.issue_ok hw).trans ht, heffect.pending⟩

/-- An input that issues no command takes nothing from the inputs still to come. -/
theorem State.plainInput_pending (s : State) (input : HostInput) : (s.plainInput input).pending = s.pending := by
  cases input with
  | write a v => exact State.portWrite_pending
  | read a => exact State.hostRead_pending
  | reset => rfl

theorem step_completes (s : State) : ∃ t, step s = .next t ∧ t.pending = s.pending.tail := by
  cases hp : s.pending with
  | nil => exact ⟨s, step_idle hp, hp⟩
  | cons input rest =>
    have htake : s.takeInput.pending = rest := by rw [State.takeInput_pending, hp, List.tail_cons]
    cases hc : input.command with
    | none => exact ⟨_, step_plain hp hc, (s.takeInput.plainInput_pending input).trans htake⟩
    | some w =>
      obtain ⟨t, ht, hpending⟩ := s.takeInput.issue_completes w
      exact ⟨t, (step_issue hp hc).trans ht, hpending.trans htake⟩

/-- A run takes its first step, then goes on from the state reached. -/
theorem core_run_succ {s t : State} (k : Nat) (h : step s = .next t) :
    Host.Core.run Sys2Proof.core (k + 1) s = Host.Core.run Sys2Proof.core k t := by
  have hcore : Sys2Proof.core.step s = .next t := h
  simp only [Host.Core.run, hcore]

theorem run_completes (n : Nat) (s : State) (h : s.pending.length = n) :
    ∃ t : State, Host.Core.run Sys2Proof.core n s = .next t ∧ t.pending = [] := by
  induction n generalizing s with
  | zero => exact ⟨s, rfl, List.length_eq_zero_iff.1 h⟩
  | succ n ih =>
    obtain ⟨t, ht, hpending⟩ := step_completes s
    rw [core_run_succ n ht]
    exact ih t (by rw [hpending, List.length_tail, h, Nat.add_sub_cancel])

/-! ### Every step keeps the invariant -/

theorem State.legalShapes_setMat {s : State} {k : MReg} {m : MatReg} (hs : ∀ j, (s.mat j).LegalShape)
    (hm : m.LegalShape) (j : MReg) : ((s.setMat k m).mat j).LegalShape := by
  rw [State.mat_setMat]
  split
  · exact hm
  · exact hs j

theorem product_legalShape (mode : MulMode) (cfg : Cfg) {A B : MatReg} (D : MatReg) (hA : A.LegalShape)
    (hB : B.LegalShape) : (mode.product cfg A B D).LegalShape := by
  obtain ⟨ra, ra', ca, ca'⟩ := hA
  obtain ⟨rb, rb', cb, cb'⟩ := hB
  cases mode with
  | n => exact ⟨ra, ra', cb, cb'⟩
  | bt => exact ⟨ra, ra', rb, rb'⟩
  | _ => exact ⟨ca, ca', cb, cb'⟩ -- `MMULAT`

theorem cholStore_legalShape (cfg : Cfg) {S : MatReg} (D : MatReg) (hS : S.LegalShape) :
    (cholStore cfg S D).LegalShape := by
  obtain ⟨r, r', c, c'⟩ := hS
  have horder := cholOrder_toNat S
  unfold MatReg.LegalShape
  simp only [cholStore, MatReg.store_rows, MatReg.store_cols]
  omega

/-- The shape of every destination is made of dimensions of the sources (10_state.md R24). -/
theorem exec_legalShapes {i : Instr} {s t : State} (h : exec i s = .next t) (hs : ∀ k, (s.mat k).LegalShape)
    (k : MReg) : (t.mat k).LegalShape := by
  have kept (hk : k ∉ i.matDests) : (t.mat k).LegalShape := (commandEffect_of_exec h).mat_eq hk ▸ hs k
  cases i with
  | mul d a b => exact kept List.not_mem_nil
  | div d a b => exact kept List.not_mem_nil
  | sqrt d a => exact kept List.not_mem_nil
  | dot d n => exact kept List.not_mem_nil
  | mmul d a b => cases h; exact State.legalShapes_setMat hs (product_legalShape .n _ _ (hs a) (hs b)) k
  | mmulat d a b => cases h; exact State.legalShapes_setMat hs (product_legalShape .at _ _ (hs a) (hs b)) k
  | mmulbt d a b => cases h; exact State.legalShapes_setMat hs (product_legalShape .bt _ _ (hs a) (hs b)) k
  | qr q r m n =>
    by_cases hqr : q = r
    · subst hqr
      rw [exec_qr_same] at h
      cases h
      refine State.legalShapes_setMat hs ?_ k
      exact hs q
    · rw [exec_qr_ne s hqr] at h
      cases h
      obtain ⟨-, -, hc, hc'⟩ := hs m
      have hq : (qrStoreQ (s.mat q) (s.mat m) (qrFactor s.cfg (s.mat m) n.val)).LegalShape := hs m
      have hr : (qrStoreR (s.mat r) (s.mat m) (qrFactor s.cfg (s.mat m) n.val)).LegalShape := ⟨hc, hc', hc, hc'⟩
      exact State.legalShapes_setMat (State.legalShapes_setMat hs hq) hr k
  | chol d m => cases h; exact State.legalShapes_setMat hs (cholStore_legalShape _ _ (hs m)) k

theorem State.legalRecord_congr {s t : State} (hs : s.LegalRecord) (hstatus : t.status = s.status)
    (hinfo : t.errinfo = s.errinfo) : t.LegalRecord := by
  rw [State.LegalRecord, hstatus, hinfo]
  exact hs

/-- The captured cause is one of the four codes (60_exceptions.md R221). -/
theorem State.legalRecord_reject {s : State} (hs : s.LegalRecord) (cause : Cause) (info : Word) :
    (s.reject cause info).LegalRecord := by
  rcases s.reject_cases cause info with ⟨-, h⟩ | ⟨-, h⟩
  · rwa [h]
  · rw [h]
    have hcode : 1 ≤ cause.code.toNat ∧ cause.code.toNat ≤ 4 := by cases cause <;> decide
    exact ⟨fun herr => Bool.noConfusion herr, fun _ => hcode⟩

theorem State.inv_reject {s : State} (hs : s.Inv) (cause : Cause) (info : Word) : (s.reject cause info).Inv := by
  obtain ⟨hshape, hmem, hrec⟩ := hs
  exact ⟨by simpa using hshape, by simpa using hmem, State.legalRecord_reject hrec cause info⟩

theorem State.inv_powerOn (epoch : Nat) (inputs : List HostInput) : (State.powerOn epoch inputs).Inv := by
  refine ⟨fun k => ?_, rfl, fun _ => ⟨rfl, rfl⟩, fun herr => Bool.noConfusion herr⟩
  rw [State.powerOn_mat]
  simp [MatReg.LegalShape, MatReg.powerOn]

theorem State.inv_hostRead {s : State} (hs : s.Inv) (a : Index) : (s.hostRead a).Inv := by
  by_cases ha : locate a = .reserved
  · rw [State.hostRead_reserved ha]
    exact State.inv_reject (s := { s with response := some 0 }) hs ..
  · rw [State.hostRead_of_ne ha]
    exact hs

theorem State.inv_portWrite {s : State} (hs : s.Inv) (a : Index) (v : Word) : (s.portWrite a v).Inv := by
  have keeps {t : State} (ht : s.portWrite a v = t) (h : t.Inv) : (s.portWrite a v).Inv := ht ▸ h
  have hrejected := State.inv_reject hs
  obtain ⟨hshape, hmem, hrec⟩ := id hs
  have shaped {k : MReg} {m : MatReg} (hm : m.LegalShape) : (s.setMat k m).Inv :=
    ⟨State.legalShapes_setMat hshape hm, hmem, hrec⟩
  have dim (hv : legalDim v = true) : 1 ≤ (v.extractLsb' 0 4).toNat ∧ (v.extractLsb' 0 4).toNat ≤ 8 := by
    rw [toNat_extract_of_legalDim hv]
    exact (legalDim_iff v).1 hv
  cases ha : locate a with
  | x i => exact keeps (State.portWrite_x ha) hs
  | cmd => exact keeps (State.portWrite_cmd ha) hs
  | status =>
    rw [State.portWrite_status ha]
    split
    · exact ⟨hshape, hmem, fun _ => ⟨rfl, rfl⟩, fun herr => Bool.noConfusion herr⟩
    · exact hs
  | cfg => exact keeps (State.portWrite_cfg ha) hs
  | id => exact keeps (State.portWrite_id ha) (hrejected ..)
  | errinfo => exact keeps (State.portWrite_errinfo ha) (hrejected ..)
  | dota => exact keeps (State.portWrite_dota ha) hs
  | dotb => exact keeps (State.portWrite_dotb ha) hs
  | rows k =>
    rw [State.portWrite_rows ha]
    split
    case isTrue hv =>
      obtain ⟨-, -, hcols⟩ := hshape k
      exact shaped ⟨(dim hv).1, (dim hv).2, hcols⟩
    case isFalse => exact hrejected ..
  | cols k =>
    rw [State.portWrite_cols ha]
    split
    case isTrue hv =>
      obtain ⟨hlo, hhi, -⟩ := hshape k
      exact shaped ⟨hlo, hhi, dim hv⟩
    case isFalse => exact hrejected ..
  | errors k => exact keeps (State.portWrite_errors ha) (shaped (hshape k))
  | cell k r c => exact keeps (State.portWrite_cell ha) (shaped (hshape k))
  | amem i => exact keeps (State.portWrite_amem ha) ⟨hshape, Memory.wf_write v i.isLt hmem, hrec⟩
  | reserved => exact keeps (State.portWrite_reserved ha) (hrejected ..)

theorem exec_inv {i : Instr} {s t : State} (h : exec i s = .next t) (hs : s.Inv) : t.Inv := by
  obtain ⟨hshape, hmem, hrec⟩ := hs
  have heffect := commandEffect_of_exec h
  obtain ⟨hamem, -⟩ := heffect.sameRest
  refine ⟨exec_legalShapes h hshape, hamem ▸ hmem, ?_⟩
  obtain rfl | ⟨hstatus, hinfo⟩ := heffect.record
  · exact State.legalRecord_reject hrec ..
  · exact State.legalRecord_congr hrec hstatus hinfo

theorem step_inv {s t : State} (hs : s.Inv) (h : step s = .next t) : t.Inv := by
  have htake : s.takeInput.Inv := hs
  obtain ⟨-, rfl⟩ | ⟨a, rest, -, rfl⟩ | ⟨rest, -, rfl⟩ | ⟨a, v, rest, -, -, rfl⟩ | ⟨a, v, rest, why, -, -, -, rfl⟩ |
    ⟨a, v, rest, i, -, -, -, hexec⟩ := step_cases h
  · exact hs
  · exact State.inv_hostRead htake a
  · exact State.inv_powerOn ..
  · exact State.inv_portWrite htake a v
  · exact State.inv_reject htake ..
  · exact exec_inv hexec htake

/-! ### When the record changes -/

theorem State.reject_of_err {s : State} (h : s.status.err = true) (cause : Cause) (info : Word) :
    s.reject cause info = s :=
  if_pos h

/-- All that a write at an index but `CMD` can do to the record: nothing, the acknowledgement, a rejection. -/
theorem State.portWrite_record (s : State) (a : Index) (v : Word) :
    ((s.portWrite a v).status = s.status ∧ (s.portWrite a v).errinfo = s.errinfo) ∨
    (locate a = .status ∧ v.getLsbD 0 = true) ∨
    ∃ cause info, s.portWrite a v = s.reject cause info ∧ ¬ (locate a).Accepts v := by
  have keeps {t : State} (ht : s.portWrite a v = t) (h : t.status = s.status ∧ t.errinfo = s.errinfo) :
      (s.portWrite a v).status = s.status ∧ (s.portWrite a v).errinfo = s.errinfo := ht ▸ h
  cases ha : locate a with
  | x i => exact .inl (keeps (State.portWrite_x ha) ⟨rfl, rfl⟩)
  | cmd => exact .inl (keeps (State.portWrite_cmd ha) ⟨rfl, rfl⟩)
  | status =>
    by_cases hv : v.getLsbD 0 = true
    · exact .inr (.inl ⟨rfl, hv⟩)
    · exact .inl (keeps ((State.portWrite_status ha).trans (if_neg hv)) ⟨rfl, rfl⟩)
  | cfg => exact .inl (keeps (State.portWrite_cfg ha) ⟨rfl, rfl⟩)
  | id => exact .inr (.inr ⟨_, _, State.portWrite_id ha, not_false⟩)
  | errinfo => exact .inr (.inr ⟨_, _, State.portWrite_errinfo ha, not_false⟩)
  | dota => exact .inl (keeps (State.portWrite_dota ha) ⟨rfl, rfl⟩)
  | dotb => exact .inl (keeps (State.portWrite_dotb ha) ⟨rfl, rfl⟩)
  | rows k =>
    by_cases hv : legalDim v = true
    · exact .inl (keeps ((State.portWrite_rows ha).trans (if_pos hv)) ⟨rfl, rfl⟩)
    · exact .inr (.inr ⟨_, _, (State.portWrite_rows ha).trans (if_neg hv), fun h => hv ((legalDim_iff v).2 h)⟩)
  | cols k =>
    by_cases hv : legalDim v = true
    · exact .inl (keeps ((State.portWrite_cols ha).trans (if_pos hv)) ⟨rfl, rfl⟩)
    · exact .inr (.inr ⟨_, _, (State.portWrite_cols ha).trans (if_neg hv), fun h => hv ((legalDim_iff v).2 h)⟩)
  | errors k => exact .inl (keeps (State.portWrite_errors ha) ⟨rfl, rfl⟩)
  | cell k r c => exact .inl (keeps (State.portWrite_cell ha) ⟨rfl, rfl⟩)
  | amem i => exact .inl (keeps (State.portWrite_amem ha) ⟨rfl, rfl⟩)
  | reserved => exact .inr (.inr ⟨_, _, State.portWrite_reserved ha, not_false⟩)

/-- Only the index 0x011 is that of `STATUS` (20_memory.md R61). -/
theorem index_of_locate_status {a : Index} (h : locate a = .status) : a = 0x011 := by
  rw [← index_locate (a := a) (h ▸ Loc.noConfusion), h]
  rfl

theorem State.hostRead_record {s : State} (h : s.status.err = true) (a : Index) :
    (s.hostRead a).status = s.status ∧ (s.hostRead a).errinfo = s.errinfo := by
  by_cases ha : locate a = .reserved
  · rw [State.hostRead_reserved ha, State.reject_of_err (s := { s with response := some 0 }) h]
    exact ⟨rfl, rfl⟩
  · rw [State.hostRead_of_ne ha]
    exact ⟨rfl, rfl⟩

/-! ### What a command reads of the record -/

/-- A command reads neither `STATUS` nor `ERRINFO` (10_state.md R31). -/
theorem exec_record_congr {i : Instr} {s t t' : State} (st : Status) (info : Word) (h : exec i s = .next t)
    (h' : exec i { s with status := st, errinfo := info } = .next t') :
    t'.x = t.x ∧ t'.mats = t.mats ∧ t'.amem = t.amem := by
  cases i with
  | mul d a b => cases h; cases h'; exact ⟨rfl, rfl, rfl⟩
  | div d a b => cases h; cases h'; exact ⟨rfl, rfl, rfl⟩
  | sqrt d a => cases h; cases h'; exact ⟨rfl, rfl, rfl⟩
  | dot d n =>
    cases hrange : s.dotOutOfRange n.val with
    | true =>
      rw [exec_dot_out s hrange] at h
      rw [exec_dot_out { s with status := st, errinfo := info } hrange] at h'
      cases h
      cases h'
      simp
    | false =>
      rw [exec_dot_in s hrange] at h
      rw [exec_dot_in { s with status := st, errinfo := info } hrange] at h'
      cases h
      cases h'
      exact ⟨rfl, rfl, rfl⟩
  | mmul d a b => cases h; cases h'; exact ⟨rfl, rfl, rfl⟩
  | mmulat d a b => cases h; cases h'; exact ⟨rfl, rfl, rfl⟩
  | mmulbt d a b => cases h; cases h'; exact ⟨rfl, rfl, rfl⟩
  | qr q r m n =>
    by_cases hqr : q = r
    · subst hqr
      rw [exec_qr_same] at h h'
      cases h
      cases h'
      exact ⟨rfl, rfl, rfl⟩
    · rw [exec_qr_ne _ hqr] at h h'
      cases h
      cases h'
      exact ⟨rfl, rfl, rfl⟩
  | chol d m => cases h; cases h'; exact ⟨rfl, rfl, rfl⟩

end Sys2Proof.Machine

open Sys2Proof Sys2Proof.Machine

/-- Settles O57: step case by step case, a command through `exec_inv` and a write through `State.inv_portWrite`. -/
theorem everyStepKeepsTheInvariant : Obligations.EveryStepKeepsTheInvariant := fun _ _ => step_inv

/-- Settles O9: a word that is no command is rejected, every command completes, and none of them touches the list. -/
theorem everyStepCompletes : Obligations.EveryStepCompletes := step_completes

/-- Settles O10, by induction on the number of inputs, each of which one step takes. -/
theorem everyHostSequenceRunsToItsEnd : Obligations.EveryHostSequenceRunsToItsEnd := fun s => run_completes _ s rfl

/-- Settles O43: each clause is read off the effect of the command; a rejection belongs to a command without matrix
destination. -/
theorem commandsLeaveTheRestAlone : Obligations.CommandsLeaveTheRestAlone := by
  intro i s t h
  have heffect := commandEffect_of_exec h
  refine ⟨heffect.sameRest, fun k => heffect.mat_eq, fun hdests => ?_⟩
  obtain ⟨hnone, -⟩ | ⟨-, -, hstatus, hinfo, hx, -⟩ := heffect
  · exact absurd hnone hdests
  · exact ⟨hx, hstatus, hinfo⟩

/-- Settles O44, command by command: the record stands in no operand and in no test. -/
theorem commandsDoNotReadTheRejectionRecord : Obligations.CommandsDoNotReadTheRejectionRecord :=
  fun _ _ _ _ st info => exec_record_congr st info

/-- Settles O45: while `ERR` = 1 a rejection changes nothing, and of the other steps only the two that are excluded
touch the record. -/
theorem firstRejectionIsKept : Obligations.FirstRejectionIsKept := by
  intro s t herr h hreset hack
  have htake : s.takeInput.status.err = true := herr
  obtain ⟨-, rfl⟩ | ⟨a, rest, -, rfl⟩ | ⟨rest, hp, -⟩ | ⟨a, v, rest, hp, -, rfl⟩ | ⟨a, v, rest, why, -, -, -, rfl⟩ |
    ⟨a, v, rest, i, -, -, -, hexec⟩ := step_cases h
  case inl => exact ⟨rfl, rfl⟩
  case inr.inl => exact State.hostRead_record htake a
  case inr.inr.inl => exact absurd hp (hreset rest)
  case inr.inr.inr.inl =>
    obtain hkeep | ⟨ha, hv⟩ | ⟨cause, info, hrej, -⟩ := s.takeInput.portWrite_record a v
    · exact hkeep
    · obtain rfl := index_of_locate_status ha
      exact absurd hv (by rw [hack v rest hp]; exact Bool.false_ne_true)
    · rw [hrej, State.reject_of_err htake]
      exact ⟨rfl, rfl⟩
  case inr.inr.inr.inr.inl =>
    rw [State.rejectCommand, State.reject_of_err htake]
    exact ⟨rfl, rfl⟩
  case inr.inr.inr.inr.inr =>
    obtain rfl | hkeep := (commandEffect_of_exec hexec).record
    · rw [State.reject_of_err htake]
      exact ⟨rfl, rfl⟩
    · exact hkeep

/-- Settles O6: the write is to `CMD`, so its word is issued. -/
theorem stepRunsTheDecodedCommand : Obligations.StepRunsTheDecodedCommand :=
  fun _ _ _ _ hp hw => (step_write_cmd hp).trans (State.issue_ok hw)

/-- Settles O8: with no input `step` answers the state it was given. -/
theorem idleStepKeepsTheState : Obligations.IdleStepKeepsTheState := fun _ => step_idle

/-- Settles O55: the reset input is `State.powerOn` with the inputs still to come. -/
theorem resetInputRestoresTheStatedValues : Obligations.ResetInputRestoresTheStatedValues := by
  intro s rest hp
  refine ⟨_, step_plain hp HostInput.command_reset, ?pending, State.powerOn_getX _ _, State.powerOn_cfg ..,
    State.powerOn_status .., State.powerOn_errinfo .., State.powerOn_dota .., State.powerOn_dotb .., fun k => ?mat⟩
  case pending =>
    rw [State.plainInput_pending, State.takeInput_pending, hp, List.tail_cons]
  case mat =>
    rw [State.plainInput, State.assertReset, State.powerOn_mat]
    exact ⟨rfl, rfl, rfl⟩

/-- Settles O56: the state after reset is a `State.powerOn`. -/
theorem invariantHoldsAtReset : Obligations.InvariantHoldsAtReset := State.inv_powerOn 0 []

end

section
/-! PROOFS. The statements about the numeric functions and the scalar commands of 40_scalar.md, and about `DOT` of
41_dot.md: rounding, multiplication, division, the reference square root, the sum of products. -/

namespace Sys2Proof.Machine

/-! ### Rounding a value on the product scale -/

/-- A value in range and below the last half unit rounds to an integer that a word holds (40_scalar.md R121). -/
theorem roundProduct_range (round : Bool) {p : Int} (lo : -2 ^ 47 ≤ p) (hi : p < 2 ^ 47 - 2 ^ 15) :
    -2 ^ 31 ≤ roundProduct round p ∧ roundProduct round p < 2 ^ 31 := by
  cases round with
  | false => rw [roundProduct_floor]; omega
  | true =>
    rcases lt_or_ge p 0 with hneg | hnonneg
    · rw [roundProduct_of_neg hneg]; omega
    · rw [roundProduct_of_nonneg hnonneg]; omega

theorem s32_narrow (cfg : Cfg) {p : Int} (lo : -2 ^ 47 ≤ p) (hi : p < 2 ^ 47 - 2 ^ 15) :
    s32 (narrow cfg p) = roundProduct cfg.round p := by
  obtain ⟨hlo, hhi⟩ := roundProduct_range cfg.round lo hi
  rw [narrow_of_range cfg lo (by omega), s32_w32 hlo hhi]

/-- In the last half unit below 2^47 rounding reaches 2^31, which is the sentinel; the floor is `MAX` (R121). -/
theorem narrow_last_half (cfg : Cfg) {p : Int} (lo : 2 ^ 47 - 2 ^ 15 ≤ p) (hi : p < 2 ^ 47) :
    narrow cfg p = if cfg.round then 0x80000000 else 0x7FFFFFFF := by
  rw [narrow_of_range cfg (by omega) hi]
  cases cfg.round with
  | false =>
    have hfloor : roundProduct false p = 2 ^ 31 - 1 := by rw [roundProduct_floor]; omega
    rw [hfloor]
    rfl
  | true =>
    have hup : roundProduct true p = 2 ^ 31 := by rw [roundProduct_of_nonneg (by omega)]; omega
    rw [hup]
    rfl

theorem narrow_of_ovf_off {cfg : Cfg} (p : Int) (h : cfg.ovf = false) :
    narrow cfg p = w32 (roundProduct cfg.round p) :=
  if_neg (by simp [h])

/-- The mode decides between the two roundings (R120). -/
theorem roundProduct_rounds (round : Bool) (p : Int) :
    (round = true → NearestAway (roundProduct round p) p (2 ^ 16)) ∧
    (round = false → FloorOf (roundProduct round p) p (2 ^ 16)) :=
  ⟨fun h => h ▸ roundProduct_nearest p, fun h => h ▸ roundProduct_floorOf p⟩

/-- A value that is a whole number of units is not changed by rounding. -/
theorem roundProduct_whole (round : Bool) (v : Int) : roundProduct round (v * 2 ^ 16) = v := by
  cases round with
  | false => rw [roundProduct_floor]; omega
  | true =>
    rcases lt_or_ge (v * 2 ^ 16) 0 with hneg | hnonneg
    · rw [roundProduct_of_neg hneg]; omega
    · rw [roundProduct_of_nonneg hnonneg]; omega

theorem narrow_whole (cfg : Cfg) (w : Word) : narrow cfg (s32 w * 2 ^ 16) = w := by
  obtain ⟨lo, hi⟩ := s32_range w
  rw [narrow_of_range cfg (by omega) (by omega), roundProduct_whole, w32_s32]

theorem narrow_zero (cfg : Cfg) : narrow cfg 0 = 0 := narrow_whole cfg 0

/-- A value that is not negative narrows to the sentinel or to a word that is not negative (41_dot.md R164). -/
theorem s32_narrow_nonneg {cfg : Cfg} {p : Int} (hovf : cfg.ovf = true) (hp : 0 ≤ p) (h : narrow cfg p ≠ OVF) :
    0 ≤ s32 (narrow cfg p) := by
  rcases lt_or_ge p (2 ^ 47 - 2 ^ 15) with hlow | hhigh
  · rw [s32_narrow cfg (by omega) hlow]
    cases cfg.round with
    | false => rw [roundProduct_floor]; omega
    | true => rw [roundProduct_of_nonneg hp]; omega
  · have hin : p < 2 ^ 47 := by
      by_contra! hout
      exact h (narrow_of_outside hovf (.inr hout))
    rw [narrow_last_half cfg hhigh hin] at h ⊢
    cases hround : cfg.round with
    | false => decide
    | true => exact absurd (if_pos hround) h

/-! ### Multiplication -/

theorem mul_comm_words (cfg : Cfg) (a b : Word) : mul cfg a b = mul cfg b a := by
  rw [mul, mul, mul_comm]

theorem mul_one_word (cfg : Cfg) (a : Word) : mul cfg a ONE = a := narrow_whole cfg a

theorem mul_zero_word (cfg : Cfg) (a : Word) : mul cfg a 0 = 0 := by
  rw [mul, show s32 0 = 0 from rfl, mul_zero, narrow_zero]

/-! ### Division -/

/-- An exact quotient below 2^31 has a magnitude below 2^31 in both modes: a dividend of at most 2^31 units leaves it
half a unit or more below (40_scalar.md R125). -/
theorem divMagnitude_lt (round : Bool) {na nb : Nat} (hna : na ≤ 2 ^ 31) (h : na * 2 ^ 16 < 2 ^ 31 * nb) :
    divMagnitude round na nb < 2 ^ 31 := by
  have hnb : 0 < nb := by omega
  cases round with
  | false =>
    rw [divMagnitude, if_neg Bool.false_ne_true, Nat.div_lt_iff_lt_mul hnb]
    exact h
  | true =>
    have hunit : na + 1 ≤ 2 ^ 15 * nb := by omega
    clear h
    have hdouble : na * 2 ^ 17 / nb < 2 ^ 32 - 1 := (Nat.div_lt_iff_lt_mul hnb).2 (by omega)
    rw [divMagnitude, if_pos rfl]
    omega

theorem divSigned_range (x y : Int) {q : Nat} (h : q < 2 ^ 31) :
    -2 ^ 31 < divSigned x y q ∧ divSigned x y q < 2 ^ 31 := by
  unfold divSigned
  split <;> omega

/-- Where the exact quotient is below 2^31 in magnitude, `div` is the signed magnitude (R124). -/
theorem s32_div (cfg : Cfg) {a b : Word} (hb : s32 b ≠ 0) (h : |s32 a| * 2 ^ 16 < 2 ^ 31 * |s32 b|) :
    s32 (div cfg a b) =
      divSigned (s32 a) (s32 b) (divMagnitude cfg.round (s32 a).natAbs (s32 b).natAbs) ∧
    -2 ^ 31 < s32 (div cfg a b) := by
  rw [Int.abs_eq_natAbs, Int.abs_eq_natAbs] at h
  have ha := s32_range a
  have hmag : divMagnitude cfg.round (s32 a).natAbs (s32 b).natAbs < 2 ^ 31 :=
    divMagnitude_lt cfg.round (by omega) (by omega)
  obtain ⟨lo, hi⟩ := divSigned_range (s32 a) (s32 b) hmag
  rw [div_eq_divSigned cfg a b hb fun _ => hmag, s32_w32 (by omega) hi]
  exact ⟨rfl, lo⟩

/-- The mode decides between the two roundings of a quotient (R124). -/
theorem divSigned_rounds (round : Bool) (x : Int) {y : Int} (h : y ≠ 0) :
    (round = true → NearestAway (divSigned x y (divMagnitude round x.natAbs y.natAbs)) (x * 2 ^ 16) y) ∧
    (round = false → TruncOf (divSigned x y (divMagnitude round x.natAbs y.natAbs)) (x * 2 ^ 16) y) :=
  ⟨fun hr => hr ▸ divSigned_nearest x y h, fun hr => hr ▸ divSigned_trunc x y h⟩

theorem s32_ne_zero {b : Word} (h : b ≠ 0) : s32 b ≠ 0 := fun h0 => h (BitVec.eq_of_toInt_eq h0)

/-- With detection on, testing the rounded quotient for overflow is testing the exact one (R125). -/
theorem div_eq_ovf_iff {cfg : Cfg} {a b : Word} (hovf : cfg.ovf = true) (hb : b ≠ 0) :
    div cfg a b = OVF ↔ 2 ^ 31 * |s32 b| ≤ |s32 a| * 2 ^ 16 := by
  refine ⟨fun h => ?_, div_of_outside hovf⟩
  by_contra! hin
  have hlo := (s32_div cfg (s32_ne_zero hb) hin).2
  rw [h, s32_OVF] at hlo
  exact lt_irrefl _ hlo

/-- Division by -1.0 overflows only for `MIN` (R125). -/
theorem div_minus_one_eq_ovf_iff {cfg : Cfg} (a : Word) (hovf : cfg.ovf = true) :
    div cfg a 0xFFFF0000 = OVF ↔ a = OVF := by
  have hb : s32 0xFFFF0000 = -2 ^ 16 := by decide
  have ha := s32_range a
  rw [div_eq_ovf_iff hovf (by decide), hb, ← BitVec.toInt_inj, Int.abs_eq_natAbs, Int.abs_eq_natAbs]
  change _ ↔ s32 a = s32 OVF
  rw [s32_OVF]
  omega

theorem div_zero_dividend (cfg : Cfg) {b : Word} (hb : b ≠ 0) : div cfg 0 b = 0 := by
  have hmag : divMagnitude cfg.round 0 (s32 b).natAbs = 0 := by simp [divMagnitude]
  rw [div_eq_divSigned cfg 0 b (s32_ne_zero hb)] <;> rw [show (s32 0).natAbs = 0 from rfl, hmag]
  · simp [divSigned]
  · exact fun _ => by norm_num

theorem divMagnitude_self (round : Bool) {n : Nat} (h : 0 < n) : divMagnitude round n n = 2 ^ 16 := by
  cases round with
  | false => rw [divMagnitude, if_neg Bool.false_ne_true, Nat.mul_div_cancel_left _ h]
  | true =>
    rw [divMagnitude, if_pos rfl, Nat.mul_div_cancel_left _ h]
    rfl

theorem div_self_word (cfg : Cfg) {a : Word} (ha : a ≠ 0) : div cfg a a = ONE := by
  have hmag := divMagnitude_self cfg.round (Int.natAbs_pos.2 (s32_ne_zero ha))
  rw [div_eq_divSigned cfg a a (s32_ne_zero ha)] <;> rw [hmag]
  · simp [divSigned]
  · exact fun _ => by norm_num

/-! ### The reference square root -/

/-- With `n` powers of 4 to come, the loop of R127 holds the root so far, `R`, shifted by `n` bits, and the rest
`N - R²`: its test and its update are those of the search for the root, one bit a turn. -/
theorem digitLoop_eq (N n R : Nat) (h : R * R ≤ N) :
    digitLoop n (N - R * R) (R * 2 ^ n) = (isqrtFrom N n R, N - isqrtFrom N n R * isqrtFrom N n R) := by
  induction n generalizing R with
  | zero => simp [digitLoop, isqrtFrom]
  | succ n ih =>
    have hsquare : (R + 2 ^ n) * (R + 2 ^ n) = R * R + (R * 2 ^ (n + 1) + 4 ^ n) := by
      rw [show (4 : Nat) = 2 ^ 2 from rfl, ← pow_mul]
      ring
    have hhalf : R * 2 ^ (n + 1) / 2 = R * 2 ^ n := by rw [pow_succ, ← mul_assoc, Nat.mul_div_cancel _ two_pos]
    rw [digitLoop, isqrtFrom, hhalf]
    by_cases hbit : (R + 2 ^ n) * (R + 2 ^ n) ≤ N
    · have hrest : N - R * R - (R * 2 ^ (n + 1) + 4 ^ n) = N - (R + 2 ^ n) * (R + 2 ^ n) := by omega
      have hroot : R * 2 ^ n + 4 ^ n = (R + 2 ^ n) * 2 ^ n := by
        rw [add_mul, show (4 : Nat) = 2 * 2 from rfl, mul_pow]
      rw [if_pos (by omega), if_pos hbit, hrest, hroot]
      exact ih _ hbit
    · rw [if_neg (by omega), if_neg hbit]
      exact ih _ h

/-- The powers of 4 that the first loop drops are above the radicand. -/
theorem lt_four_pow_digitSkip {N n : Nat} (h : N < 4 ^ n) : N < 4 ^ digitSkip N n := by
  induction n with
  | zero => exact h
  | succ n ih =>
    rw [digitSkip]
    split
    case isTrue hdrop => exact ih hdrop
    case isFalse => exact h

theorem digitSqrt_eq {N : Nat} (h : N < 4 ^ 24) : digitSqrt N = (isqrt N, N - isqrt N * isqrt N) := by
  have hskip := lt_four_pow_digitSkip h
  rw [show (4 : Nat) = 2 * 2 from rfl, mul_pow] at hskip
  obtain ⟨lo, hi⟩ := isqrtFrom_spec N (digitSkip N 24) 0 (by simp) (by simpa using hskip)
  have hloop := digitLoop_eq N (digitSkip N 24) 0 (by simp)
  rw [← isqrt_unique lo hi] at hloop
  simpa [digitSqrt] using hloop

/-! ### The sum of products of `DOT` -/

theorem State.dotResult_eq (s : State) (n : Nat) :
    s.dotResult n = narrow s.cfg (((List.range n).map fun i =>
      s32 (s.amemWord (s.dota.base.toNat + i * s.dota.stride.toNat)) *
        s32 (s.amemWord (s.dotb.base.toNat + i * s.dotb.stride.toNat))).sum) := by
  rw [State.dotResult, dotsum, State.dotArray, State.dotArray, dotAcc_map_range]
  rfl

/-- The indices of an array rise, so all are inside `AMEM` when the last one is (41_dot.md R162). -/
theorem element_le_of_last {base stride n i : Nat} (hlast : base + (n - 1) * stride ≤ 1023) (hi : i < n) :
    base + i * stride ≤ 1023 := by
  have : i * stride ≤ (n - 1) * stride := Nat.mul_le_mul_right _ (by omega)
  omega

end Sys2Proof.Machine

open Sys2Proof Sys2Proof.Machine

/-- Settles O15: below the last half unit `narrow` is `roundProduct`, which fits a word; the rest of the range and what
is outside it are single words. -/
theorem narrowRoundsExactly : Obligations.NarrowRoundsExactly := by
  intro cfg p
  refine ⟨fun hovf => ⟨fun lo hi => ?inRange, fun lo hi => narrow_last_half cfg lo hi, fun hp => ?lowest,
    narrow_of_outside hovf, fun lo hneg => s32_narrow cfg lo (by omega)⟩,
    fun hovf => ⟨_, narrow_of_ovf_off p hovf, roundProduct_rounds cfg.round p⟩, fun hneg => ?recipeNeg,
    fun hnonneg => ?recipeNonneg⟩
  case inRange =>
    rw [s32_narrow cfg lo hi]
    exact roundProduct_rounds cfg.round p
  case lowest =>
    rw [hp]
    exact narrow_whole cfg OVF
  case recipeNeg =>
    rw [roundProduct_of_neg hneg]
    omega
  case recipeNonneg =>
    rw [roundProduct_of_nonneg hnonneg]
    omega

/-- Settles O16: `ONE` is 2^16 units, so the product is a whole number of them; the largest product, 2^62, is outside
the range and its rounded value a multiple of 2^32. -/
theorem mulLaws : Obligations.MulLaws := by
  intro cfg a b
  refine ⟨mul_comm_words cfg a b, mul_one_word cfg a, mul_zero_word cfg a, fun hovf => ?sentinel, fun hovf => ?wraps⟩
  case sentinel => exact narrow_of_outside hovf (.inr (by decide))
  case wraps =>
    rw [mul, narrow_of_ovf_off _ hovf]
    cases cfg.round <;> decide

/-- Settles O17: such a quotient has a magnitude below 2^31, so `div` is the signed magnitude itself. -/
theorem divRoundsTheExactQuotient : Obligations.DivRoundsTheExactQuotient := by
  intro cfg a b hb h
  rw [(s32_div cfg hb h).1]
  exact divSigned_rounds cfg.round (s32 a) hb

/-- Settles O18: overflow is `div_eq_ovf_iff`, the wrapped quotient is the signed magnitude, and the cases on given
words are evaluated. -/
theorem divCornerCases : Obligations.DivCornerCases := by
  intro rd a b
  refine ⟨div_eq_ovf_iff rfl, fun hb => ⟨_, div_eq_divSigned ⟨rd, false⟩ a b (s32_ne_zero hb) (by simp),
    divSigned_rounds rd (s32 a) (s32_ne_zero hb)⟩, div_of_outside rfl (by decide), div_minus_one_eq_ovf_iff a rfl, ?_,
    fun ov => ⟨div_zero_dividend _, div_zero_divisor _ a, div_self_word _⟩, by decide, by decide, by decide, by decide,
    div_of_outside rfl (by decide), ?_, by decide, by decide⟩ <;> cases rd <;> decide

/-- Settles O20: the loop is the search for the root, `digitLoop_eq`. -/
theorem digitLoopGivesRootAndRemainder : Obligations.DigitLoopGivesRootAndRemainder :=
  fun _ h => digitSqrt_eq (h.trans (by norm_num))

/-- Settles O23: the exact sum is symmetric, and a sum of squares is not negative. -/
theorem dotsumSymmetricAndNonnegative : Obligations.DotsumSymmetricAndNonnegative := by
  intro cfg u v
  refine ⟨?_, fun hovf => s32_narrow_nonneg hovf (dotAcc_self_nonneg u)⟩
  rw [dotsum, dotsum, dotAcc_comm]

/-- Settles O24: the range check passes, and `DOT` is one write of `x[d]`. -/
theorem dotSumsTheTwoArrays : Obligations.DotSumsTheTwoArrays := by
  intro d n s h
  have hrange : s.dotOutOfRange n.val = false := by
    rw [← Bool.not_eq_true, State.dotOutOfRange_iff]
    omega
  refine ⟨⟨_, exec_dot_in s hrange, ?result, s.onlyXChanges_setX d _⟩, fun i hi => ?inside⟩
  case result => rw [State.getX_setX_self, State.dotResult_eq]
  case inside =>
    obtain ⟨ha, hb⟩ := h.resolve_left (by omega)
    exact ⟨element_le_of_last ha hi, element_le_of_last hb hi⟩

/-- Settles O11: `MUL` is one write of `x[d]`, of `mul`, which is `narrow` of the exact product. -/
theorem mulWritesTheProduct : Obligations.MulWritesTheProduct :=
  fun d a b s => ⟨_, exec_mul s d a b, State.getX_setX_self .., s.onlyXChanges_setX d _⟩

/-- Settles O12: `DIV` is one write of `x[d]`. -/
theorem divWritesTheQuotient : Obligations.DivWritesTheQuotient :=
  fun d a b s => ⟨_, exec_div s d a b, State.getX_setX_self .., s.onlyXChanges_setX d _⟩

/-- Settles O13: `SQRT` is one write of `x[d]`. -/
theorem sqrtWritesTheRoot : Obligations.SqrtWritesTheRoot :=
  fun d a s => ⟨_, exec_sqrt s d a, State.getX_setX_self .., s.onlyXChanges_setX d _⟩

/-- Settles O54: every scalar register is 0 after reset, and the functions at 0 are evaluated. -/
theorem scalarCommandsAreUsableAfterReset : Obligations.ScalarCommandsAreUsableAfterReset := by
  have hx (i : XReg) : State.reset.getX i = 0 := State.powerOn_getX 0 [] i
  refine ⟨?id, fun d a b => ⟨_, exec_mul _ d a b, ?mul⟩, fun d a b => ⟨_, exec_div _ d a b, ?div⟩,
    fun d a => ⟨_, exec_sqrt _ d a, ?sqrt⟩, fun d => ⟨_, exec_dot_in _ rfl, ?dot⟩⟩
  case id => rw [State.portWord_eq_locValue]; rfl
  case mul => rw [State.getX_setX_self, hx b, mul_zero_word]
  case div => rw [State.getX_setX_self, hx b]; exact div_zero_divisor ..
  case sqrt => rw [State.getX_setX_self, hx a]; decide
  case dot => rw [State.getX_setX_self, State.dotResult_eq]; exact narrow_zero _

end

section
/-! PROOFS. The statements about the host port of 20_memory.md that are left: the address map has no other location,
and a word that is written is read back. -/

namespace Sys2Proof.Machine

/-- The gap of a window is all that is reserved in it (20_memory.md R61). -/
theorem gap_of_locateMat_reserved {k : MReg} {off : Nat} (h : locateMat k off = .reserved) : 3 ≤ off ∧ off < 0x40 := by
  unfold locateMat at h
  split_ifs at h with h0 h1 h2 hgap
  omega

/-- An index of the windows is that of an offset in the window of one matrix register. -/
theorem exists_window {a : Index} (lo : 0x200 ≤ a.toNat) (hi : a.toNat < 0x400) :
    ∃ (k : MReg) (off : Nat), off < 0x80 ∧ a.toNat = 0x200 + 0x80 * k.val + off :=
  ⟨⟨(a.toNat - 0x200) / 0x80, by omega⟩, (a.toNat - 0x200) % 0x80, by omega, by simp only; omega⟩

/-- Every index without a location is in the list of 60_exceptions.md R226. -/
theorem reservedIndex_of_locate {a : Index} (h : locate a = .reserved) : ReservedIndex a := by
  by_cases hx : a.toNat < 0x010
  · rw [locate_x ⟨a.toNat, hx⟩ rfl] at h
    cases h
  by_cases hcontrol : a.toNat < 0x017
  · have ha : a = 0x010 ∨ a = 0x011 ∨ a = 0x012 ∨ a = 0x013 ∨ a = 0x014 ∨ a = 0x015 ∨ a = 0x016 := by bv_omega
    rcases ha with rfl | rfl | rfl | rfl | rfl | rfl | rfl <;> cases h
  by_cases hlow : a.toNat < 0x200
  · exact .inl (by omega)
  by_cases hwindow : a.toNat < 0x400
  · obtain ⟨k, off, hoff, ha⟩ := exists_window (Nat.le_of_not_lt hlow) hwindow
    rw [locate_window k hoff ha] at h
    have hgap := gap_of_locateMat_reserved h
    unfold ReservedIndex
    omega
  by_cases hamem : a.toNat < 0x800
  · rw [locate_amem ⟨a.toNat - 0x400, by omega⟩ (by simp only; omega)] at h
    cases h
  · exact .inr (.inr (.inr (.inr (.inr (by omega)))))

/-- An accepted word brings no rejection and no acknowledgement. -/
theorem State.portWrite_record_of_accepts (s : State) {a : Index} {v : Word} (h : (locate a).Accepts v) :
    (s.portWrite a v).status = s.status ∧ (s.portWrite a v).errinfo = s.errinfo := by
  obtain hkeep | ⟨ha, -⟩ | ⟨-, -, -, hrefused⟩ := s.portWrite_record a v
  · exact hkeep
  · rw [ha] at h
    exact h.elim
  · exact absurd h hrefused

end Sys2Proof.Machine

open Sys2Proof Sys2Proof.Machine

/-- Settles O46: `locate` and `Loc.index` are inverse outside the reserved indices, which are those of the list. -/
theorem addressMapIsComplete : Obligations.AddressMapIsComplete :=
  ⟨fun _ => locate_index, fun _ => ⟨locate_of_reservedIndex, reservedIndex_of_locate⟩,
    fun _ ha => index_locate fun hres => ha (reservedIndex_of_locate hres)⟩

/-- Settles O48: the write makes the location read as the stored bits, and the read returns what the location reads
as. -/
theorem writtenWordIsReadBack : Obligations.WrittenWordIsReadBack := by
  intro s l v rest hv hp
  have hloc : locate l.index = l := locate_index (Loc.ne_reserved_of_accepts hv)
  have hwrite := step_write hp (hloc.symm ▸ Loc.ne_cmd_of_accepts hv)
  generalize hs : ({ s with pending := .read l.index :: rest, response := none } : State) = s₀ at hwrite
  have hread : step (s₀.portWrite l.index v) = .next { s₀.portWrite l.index v with
      pending := rest, response := some ((s₀.portWrite l.index v).locValue (locate l.index)) } :=
    step_read (by rw [State.portWrite_pending, ← hs]) (hloc.symm ▸ Loc.ne_reserved_of_accepts hv)
  obtain ⟨hstored, -⟩ := State.storesAt_portWrite (s := s₀) hloc hv
  obtain ⟨hstatus, hinfo⟩ := s₀.portWrite_record_of_accepts (hloc.symm ▸ hv)
  rw [hloc, hstored] at hread
  refine ⟨_, (core_run_succ 1 hwrite).trans (core_run_succ 0 hread), rfl, rfl, ?_, ?_⟩
  · rw [hstatus, ← hs]
  · rw [hinfo, ← hs]

end

section
/-! PROOFS. The statements about the multiply commands of 42_matrix_multiply.md: each is the common function of R179 in
one of its modes. -/

namespace Sys2Proof.Machine

section product
variable {s : State} {mode : MulMode} {a b : MReg}

/-- A cell of the result in its shape is the cell of the product. -/
theorem State.matmul_cell (d : MReg) {r c : Nat} (hA : (s.mat a).LegalShape) (hB : (s.mat b).LegalShape)
    (hr : r < (mode.resRows (s.mat a)).toNat) (hc : c < (mode.resCols (s.mat b)).toNat) :
    ((s.matmul mode d a b).mat d).cell r c = mode.productCell s.cfg (s.mat a) (s.mat b) r c := by
  obtain ⟨-, hrows, -, hcols⟩ := product_legalShape mode s.cfg (s.mat d) hA hB
  rw [State.matmul, State.mat_setMat_self, product_cell, if_pos ⟨hr.trans_le hrows, hc.trans_le hcols, hr, hc⟩]

/-- The record that a store leaves keeps the cells outside its shape (10_state.md R26 (b)). -/
theorem MatReg.keepsOutside_store (D : MatReg) (rows cols : BitVec 4) (e : Errors) (f : Nat → Nat → Word) :
    MatReg.KeepsOutside D (D.store rows cols e f) := by
  intro r c hout
  rw [MatReg.cell_store, if_neg]
  exact fun ⟨_, _, hin⟩ => hout hin

/-- The common function of R179, once its cell is written as a sum: everything that is said of a multiply command. -/
theorem State.productIn_matmul (d : MReg) {u v : Nat → Nat → Word} (hA : (s.mat a).LegalShape)
    (hB : (s.mat b).LegalShape)
    (hcell : ∀ r c, mode.productCell s.cfg (s.mat a) (s.mat b) r c =
      narrow s.cfg (((List.range (min (mode.innerA (s.mat a)).toNat (mode.innerB (s.mat b)).toNat)).map fun k =>
        s32 (u r k) * s32 (v k c)).sum)) :
    State.ProductIn s (s.matmul mode d a b) d a b (mode.innerA (s.mat a)) (mode.innerB (s.mat b))
      (mode.resRows (s.mat a)) (mode.resCols (s.mat b)) u v := by
  have hmat : (s.matmul mode d a b).mat d = mode.product s.cfg (s.mat a) (s.mat b) (s.mat d) :=
    State.mat_setMat_self ..
  refine ⟨by rw [hmat, product_rows], by rw [hmat, product_cols], fun r c hr hc => ?cells,
    fun ⟨r, c, hr, hc, hovf⟩ => ?overflow, fun hfits => ?fits, ?outside, s.onlyMatsChange_setMat d _⟩
  case cells => rw [State.matmul_cell d hA hB hr hc, hcell]
  case overflow =>
    rw [State.matmul_cell d hA hB hr hc] at hovf
    rw [State.matmul_errors]
    exact productErrors_overflow mode s.cfg _ _ ⟨r, c, hr, hc, hovf⟩
  case fits =>
    rw [State.matmul_errors]
    refine productErrors_fits mode s.cfg _ _ fun r c hr hc => ?_
    rw [← State.matmul_cell d hA hB hr hc]
    exact hfits r c hr hc
  case outside =>
    rw [hmat]
    exact MatReg.keepsOutside_store (s.mat d) _ _ _ _
end product

section productIn
variable {s t : State} {d a b : MReg} {ia ib R C : BitVec 4} {u v : Nat → Nat → Word}

/-- The flags of a product are 0 exactly when nothing raises one (42_matrix_multiply.md R181). -/
theorem State.ProductIn.errors_eq_zero_iff (h : State.ProductIn s t d a b ia ib R C u v) :
    (t.mat d).errors = 0 ↔ (s.mat a).errors = 0 ∧ (s.mat b).errors = 0 ∧ ia = ib ∧
      ∀ r c, r < (t.mat d).rows.toNat → c < (t.mat d).cols.toNat → (t.mat d).cell r c ≠ 0x80000000 := by
  obtain ⟨hrows, hcols, -, hoverflow, hfits, -, -⟩ := h
  rw [hrows, hcols]
  by_cases hcells : ∀ r c, r < R.toNat → c < C.toNat → (t.mat d).cell r c ≠ 0x80000000
  · rw [hfits hcells, iff_true_intro hcells]
    by_cases hinner : ia = ib <;> simp [hinner]
  · have hovf : ∃ r c, r < R.toNat ∧ c < C.toNat ∧ (t.mat d).cell r c = OVF := by push Not at hcells; exact hcells
    rw [hoverflow hovf, iff_false_intro hcells]
    simp

/-- The cells of a product that is stated by sums. -/
theorem State.ProductIn.cell_eq (h : State.ProductIn s t d a b ia ib R C u v) {r c : Nat} (hr : r < R.toNat)
    (hc : c < C.toNat) :
    (t.mat d).cell r c =
      narrow s.cfg (((List.range (min ia.toNat ib.toNat)).map fun k => s32 (u r k) * s32 (v k c)).sum) := by
  obtain ⟨-, -, hcell, -⟩ := h
  exact hcell r c hr hc
end productIn

section commands
variable {s : State} (d : MReg) {a b : MReg} (hA : (s.mat a).LegalShape) (hB : (s.mat b).LegalShape)
include hA hB

theorem State.productIn_mmul :
    State.ProductIn s (s.matmul .n d a b) d a b (s.mat a).cols (s.mat b).rows (s.mat a).rows (s.mat b).cols
      (fun r k => (s.mat a).cell r k) (fun k c => (s.mat b).cell k c) :=
  State.productIn_matmul (mode := .n) d hA hB fun r c => productCell_n _ _ _ r c

theorem State.productIn_mmulat :
    State.ProductIn s (s.matmul .at d a b) d a b (s.mat a).rows (s.mat b).rows (s.mat a).cols (s.mat b).cols
      (fun r k => (s.mat a).cell k r) (fun k c => (s.mat b).cell k c) :=
  State.productIn_matmul (mode := .at) d hA hB fun r c => productCell_at _ _ _ r c

theorem State.productIn_mmulbt :
    State.ProductIn s (s.matmul .bt d a b) d a b (s.mat a).cols (s.mat b).cols (s.mat a).rows (s.mat b).rows
      (fun r k => (s.mat a).cell r k) (fun k c => (s.mat b).cell c k) :=
  State.productIn_matmul (mode := .bt) d hA hB fun r c => productCell_bt _ _ _ r c
end commands

/-- The result of a multiply command in shape does not depend on its destination (42_matrix_multiply.md R174). -/
theorem State.sameInShape_matmul (s : State) (mode : MulMode) (d d' a b : MReg) :
    MatReg.SameInShape ((s.matmul mode d a b).mat d) ((s.matmul mode d' a b).mat d') := by
  rw [State.matmul, State.matmul, State.mat_setMat_self, State.mat_setMat_self]
  exact MatReg.sameInShape_store ..

end Sys2Proof.Machine

open Sys2Proof Sys2Proof.Machine

/-- Settles O26: the common function in the mode that reads `A` by rows and `B` by columns. -/
theorem mmulIsTheProduct : Obligations.MmulIsTheProduct :=
  fun d a b s hA hB => ⟨_, exec_mmul s d a b, State.productIn_mmul d hA hB⟩

/-- Settles O27: the mode that reads both sources by columns. -/
theorem mmulatIsTheTransposedProduct : Obligations.MmulatIsTheTransposedProduct :=
  fun d a b s hA hB => ⟨_, exec_mmulat s d a b, State.productIn_mmulat d hA hB⟩

/-- Settles O28: the mode that reads both sources by rows. -/
theorem mmulbtIsTheProductWithTranspose : Obligations.MmulbtIsTheProductWithTranspose :=
  fun d a b s hA hB => ⟨_, exec_mmulbt s d a b, State.productIn_mmulbt d hA hB⟩

/-- Settles O29: each command leaves a product, whose flags are 0 by `State.ProductIn.errors_eq_zero_iff`. -/
theorem multiplyErrorsZeroExactlyWhenClean : Obligations.MultiplyErrorsZeroExactlyWhenClean := by
  intro d a b s t hA hB
  refine ⟨?mmul, ?mmulat, ?mmulbt⟩ <;> rintro ⟨⟩
  case mmul => exact (State.productIn_mmul d hA hB).errors_eq_zero_iff
  case mmulat => exact (State.productIn_mmulat d hA hB).errors_eq_zero_iff
  case mmulbt => exact (State.productIn_mmulbt d hA hB).errors_eq_zero_iff

/-- Settles O30: the two cells are sums of the same products, with the factors exchanged. -/
theorem mmulbtOfOneMatrixIsSymmetric : Obligations.MmulbtOfOneMatrixIsSymmetric := by
  rintro d a s t hA ⟨⟩ r c hr hc
  have hproduct := State.productIn_mmulbt d hA hA
  rw [hproduct.cell_eq hr hc, hproduct.cell_eq hc hr]
  simp only [mul_comm]

/-- Settles O31: the sources are read before the destination is written, and its old record shows only outside the new
shape. -/
theorem destinationMayBeASource : Obligations.DestinationMayBeASource := by
  intro d d' a b s t t'
  refine ⟨?mmul, ?mmulat, ?mmulbt, ?chol⟩ <;> rintro ⟨⟩ ⟨⟩
  case mmul => exact s.sameInShape_matmul .n d d' a b
  case mmulat => exact s.sameInShape_matmul .at d d' a b
  case mmulbt => exact s.sameInShape_matmul .bt d d' a b
  case chol =>
    rw [State.mat_setMat_self, State.mat_setMat_self]
    exact MatReg.sameInShape_store ..

end

section
/-! PROOFS. The statements about `CHOL` of 44_cholesky.md: the equations of the factorisation and the causes of its
flags. -/

namespace Sys2Proof.Machine

/-! ### The cells of the result -/

section cells
variable {cfg : Cfg} {S : MatReg} {L : Cells} {i j : Nat}

theorem cholCell_above (h : i < j) : cholCell cfg S L i j = 0 := if_pos h

theorem cholCell_diagonal : cholCell cfg S L i i = sqrt cfg (cholClamp (cholDif cfg S L i i)) := by
  rw [cholCell, if_neg (lt_irrefl i), if_pos rfl]

theorem cholCell_below (h : j < i) : cholCell cfg S L i j = div cfg (cholDif cfg S L i j) (L.cell j j) := by
  rw [cholCell, if_neg (by omega), if_neg (by omega)]
end cells

section store
variable {cfg : Cfg} {S : MatReg} (D : MatReg) (hn : (cholOrder S).toNat ≤ 8) {i j : Nat}
include hn

/-- In shape the result is the factor. -/
theorem cholStore_cell (hi : i < (cholOrder S).toNat) (hj : j < (cholOrder S).toNat) :
    (cholStore cfg S D).cell i j = (cholFactor cfg S).l.cell i j := by
  rw [cholStore, MatReg.cell_store, if_pos ⟨hi.trans_le hn, hj.trans_le hn, hi, hj⟩]

/-- Every cell of the result is the one that its step computes from the factor (R212). -/
theorem cholStore_cell_eq (hi : i < (cholOrder S).toNat) (hj : j < (cholOrder S).toNat) :
    (cholStore cfg S D).cell i j = cholCell cfg S (cholFactor cfg S).l i j := by
  rw [cholStore_cell D hn hi hj, cholFactor_cell cfg S hn hi hj]

/-- The sum of a step, on the result. -/
theorem cholStore_sum (hj : j ≤ i) (hi : i < (cholOrder S).toNat) :
    dotsum cfg ((List.range j).map fun k => (cholStore cfg S D).cell i k)
      ((List.range j).map fun k => (cholStore cfg S D).cell j k) = cholSum cfg (cholFactor cfg S).l i j := by
  have row {a : Nat} (ha : a < (cholOrder S).toNat) :
      ((List.range j).map fun k => (cholStore cfg S D).cell a k) = (cholFactor cfg S).l.rowCells a j :=
    List.map_congr_left fun k hk => cholStore_cell D hn ha (by have := List.mem_range.1 hk; omega)
  rw [row hi, row (by omega), cholSum]

/-- The difference of a step, on the result. -/
theorem cholStore_dif (hj : j ≤ i) (hi : i < (cholOrder S).toNat) :
    subOverflow cfg (S.cell i j)
      (dotsum cfg ((List.range j).map fun k => (cholStore cfg S D).cell i k)
        ((List.range j).map fun k => (cholStore cfg S D).cell j k)) = cholDif cfg S (cholFactor cfg S).l i j := by
  rw [cholStore_sum D hn hj hi, cholDif]
end store

/-! ### The flags, bit by bit -/

/-- A flag that is one bit is raised exactly in that bit. -/
theorem Errors.raiseIf_getLsbD {flag : Errors} {k : Nat} (hflag : flag = BitVec.twoPow 5 k) (hk : k < 5) (cond : Bool)
    (bit : Nat) : (Errors.raiseIf cond flag).getLsbD bit = true ↔ bit = k ∧ cond = true := by
  cases cond <;> simp [Errors.raiseIf, hflag, BitVec.getLsbD_twoPow, hk, eq_comm]

theorem chk_getLsbD (v : Word) (bit : Nat) : (chk v).getLsbD bit = true ↔ bit = 0 ∧ v = 0x80000000 := by
  rw [chk, Errors.raiseIf_getLsbD (flag := Errors.overflow) (k := 0) rfl (by decide), beq_iff_eq]
  exact Iff.rfl

theorem cholNegative_getLsbD (v : Word) (bit : Nat) : (cholNegative v).getLsbD bit = true ↔ bit = 4 ∧ s32 v < -65 := by
  rw [cholNegative, Errors.raiseIf_getLsbD (flag := Errors.negative) (k := 4) rfl (by decide), decide_eq_true_eq]

theorem cholInit_getLsbD (S : MatReg) (bit : Nat) :
    (cholInit S).e.getLsbD bit = true ↔ S.errors.getLsbD bit = true ∨ bit = 1 ∧ S.rows ≠ S.cols := by
  rw [cholInit, BitVec.getLsbD_or, Bool.or_eq_true,
    Errors.raiseIf_getLsbD (flag := Errors.dimerr) (k := 1) rfl (by decide), bne_iff_ne]

theorem cholInit_getLsbD_of_ne (S : MatReg) {bit : Nat} (h : bit ≠ 1) :
    (cholInit S).e.getLsbD bit = S.errors.getLsbD bit := by
  rw [Bool.eq_iff_iff, cholInit_getLsbD, or_iff_left fun hb => h hb.1]

section flags
variable (cfg : Cfg) (S : MatReg) (bit : Nat)

/-- What the step for `(i, j)` raises (R212). -/
def CholRaises (L : Cells) (i j : Nat) : Prop :=
  (bit = 0 ∧ (cholSum cfg L i j = 0x80000000 ∨ cholDif cfg S L i j = 0x80000000 ∨
    cholCell cfg S L i j = 0x80000000)) ∨
  (bit = 4 ∧ i = j ∧ s32 (cholDif cfg S L i i) < -65)

theorem cholFlags_getLsbD (L : Cells) (i j : Nat) :
    (cholFlags cfg S L i j).getLsbD bit = true ↔ j ≤ i ∧ CholRaises cfg S bit L i j := by
  unfold cholFlags CholRaises
  split
  case isTrue habove => simp [Nat.not_le.2 habove]
  case isFalse hle =>
    split
    case isTrue hdiag =>
      subst hdiag
      simp only [BitVec.getLsbD_or, Bool.or_eq_true, chk_getLsbD, cholNegative_getLsbD, le_refl, true_and]
      tauto
    case isFalse hne =>
      simp only [BitVec.getLsbD_or, Bool.or_eq_true, chk_getLsbD, Nat.le_of_not_lt hle, Ne.symm hne, true_and,
        false_and, and_false, or_false]
      tauto

/-- The flags of the factorisation: those at the start, and those that a step raises on the final array. -/
theorem cholFactor_getLsbD (hn : (cholOrder S).toNat ≤ 8) :
    (cholFactor cfg S).e.getLsbD bit = true ↔ (cholInit S).e.getLsbD bit = true ∨
      ∃ i j, j ≤ i ∧ i < (cholOrder S).toNat ∧ CholRaises cfg S bit (cholFactor cfg S).l i j := by
  have hdone := cholFactor_done cfg S hn
  constructor
  · intro h
    refine (hdone.only bit h).imp_right fun ⟨i, j, hj, hearlier, hflag⟩ => ?_
    obtain ⟨hji, hraises⟩ := (cholFlags_getLsbD ..).1 hflag
    exact ⟨i, j, hji, hearlier.resolve_right (fun hlast => absurd hlast.2 (Nat.not_lt_zero j)), hraises⟩
  · rintro (hinit | ⟨i, j, hji, hi, hraises⟩)
    · exact cholFactor_keeps_init hn hinit
    · rw [← hdone.raised i j (by omega) (.inl hi), BitVec.getLsbD_or, Bool.or_eq_true]
      exact .inr ((cholFlags_getLsbD ..).2 ⟨hji, hraises⟩)

/-- A bit that no step raises is as before the first step. -/
theorem cholFactor_getLsbD_of_ne (hn : (cholOrder S).toNat ≤ 8) (h0 : bit ≠ 0) (h4 : bit ≠ 4) :
    (cholFactor cfg S).e.getLsbD bit = (cholInit S).e.getLsbD bit := by
  rw [Bool.eq_iff_iff, cholFactor_getLsbD cfg S bit hn]
  simp [CholRaises, h0, h4]
end flags

theorem cholOrder_le_eight {S : MatReg} (h : S.LegalShape) : (cholOrder S).toNat ≤ 8 := by
  obtain ⟨-, hrows, -, -⟩ := h
  have := cholOrder_toNat S
  omega

end Sys2Proof.Machine

open Sys2Proof Sys2Proof.Machine

/-- Settles O32: in shape the result is the factor, each cell of which is the one that its step computes. -/
theorem cholSatisfiesTheFactorEquations : Obligations.CholSatisfiesTheFactorEquations := by
  intro d m s hS
  have hn := cholOrder_le_eight hS
  have horder := cholOrder_toNat (s.mat m)
  refine ⟨_, exec_chol s d m, ?_⟩
  rw [State.mat_setMat_self]
  refine ⟨horder, horder, fun i j hij hj => ?above, fun i hi => ?diagonal, fun i j hij hi => ?below,
    MatReg.keepsOutside_store (s.mat d) _ _ _ _, s.onlyMatsChange_setMat d _⟩
  case above =>
    rw [cholStore_cell_eq _ hn (hij.trans hj) hj, cholCell_above hij]
  case diagonal =>
    dsimp only
    rw [cholStore_dif _ hn le_rfl hi, cholStore_cell_eq _ hn hi hi, cholCell_diagonal, cholClamp]
  case below =>
    rw [cholStore_dif _ hn hij.le hi, cholStore_cell _ hn (hij.trans hi) (hij.trans hi),
      cholStore_cell_eq _ hn hi (hij.trans hi), cholCell_below hij]

/-- Settles O33: the flags are those of `cholInit` and of `CholRaises`, on the cells of the result. -/
theorem cholFlagsAreRaisedExactlyByTheirCauses : Obligations.CholFlagsAreRaisedExactlyByTheirCauses := by
  rintro d m s t hS ⟨⟩
  have hn := cholOrder_le_eight hS
  rw [State.mat_setMat_self]
  dsimp only
  refine ⟨?overflow, ?dimerr, ?useerr, ?singular, ?negative⟩
  case overflow =>
    refine (cholFactor_getLsbD s.cfg (s.mat m) 0 hn).trans ?_
    rw [cholInit_getLsbD_of_ne _ (by decide)]
    refine or_congr_right ?_
    refine exists_congr fun i => exists_congr fun j => and_congr_right fun hj => and_congr_right fun hi => ?_
    rw [cholStore_dif _ hn hj hi, cholStore_sum _ hn hj hi, cholStore_cell_eq _ hn hi (hj.trans_lt hi)]
    simp [CholRaises]
  case dimerr =>
    refine (Bool.eq_iff_iff.1 (cholFactor_getLsbD_of_ne s.cfg (s.mat m) 1 hn (by decide) (by decide))).trans ?_
    rw [cholInit_getLsbD, and_iff_right rfl]
  case useerr =>
    exact (cholFactor_getLsbD_of_ne s.cfg (s.mat m) 2 hn (by decide) (by decide)).trans
      (cholInit_getLsbD_of_ne _ (by decide))
  case singular =>
    exact (cholFactor_getLsbD_of_ne s.cfg (s.mat m) 3 hn (by decide) (by decide)).trans
      (cholInit_getLsbD_of_ne _ (by decide))
  case negative =>
    refine (cholFactor_getLsbD s.cfg (s.mat m) 4 hn).trans ?_
    rw [cholInit_getLsbD_of_ne _ (by decide)]
    refine or_congr_right ?_
    constructor
    · rintro ⟨i, j, -, hi, ⟨h, -⟩ | ⟨-, -, hneg⟩⟩
      · exact absurd h (by decide)
      · exact ⟨i, hi, by rw [cholStore_dif _ hn le_rfl hi]; exact hneg⟩
    · rintro ⟨i, hi, hneg⟩
      rw [cholStore_dif _ hn le_rfl hi] at hneg
      exact ⟨i, i, le_rfl, hi, .inr ⟨rfl, rfl, hneg⟩⟩

end

section
/-! PROOFS. The statements about `QR` of 43_qr.md with different destinations: shapes and frame, the zeros of `R`, the
steps that every column satisfies, and the causes of the flags. -/

namespace Sys2Proof.Machine

/-! ### The flags that no step of `QR` touches -/

/-- `DIMERR`, `USEERR` and `NEGATIVE` are the same in both flag sets. -/
def OtherFlagsKept (e f : Errors) : Prop := f &&& 0x16 = e &&& 0x16

theorem OtherFlagsKept.refl (e : Errors) : OtherFlagsKept e e := rfl

theorem OtherFlagsKept.trans {e f g : Errors} (h1 : OtherFlagsKept e f) (h2 : OtherFlagsKept f g) :
    OtherFlagsKept e g :=
  Eq.trans h2 h1

theorem otherFlagsKept_or (e : Errors) {f : Errors} (h : f &&& 0x16 = 0) : OtherFlagsKept e (e ||| f) := by
  rw [OtherFlagsKept, BitVec.and_comm, BitVec.and_or_distrib_left, BitVec.and_comm _ f, h, BitVec.and_comm]
  exact BitVec.or_zero

theorem otherFlagsKept_chkAll (e : Errors) (l : List Word) : OtherFlagsKept e (e ||| chkAll l) := by
  refine otherFlagsKept_or e ?_
  unfold chkAll Errors.raiseIf
  split <;> rfl

theorem otherFlagsKept_chk (e : Errors) (v : Word) : OtherFlagsKept e (e ||| chk v) := by
  simpa using otherFlagsKept_chkAll e [v]

/-- A loop whose body keeps them keeps them. -/
theorem otherFlagsKept_foldl {α : Type} {f : QrWork → α → QrWork} (hf : ∀ w a, OtherFlagsKept w.e (f w a).e)
    (l : List α) (w : QrWork) : OtherFlagsKept w.e (l.foldl f w).e := by
  induction l generalizing w with
  | nil => exact .refl _
  | cons a l ih => exact (hf w a).trans (ih (f w a))

section loops
variable (cfg : Cfg) (n j : Nat) (w : QrWork)

theorem QrWork.project_otherFlags (i : Nat) : OtherFlagsKept w.e (w.project cfg n j i).e := by
  have subtract (d : Word) (w : QrWork) (k : Nat) : OtherFlagsKept w.e (w.subtract cfg d i j k).e :=
    (otherFlagsKept_chk ..).trans (otherFlagsKept_chk ..)
  refine OtherFlagsKept.trans ?_ (otherFlagsKept_chk ..)
  exact (otherFlagsKept_chk w.e _).trans (otherFlagsKept_foldl (subtract _) (List.range n) { w with e := w.e ||| _ })

theorem QrWork.normalise_otherFlags : OtherFlagsKept w.e (w.normalise cfg n j).e := by
  have guard : OtherFlagsKept w.e (w.e ||| (qrNorm cfg (w.q.colCells j n)).e) := by
    rw [qrNorm_errors]
    exact otherFlagsKept_chkAll ..
  unfold QrWork.normalise
  dsimp only
  split
  · exact guard.trans (otherFlagsKept_or _ rfl)
  · rw [QrWork.divide_errors]
    exact guard.trans (otherFlagsKept_chkAll ..)

theorem QrWork.column_otherFlags (reorth : Nat) : OtherFlagsKept w.e (w.column cfg n reorth j).e := by
  have pass (w : QrWork) : OtherFlagsKept w.e (w.pass cfg n j).e :=
    otherFlagsKept_foldl (QrWork.project_otherFlags cfg n j) _ w
  exact (otherFlagsKept_foldl (fun w _ => pass w) _ w).trans (QrWork.normalise_otherFlags ..)
end loops

/-- `QR` raises `OVERFLOW` and `SINGULAR` only (60_exceptions.md R230). -/
theorem qrFactor_otherFlags (cfg : Cfg) (S : MatReg) (reorth : Nat) :
    OtherFlagsKept S.errors (qrFactor cfg S reorth).e :=
  otherFlagsKept_foldl (fun w j => w.column_otherFlags cfg _ j reorth) _ (QrWork.init S)

/-! ### What the factorisation leaves, column by column -/

/-- Step (a) on column `c` of the source: the column and the sums after `reorth + 1` passes against the columns of `Q`
before it (43_qr.md R193). -/
def qrSteps (cfg : Cfg) (S : MatReg) (reorth : Nat) (Q : Cells) (c : Nat) : List Word × List Word :=
  gsPasses cfg ((List.range c).map fun b => Q.colCells b S.rows.toNat) (reorth + 1) (List.replicate c 0)
    (Cells.colCells S.data c S.rows.toNat)

/-- The words that step (a) checks on column `c` of the source. -/
def qrStepsWords (cfg : Cfg) (S : MatReg) (reorth : Nat) (Q : Cells) (c : Nat) : List Word :=
  gsPassesWords cfg ((List.range c).map fun b => Q.colCells b S.rows.toNat) (reorth + 1) (List.replicate c 0)
    (Cells.colCells S.data c S.rows.toNat)

theorem qrSingular_iff (rjj : Word) : qrSingular rjj = true ↔ -5 < s32 rjj ∧ s32 rjj < 5 := by
  rw [qrSingular, Bool.and_eq_true, decide_eq_true_eq, decide_eq_true_eq]

section columns
variable {cfg : Cfg} {S : MatReg} (reorth : Nat) (hS : S.LegalShape)
include hS

theorem qrFactor_legal : QrDone cfg S reorth S.cols.toNat (qrFactor cfg S reorth) := by
  obtain ⟨-, hrows, -, hcols⟩ := hS
  exact qrFactor_done cfg S reorth hrows hcols

theorem qrFactor_steps {c : Nat} (hc : c < S.cols.toNat) :
    ((List.range c).map fun a => (qrFactor cfg S reorth).r.cell a c) =
      (qrSteps cfg S reorth (qrFactor cfg S reorth).q c).2 ∧
    (qrFactor cfg S reorth).r.cell c c = (qrNorm cfg (qrSteps cfg S reorth (qrFactor cfg S reorth).q c).1).rjj ∧
    (qrFactor cfg S reorth).q.colCells c S.rows.toNat =
      gsColumn cfg (qrSteps cfg S reorth (qrFactor cfg S reorth).q c).1 :=
  (qrFactor_legal reorth hS).steps c hc
end columns

/-! ### The records of the results -/

section store
variable {S : MatReg} (D : MatReg) (w : QrWork) (hS : S.LegalShape)
include hS

theorem qrStoreR_cell {i j : Nat} (hi : i < S.cols.toNat) (hj : j < S.cols.toNat) :
    (qrStoreR D S w).cell i j = w.r.cell i j := by
  obtain ⟨-, -, -, hcols⟩ := hS
  rw [qrStoreR, MatReg.cell_store, if_pos ⟨hi.trans_le hcols, hj.trans_le hcols, hi, hj⟩]

theorem qrStoreQ_cell {k c : Nat} (hk : k < S.rows.toNat) (hc : c < S.cols.toNat) :
    (qrStoreQ D S w).cell k c = w.q.cell k c := by
  obtain ⟨-, hrows, -, hcols⟩ := hS
  rw [qrStoreQ, MatReg.cell_store, if_pos ⟨hk.trans_le hrows, hc.trans_le hcols, hk, hc⟩]

theorem qrStoreQ_column {c : Nat} (hc : c < S.cols.toNat) :
    ((List.range S.rows.toNat).map fun k => (qrStoreQ D S w).cell k c) = w.q.colCells c S.rows.toNat :=
  List.map_congr_left fun _ hk => qrStoreQ_cell D w hS (List.mem_range.1 hk) hc

theorem qrStoreQ_columns {c : Nat} (hc : c < S.cols.toNat) :
    ((List.range c).map fun b => (List.range S.rows.toNat).map fun k => (qrStoreQ D S w).cell k b) =
      (List.range c).map fun b => w.q.colCells b S.rows.toNat :=
  List.map_congr_left fun _ hb => qrStoreQ_column D w hS ((List.mem_range.1 hb).trans hc)
end store

/-! ### The flags, bit by bit -/

theorem singular_getLsbD (bit : Nat) : Errors.singular.getLsbD bit = true ↔ bit = 3 := by
  have hflag : Errors.singular = Errors.raiseIf true (BitVec.twoPow 5 3) := rfl
  rw [hflag, Errors.raiseIf_getLsbD rfl (by decide), and_iff_left rfl]

/-- Steps (b) to (e) on a column: what the guard checks, then a quotient or the singular diagonal (R194 to R196). -/
theorem gsFlags_getLsbD (cfg : Cfg) (v : List Word) (bit : Nat) :
    (gsFlags cfg v).getLsbD bit = true ↔
      (bit = 0 ∧ ((0x80000000 : Word) ∈ guardWords cfg v ∨
        (¬ qrSingular (qrNorm cfg v).rjj = true ∧
          ∃ u ∈ (qrNorm cfg v).colp, div cfg u (qrNorm cfg v).nrm = 0x80000000))) ∨
      (bit = 3 ∧ qrSingular (qrNorm cfg v).rjj = true) := by
  rw [gsFlags, BitVec.getLsbD_or, Bool.or_eq_true, chkAll_getLsbD]
  split
  case isTrue hs => simp [singular_getLsbD, hs]
  case isFalse hs => simp [chkAll_getLsbD, hs, and_or_left]

/-- The flags of column `c`. -/
theorem qrColumnFlags_getLsbD (cfg : Cfg) (S : MatReg) (reorth : Nat) (Q : Cells) (c bit : Nat) :
    (qrColumnFlags cfg S reorth Q c).getLsbD bit = true ↔
      (bit = 0 ∧ (0x80000000 : Word) ∈ qrStepsWords cfg S reorth Q c) ∨
      (gsFlags cfg (qrSteps cfg S reorth Q c).1).getLsbD bit = true := by
  rw [qrColumnFlags, BitVec.getLsbD_or, Bool.or_eq_true, chkAll_getLsbD, qrStepsWords, qrSteps]

section flags
variable {cfg : Cfg} {S : MatReg} (reorth : Nat) (hS : S.LegalShape)
include hS

theorem qrFactor_getLsbD_singular :
    (qrFactor cfg S reorth).e.getLsbD 3 = true ↔ S.errors.getLsbD 3 = true ∨
      ∃ c, c < S.cols.toNat ∧ -5 < s32 ((qrFactor cfg S reorth).r.cell c c) ∧
        s32 ((qrFactor cfg S reorth).r.cell c c) < 5 := by
  rw [(qrFactor_legal reorth hS).flags 3]
  refine or_congr_right (exists_congr fun c => and_congr_right fun hc => ?_)
  obtain ⟨-, hdiag, -⟩ := qrFactor_steps (cfg := cfg) reorth hS hc
  rw [qrColumnFlags_getLsbD, gsFlags_getLsbD, hdiag, ← qrSingular_iff]
  simp

theorem qrFactor_getLsbD_overflow :
    (qrFactor cfg S reorth).e.getLsbD 0 = true ↔ S.errors.getLsbD 0 = true ∨
      ∃ c, c < S.cols.toNat ∧
        ((0x80000000 : Word) ∈ qrStepsWords cfg S reorth (qrFactor cfg S reorth).q c ∨
          (gsFlags cfg (qrSteps cfg S reorth (qrFactor cfg S reorth).q c).1).getLsbD 0 = true) := by
  rw [(qrFactor_legal reorth hS).flags 0]
  refine or_congr_right (exists_congr fun c => and_congr_right fun _ => ?_)
  rw [qrColumnFlags_getLsbD, and_iff_right rfl]

theorem qrFactor_getLsbD_other {bit : Nat} (h0 : bit ≠ 0) (h3 : bit ≠ 3) :
    (qrFactor cfg S reorth).e.getLsbD bit = S.errors.getLsbD bit := by
  rw [Bool.eq_iff_iff, (qrFactor_legal reorth hS).flags bit]
  simp [qrColumnFlags_getLsbD, gsFlags_getLsbD, h0, h3]
end flags

/-! ### A sentinel in `R` was checked -/

/-- The sums that a pass leaves are among the words it checks (43_qr.md R193). -/
theorem mem_gsPassWords {cfg : Cfg} {qs : List (List Word)} {rs v : List Word} {x : Word}
    (h : x ∈ (gsPass cfg qs rs v).2) : x ∈ gsPassWords cfg qs rs v := by
  induction qs generalizing rs v with
  | nil => simp [gsPass] at h
  | cons q qs ih =>
    cases rs with
    | nil => simp [gsPass] at h
    | cons r rs =>
      rw [gsPassWords]
      rw [gsPass] at h
      refine List.mem_append_right _ ?_
      rcases List.mem_cons.1 h with rfl | hrest
      · exact List.mem_cons_self
      · exact List.mem_cons_of_mem _ (ih hrest)

/-- The sums that the passes leave are those at the start or among the words that the passes check. -/
theorem mem_gsPassesWords {cfg : Cfg} {qs : List (List Word)} {n : Nat} {rs v : List Word} {x : Word}
    (h : x ∈ (gsPasses cfg qs n rs v).2) : x ∈ rs ∨ x ∈ gsPassesWords cfg qs n rs v := by
  induction n generalizing rs v with
  | zero => exact .inl h
  | succ n ih =>
    rw [gsPassesWords]
    rcases ih h with hpass | hlater
    · exact .inr (List.mem_append_left _ (mem_gsPassWords hpass))
    · exact .inr (List.mem_append_right _ hlater)

/-- The norm that the guard puts in the diagonal cell is among the words it checks (R194). -/
theorem rjj_mem_guardWords {cfg : Cfg} {v : List Word} (h : (qrNorm cfg v).rjj = 0x80000000) :
    (0x80000000 : Word) ∈ guardWords cfg v := by
  have hchk := qrNorm_chk cfg v
  rw [h, FlagsLe, qrNorm_errors] at hchk
  refine ((chkAll_getLsbD _ 0).1 ?_).2
  rw [← hchk, BitVec.getLsbD_or, Bool.or_eq_true]
  exact .inr rfl

theorem qrFactor_overflow_of_cell {cfg : Cfg} {S : MatReg} (reorth : Nat) (hS : S.LegalShape) {i j : Nat} (hij : i ≤ j)
    (hj : j < S.cols.toNat) (h : (qrFactor cfg S reorth).r.cell i j = 0x80000000) :
    (qrFactor cfg S reorth).e.getLsbD 0 = true := by
  obtain ⟨hsums, hdiag, -⟩ := qrFactor_steps (cfg := cfg) reorth hS hj
  refine (qrFactor_getLsbD_overflow reorth hS).2 (.inr ⟨j, hj, ?_⟩)
  rcases Nat.lt_or_eq_of_le hij with hlt | rfl
  · have hmem : (0x80000000 : Word) ∈ (qrSteps cfg S reorth (qrFactor cfg S reorth).q j).2 := by
      rw [← hsums, ← h]
      exact List.mem_map_of_mem (List.mem_range.2 hlt)
    refine .inl ((mem_gsPassesWords hmem).resolve_left fun hstart => ?_)
    exact absurd (List.eq_of_mem_replicate hstart) (by decide)
  · rw [hdiag] at h
    exact .inr ((gsFlags_getLsbD ..).2 (.inl ⟨rfl, .inl (rjj_mem_guardWords h)⟩))

/-! ### The guard of a column, as R194 writes it -/

/-- What steps (b) to (e) check on a column, beside what step (a) found, in the terms of `GuardGives` and
`GuardChecks`. -/
theorem gsFlags_overflow_iff (cfg : Cfg) (v : List Word) (found : Prop) :
    (found ∨ (gsFlags cfg v).getLsbD 0 = true) ↔ ∃ colp nrm, GuardGives cfg v colp nrm (qrNorm cfg v).rjj ∧
      (found ∨ GuardChecks cfg v colp nrm (qrNorm cfg v).rjj 0x80000000 ∨
        (¬ qrSingular (qrNorm cfg v).rjj = true ∧ ∃ u ∈ colp, div cfg u nrm = 0x80000000)) := by
  rw [gsFlags_getLsbD, mem_guardWords]
  constructor
  · rintro (h | ⟨-, h⟩ | ⟨h, -⟩)
    · exact ⟨_, _, qrNorm_gives cfg v, .inl h⟩
    · exact ⟨_, _, qrNorm_gives cfg v, .inr h⟩
    · exact absurd h (by decide)
  · rintro ⟨colp, nrm, hgives, h⟩
    obtain ⟨rfl, rfl, -⟩ := hgives.unique (qrNorm_gives cfg v)
    exact h.imp_right fun hchecks => .inl ⟨rfl, hchecks⟩

end Sys2Proof.Machine

open Sys2Proof Sys2Proof.Machine

/-- Settles O36: the two records are stores, the flags are those of the factorisation, and the two registers are the
only change. -/
theorem qrShapesFlagsAndFrame : Obligations.QrShapesFlagsAndFrame := by
  intro q r m n s hqr
  refine ⟨_, exec_qr_ne s hqr m n, ?_⟩
  rw [State.qrRun_mat_q s m n.val hqr, State.qrRun_mat_r]
  exact ⟨rfl, rfl, rfl, rfl, rfl, qrFactor_flags .., qrFactor_otherFlags ..,
    MatReg.keepsOutside_store (s.mat q) _ _ _ _, MatReg.keepsOutside_store (s.mat r) _ _ _ _,
    s.onlyMatsChange_qrRun q r m n.val⟩

/-- Settles O37: no step writes below the diagonal of `R`, which starts as 0. -/
theorem qrLeavesZerosBelowTheDiagonal : Obligations.QrLeavesZerosBelowTheDiagonal := by
  intro q r m n s t hqr hS h i j hji hi
  rw [exec_qr_ne s hqr] at h
  cases h
  rw [State.qrRun_mat_r] at hi ⊢
  rw [qrStoreR_cell _ _ hS hi (hji.trans hi)]
  exact (qrFactor_legal n.val hS).zeros i j (.inl hji)

/-- Settles O38: the columns of the records are those of the factorisation, which satisfies the steps. -/
theorem qrColumnsSatisfyTheSteps : Obligations.QrColumnsSatisfyTheSteps := by
  intro q r m n s hqr hS
  refine ⟨_, exec_qr_ne s hqr m n, fun j hj => ?_⟩
  rw [State.qrRun_mat_q s m n.val hqr, State.qrRun_mat_r]
  dsimp only
  rw [qrStoreQ_columns _ _ hS hj, qrStoreQ_column _ _ hS hj, qrStoreR_cell _ _ hS hj hj]
  obtain ⟨hsums, hdiag, hcolumn⟩ := qrFactor_steps (cfg := s.cfg) n.val hS hj
  refine ⟨?sums, _, _, hdiag ▸ qrNorm_gives s.cfg _, fun hsmall => ?kept, fun hsmall => ?divided⟩
  case sums =>
    refine Eq.trans (List.map_congr_left fun i hi => ?_) hsums
    exact qrStoreR_cell _ _ hS ((List.mem_range.1 hi).trans hj) hj
  case kept =>
    rw [← qrSingular_iff, hdiag] at hsmall
    exact hcolumn.trans (if_pos hsmall)
  case divided =>
    rw [← qrSingular_iff, hdiag] at hsmall
    exact hcolumn.trans (if_neg hsmall)

/-- Settles O39: `SINGULAR` is raised by the diagonal cells, and every cell of `R` on or above the diagonal was passed
through `chk`. -/
theorem qrSingularFlagMatchesTheDiagonal : Obligations.QrSingularFlagMatchesTheDiagonal := by
  intro q r m n s t hqr hS h
  rw [exec_qr_ne s hqr] at h
  cases h
  rw [State.qrRun_mat_q s m n.val hqr, State.qrRun_mat_r]
  refine ⟨(qrFactor_getLsbD_singular n.val hS).trans ?singular, fun ⟨i, j, hij, hj, hcell⟩ => ?overflow⟩
  case singular =>
    refine or_congr_right (exists_congr fun j => and_congr_right fun hj => ?_)
    rw [qrStoreR_cell _ _ hS hj hj]
  case overflow =>
    rw [qrStoreR_cell _ _ hS (hij.trans_lt hj) hj] at hcell
    exact qrFactor_overflow_of_cell n.val hS hij hj hcell

/-- Settles O40: the flags are those of the columns, each by the words that its steps check. -/
theorem qrFlagsAreRaisedExactlyByTheirCauses : Obligations.QrFlagsAreRaisedExactlyByTheirCauses := by
  intro q r m n s hqr hS
  refine ⟨_, exec_qr_ne s hqr m n, ?_⟩
  rw [State.qrRun_mat_q s m n.val hqr, State.qrRun_mat_r]
  dsimp only
  refine ⟨rfl, ?overflow, qrFactor_getLsbD_other n.val hS (by decide) (by decide),
    qrFactor_getLsbD_other n.val hS (by decide) (by decide), ?singular,
    qrFactor_getLsbD_other n.val hS (by decide) (by decide)⟩
  case overflow =>
    refine (qrFactor_getLsbD_overflow n.val hS).trans (or_congr_right (exists_congr fun j => ?_))
    simp only [exists_and_left]
    refine and_congr_right fun hj => ?_
    obtain ⟨-, hdiag, -⟩ := qrFactor_steps (cfg := s.cfg) n.val hS hj
    rw [qrStoreQ_columns _ _ hS hj, qrStoreR_cell _ _ hS hj hj, ← qrSingular_iff, hdiag]
    exact gsFlags_overflow_iff ..
  case singular =>
    refine (qrFactor_getLsbD_singular n.val hS).trans ?_
    refine or_congr_right (exists_congr fun j => and_congr_right fun hj => ?_)
    rw [qrStoreR_cell _ _ hS hj hj]

end

section
/-! PROOFS. The statement that no matrix command reads a cell outside the shape of its source (10_state.md R26). -/

namespace Sys2Proof.Machine

/-- A store reads its cell function inside its shape alone. -/
theorem MatReg.store_congr (D : MatReg) {rows cols : BitVec 4} {e : Errors} {f f' : Nat → Nat → Word}
    (h : ∀ r c, r < rows.toNat → c < cols.toNat → f r c = f' r c) :
    D.store rows cols e f = D.store rows cols e f' := by
  have hcells : Cells.overlay D.data rows.toNat cols.toNat f = Cells.overlay D.data rows.toNat cols.toNat f' := by
    refine Cells.ext_cell fun r c _ _ => ?_
    rw [Cells.cell_overlay, Cells.cell_overlay]
    split
    case isTrue hin =>
      obtain ⟨-, -, hr, hc⟩ := hin
      exact h r c hr hc
    case isFalse => rfl
  rw [MatReg.store, MatReg.store, hcells]

/-- Stores of the same shape, flags and cells in shape look alike, whatever the destinations held. -/
theorem MatReg.sameInShape_store_congr (D D' : MatReg) {rows cols : BitVec 4} {e : Errors} {f f' : Nat → Nat → Word}
    (h : ∀ r c, r < rows.toNat → c < cols.toNat → f r c = f' r c) :
    MatReg.SameInShape (D.store rows cols e f) (D'.store rows cols e f') := by
  rw [D.store_congr h]
  exact MatReg.sameInShape_store ..

/-! ### The multiply commands -/

section product
variable (mode : MulMode) {A A' B B' : MatReg}

theorem MulMode.left_congr (hA : MatReg.SameInShape A A') {r n : Nat} (hr : r < (mode.resRows A).toNat)
    (hn : n ≤ (mode.innerA A).toNat) : mode.left A r n = mode.left A' r n := by
  obtain ⟨-, -, -, hcell⟩ := hA
  cases mode with
  | n => exact List.map_congr_left fun k hk => hcell r k hr ((List.mem_range.1 hk).trans_le hn)
  | bt => exact List.map_congr_left fun k hk => hcell r k hr ((List.mem_range.1 hk).trans_le hn)
  | _ => exact List.map_congr_left fun k hk => hcell k r ((List.mem_range.1 hk).trans_le hn) hr -- `MMULAT`

theorem MulMode.right_congr (hB : MatReg.SameInShape B B') {c n : Nat} (hc : c < (mode.resCols B).toNat)
    (hn : n ≤ (mode.innerB B).toNat) : mode.right B c n = mode.right B' c n := by
  obtain ⟨-, -, -, hcell⟩ := hB
  cases mode with
  | n => exact List.map_congr_left fun k hk => hcell k c ((List.mem_range.1 hk).trans_le hn) hc
  | bt => exact List.map_congr_left fun k hk => hcell c k hc ((List.mem_range.1 hk).trans_le hn)
  | _ => exact List.map_congr_left fun k hk => hcell k c ((List.mem_range.1 hk).trans_le hn) hc -- `MMULAT`

theorem MulMode.dims_left_congr (hA : MatReg.SameInShape A A') :
    mode.innerA A = mode.innerA A' ∧ mode.resRows A = mode.resRows A' := by
  obtain ⟨hrows, hcols, -, -⟩ := hA
  cases mode with
  | n => exact ⟨hcols, hrows⟩
  | bt => exact ⟨hcols, hrows⟩
  | _ => exact ⟨hrows, hcols⟩ -- `MMULAT`

theorem MulMode.dims_right_congr (hB : MatReg.SameInShape B B') :
    mode.innerB B = mode.innerB B' ∧ mode.resCols B = mode.resCols B' := by
  obtain ⟨hrows, hcols, -, -⟩ := hB
  cases mode with
  | n => exact ⟨hrows, hcols⟩
  | bt => exact ⟨hcols, hrows⟩
  | _ => exact ⟨hrows, hcols⟩ -- `MMULAT`

/-- The inner length is the lesser one, so a cell of the product reads inside both shapes (42_matrix_multiply.md
R173). -/
theorem MulMode.productCell_congr (cfg : Cfg) (hA : MatReg.SameInShape A A') (hB : MatReg.SameInShape B B') {r c : Nat}
    (hr : r < (mode.resRows A).toNat) (hc : c < (mode.resCols B).toNat) :
    mode.productCell cfg A B r c = mode.productCell cfg A' B' r c := by
  have hinner : mode.inner A B = mode.inner A' B' := by
    rw [MulMode.inner, MulMode.inner, (mode.dims_left_congr hA).1, (mode.dims_right_congr hB).1]
  have hleft : mode.inner A B ≤ (mode.innerA A).toNat := Nat.min_le_left ..
  have hright : mode.inner A B ≤ (mode.innerB B).toNat := Nat.min_le_right ..
  rw [MulMode.productCell, MulMode.productCell, mode.left_congr hA hr hleft, mode.right_congr hB hc hright, hinner]

theorem MulMode.productErrors_congr (cfg : Cfg) (hA : MatReg.SameInShape A A') (hB : MatReg.SameInShape B B') :
    mode.productErrors cfg A B = mode.productErrors cfg A' B' := by
  obtain ⟨hia, hrows⟩ := mode.dims_left_congr hA
  obtain ⟨hib, hcols⟩ := mode.dims_right_congr hB
  have hcells : ((List.range (mode.resRows A).toNat).flatMap fun r =>
      (List.range (mode.resCols B).toNat).map fun c => mode.productCell cfg A B r c) =
      (List.range (mode.resRows A).toNat).flatMap fun r =>
        (List.range (mode.resCols B).toNat).map fun c => mode.productCell cfg A' B' r c :=
    List.flatMap_congr fun r hr => List.map_congr_left fun c hc =>
      mode.productCell_congr cfg hA hB (List.mem_range.1 hr) (List.mem_range.1 hc)
  obtain ⟨-, -, hea, -⟩ := hA
  obtain ⟨-, -, heb, -⟩ := hB
  rw [MulMode.productErrors, MulMode.productErrors, hcells, hia, hib, hrows, hcols, hea, heb]

theorem MulMode.product_congr (cfg : Cfg) (D D' : MatReg) (hA : MatReg.SameInShape A A')
    (hB : MatReg.SameInShape B B') :
    MatReg.SameInShape (mode.product cfg A B D) (mode.product cfg A' B' D') := by
  rw [MulMode.product, MulMode.product, ← mode.productErrors_congr cfg hA hB, ← (mode.dims_left_congr hA).2,
    ← (mode.dims_right_congr hB).2]
  exact MatReg.sameInShape_store_congr D D' fun r c hr hc => mode.productCell_congr cfg hA hB hr hc
end product

/-! ### `CHOL` -/

theorem MatReg.SameInShape.cholAgree {S S' : MatReg} (h : MatReg.SameInShape S S') : CholAgree S S' := by
  obtain ⟨hrows, hcols, herrors, hcell⟩ := h
  have horder := cholOrder_toNat S
  exact ⟨hrows, hcols, herrors, fun i j hj hi => hcell i j (by omega) (by omega)⟩

/-! ### `QR` -/

section qr
variable {cfg : Cfg} {S S' : MatReg} (reorth : Nat) (h : MatReg.SameInShape S S')
include h

theorem MatReg.SameInShape.column {c : Nat} (hc : c < S.cols.toNat) :
    Cells.colCells S.data c S.rows.toNat = Cells.colCells S'.data c S'.rows.toNat := by
  obtain ⟨hrows, -, -, hcell⟩ := h
  rw [← hrows]
  exact List.map_congr_left fun k hk => hcell k c (List.mem_range.1 hk) hc

/-- The steps on column `c` read that column of the source, and the columns of `Q` before it, within its rows. -/
theorem qrSteps_congr {Q Q' : Cells} {c : Nat} (hc : c < S.cols.toNat)
    (hQ : ∀ b, b < c → Q.colCells b S.rows.toNat = Q'.colCells b S'.rows.toNat) :
    qrSteps cfg S reorth Q c = qrSteps cfg S' reorth Q' c ∧
    qrColumnFlags cfg S reorth Q c = qrColumnFlags cfg S' reorth Q' c := by
  have hcolumns : ((List.range c).map fun b => Q.colCells b S.rows.toNat) =
      (List.range c).map fun b => Q'.colCells b S'.rows.toNat :=
    List.map_congr_left fun b hb => hQ b (List.mem_range.1 hb)
  rw [qrSteps, qrSteps, qrColumnFlags, qrColumnFlags, hcolumns, h.column hc]
  exact ⟨rfl, rfl⟩

variable (hS : S.LegalShape)
include hS

theorem MatReg.SameInShape.legalShape : S'.LegalShape := by
  obtain ⟨hrows, hcols, -, -⟩ := h
  rw [MatReg.LegalShape, ← hrows, ← hcols]
  exact hS

/-- By induction on the columns, those of `Q` are the same within the rows. -/
theorem qrFactor_column_congr {c : Nat} (hc : c < S.cols.toNat) :
    (qrFactor cfg S reorth).q.colCells c S.rows.toNat = (qrFactor cfg S' reorth).q.colCells c S'.rows.toNat := by
  obtain ⟨-, hcols, -, -⟩ := id h
  induction c using Nat.strong_induction_on with
  | _ c ih =>
    obtain ⟨-, -, hcolumn⟩ := qrFactor_steps (cfg := cfg) reorth hS hc
    obtain ⟨-, -, hcolumn'⟩ := qrFactor_steps (cfg := cfg) reorth (h.legalShape hS) (hcols ▸ hc)
    obtain ⟨hsteps, -⟩ := qrSteps_congr (cfg := cfg) reorth h hc fun b hb => ih b hb (hb.trans hc)
    rw [hcolumn, hcolumn', hsteps]

theorem qrFactor_steps_congr {c : Nat} (hc : c < S.cols.toNat) :
    qrSteps cfg S reorth (qrFactor cfg S reorth).q c = qrSteps cfg S' reorth (qrFactor cfg S' reorth).q c ∧
    qrColumnFlags cfg S reorth (qrFactor cfg S reorth).q c =
      qrColumnFlags cfg S' reorth (qrFactor cfg S' reorth).q c :=
  qrSteps_congr reorth h hc fun _ hb => qrFactor_column_congr reorth h hS (hb.trans hc)

theorem qrFactor_errors_congr : (qrFactor cfg S reorth).e = (qrFactor cfg S' reorth).e := by
  obtain ⟨-, hcols, herrors, -⟩ := id h
  refine BitVec.eq_of_getLsbD_eq fun bit _ => Bool.eq_iff_iff.2 ?_
  rw [(qrFactor_legal reorth hS).flags bit, (qrFactor_legal reorth (h.legalShape hS)).flags bit, ← herrors, ← hcols]
  refine or_congr_right (exists_congr fun c => and_congr_right fun hc => ?_)
  rw [(qrFactor_steps_congr reorth h hS hc).2]

theorem qrFactor_q_congr {k c : Nat} (hk : k < S.rows.toNat) (hc : c < S.cols.toNat) :
    (qrFactor cfg S reorth).q.cell k c = (qrFactor cfg S' reorth).q.cell k c := by
  obtain ⟨hrows, -, -, -⟩ := id h
  have hcolumn := qrFactor_column_congr (cfg := cfg) reorth h hS hc
  rw [← hrows] at hcolumn
  exact List.map_inj_left.1 hcolumn k (List.mem_range.2 hk)

/-- On and above the diagonal `R` is what the steps give, below it is 0. -/
theorem qrFactor_r_congr {i j : Nat} (hj : j < S.cols.toNat) :
    (qrFactor cfg S reorth).r.cell i j = (qrFactor cfg S' reorth).r.cell i j := by
  obtain ⟨-, hcols, -, -⟩ := id h
  have hS' := h.legalShape hS
  obtain ⟨hsteps, -⟩ := qrFactor_steps_congr (cfg := cfg) reorth h hS hj
  obtain ⟨hsums, hdiag, -⟩ := qrFactor_steps (cfg := cfg) reorth hS hj
  obtain ⟨hsums', hdiag', -⟩ := qrFactor_steps (cfg := cfg) reorth hS' (hcols ▸ hj)
  rcases lt_trichotomy i j with hlt | rfl | hgt
  · have hsame := hsums.trans ((congrArg Prod.snd hsteps).trans hsums'.symm)
    exact List.map_inj_left.1 hsame i (List.mem_range.2 hlt)
  · rw [hdiag, hdiag', hsteps]
  · rw [(qrFactor_legal reorth hS).zeros i j (.inl hgt), (qrFactor_legal reorth hS').zeros i j (.inl hgt)]

theorem qrStores_congr (D D' : MatReg) :
    MatReg.SameInShape (qrStoreQ D S (qrFactor cfg S reorth)) (qrStoreQ D' S' (qrFactor cfg S' reorth)) ∧
    MatReg.SameInShape (qrStoreR D S (qrFactor cfg S reorth)) (qrStoreR D' S' (qrFactor cfg S' reorth)) := by
  obtain ⟨hrows, hcols, -, -⟩ := id h
  rw [qrStoreQ, qrStoreQ, qrStoreR, qrStoreR, ← hrows, ← hcols, ← qrFactor_errors_congr reorth h hS]
  exact ⟨MatReg.sameInShape_store_congr D D' fun _ _ => qrFactor_q_congr reorth h hS,
    MatReg.sameInShape_store_congr D D' fun _ _ _ => qrFactor_r_congr reorth h hS⟩
end qr

/-! ### The commands -/

theorem State.matmul_congr {s s' : State} (mode : MulMode) (d : MReg) {a b : MReg} (hcfg : s.cfg = s'.cfg)
    (hA : MatReg.SameInShape (s.mat a) (s'.mat a)) (hB : MatReg.SameInShape (s.mat b) (s'.mat b)) :
    MatReg.SameInShape ((s.matmul mode d a b).mat d) ((s'.matmul mode d a b).mat d) := by
  rw [State.matmul, State.matmul, State.mat_setMat_self, State.mat_setMat_self, hcfg]
  exact mode.product_congr s'.cfg _ _ hA hB

theorem State.qrRun_congr {s s' : State} {q r k m : MReg} (n : Nat) (hqr : q ≠ r) (hk : k = q ∨ k = r)
    (hcfg : s.cfg = s'.cfg) (hS : (s.mat m).LegalShape) (h : MatReg.SameInShape (s.mat m) (s'.mat m)) :
    MatReg.SameInShape ((s.qrRun q r m n).mat k) ((s'.qrRun q r m n).mat k) := by
  rcases hk with rfl | rfl
  · rw [State.qrRun_mat_q s m n hqr, State.qrRun_mat_q s' m n hqr, hcfg]
    exact (qrStores_congr n h hS _ _).1
  · rw [State.qrRun_mat_r, State.qrRun_mat_r, hcfg]
    exact (qrStores_congr n h hS _ _).2

end Sys2Proof.Machine

open Sys2Proof Sys2Proof.Machine

/-- Settles O41, command by command: what a command reads of its sources lies in their shapes. -/
theorem cellsOutsideTheShapeAreNotRead : Obligations.CellsOutsideTheShapeAreNotRead := by
  intro i s s' t t' hi hcfg hsrc h h' k hk
  cases i with
  | mul d a b => cases hk
  | div d a b => cases hk
  | sqrt d a => cases hk
  | dot d n => cases hk
  | mmul d a b =>
    obtain rfl := List.mem_singleton.1 hk
    cases h
    cases h'
    exact State.matmul_congr .n k hcfg (hsrc a (by simp [Instr.matSources])).2 (hsrc b (by simp [Instr.matSources])).2
  | mmulat d a b =>
    obtain rfl := List.mem_singleton.1 hk
    cases h
    cases h'
    exact State.matmul_congr .at k hcfg (hsrc a (by simp [Instr.matSources])).2 (hsrc b (by simp [Instr.matSources])).2
  | mmulbt d a b =>
    obtain rfl := List.mem_singleton.1 hk
    cases h
    cases h'
    exact State.matmul_congr .bt k hcfg (hsrc a (by simp [Instr.matSources])).2 (hsrc b (by simp [Instr.matSources])).2
  | qr q r m n =>
    have hqr : q ≠ r := fun heq => hi q m n (heq ▸ rfl)
    rw [exec_qr_ne _ hqr] at h h'
    cases h
    cases h'
    obtain ⟨hS, hsame⟩ := hsrc m (List.mem_singleton_self m)
    exact State.qrRun_congr n.val hqr (by simpa [Instr.matDests, hqr] using hk) hcfg hS hsame
  | chol d m =>
    obtain rfl := List.mem_singleton.1 hk
    cases h
    cases h'
    obtain ⟨-, hsame⟩ := hsrc m (List.mem_singleton_self m)
    rw [State.mat_setMat_self, State.mat_setMat_self, ← hcfg]
    exact hsame.cholAgree.store ..

end
